-- ==== Sys2Proof/Word.lean ====
section
/-! DEFINITION. The words YBLK moves: 32-bit packet and response words, 16-bit and 8-bit fields of a command word
(30_encoding R80, 00_scope R10). -/

namespace Sys2Proof

/-- A packet, payload, response or CSR word. -/
abbrev Word := BitVec 32

/-- A 16-bit field: the `h` operand, a surface handle, a `frame_num`, a CSR address. -/
abbrev Half := BitVec 16

/-- An 8-bit field: the `f` operand, a byte of a buffer, a status code. -/
abbrev Byte := BitVec 8

end Sys2Proof
end

