-- ==== Sys2Proof/Config.lean ====
section
/-! DEFINITION. What an implementation of YBLK fixes (00_scope R7): the OPEN parameters as one structure of plain numbers,
the decided ones as constants, and the one free value of the model, the arbiter between the two command ports. -/

namespace Sys2Proof

/-- The two command ports: P, the producer's, and C, the consumer's (60_exceptions R285). -/
inductive Port where
  | P
  | C
deriving DecidableEq, Repr, Inhabited

/-- The OPEN parameters of 00_scope R7. They are arguments of the model: `State.cfg` carries them and no command changes
them (log 1). -/
structure Params where
  /-- `BSW_CAP_BYTES`, capacity of `raw` in bytes. -/
  bswCapBytes : Nat
  /-- `BSR_CAP_BYTES`, capacity of `rbuf` in bytes. -/
  bsrCapBytes : Nat
  /-- `DPB_SLOTS`, physical picture slots. -/
  dpbSlots : Nat
  /-- `RPL_SLOTS`, physical entries of the reference set and of each list. -/
  rplSlots : Nat
  /-- `ROQ_DEPTH`, entries of the reorder queue. -/
  roqDepth : Nat
  /-- `OUTQ_DEPTH`, entries of the output queue. -/
  outqDepth : Nat
  /-- `POC_STEP`, picture-order-count increment per enqueued picture. -/
  pocStep : Nat
  /-- `POC_BITS`, log2 of the picture-order-count range. -/
  pocBits : Nat
deriving DecidableEq, Repr

/-- `EMU_CAP_BYTES`, derived (00_scope R7, 40_bitstream_writer R123). -/
def Params.emuCapBytes (p : Params) : Nat :=
  4 + p.bswCapBytes + p.bswCapBytes / 2

/-- The constraints of 00_scope R7. The last line is the model's own (log 2): every count a 32-bit CSR or result word
reports fits it. -/
abbrev Params.Ok (p : Params) : Prop :=
  8 ≤ p.bswCapBytes ∧ p.emuCapBytes ≤ p.bsrCapBytes ∧
  2 ≤ p.dpbSlots ∧ 1 ≤ p.rplSlots ∧ 1 ≤ p.roqDepth ∧ 1 ≤ p.outqDepth ∧
  (p.pocStep = 1 ∨ p.pocStep = 2) ∧ 4 ≤ p.pocBits ∧ p.pocBits ≤ 31 ∧
  8 * p.bsrCapBytes < 2 ^ 32 ∧ p.rplSlots < 2 ^ 32 ∧ p.roqDepth < 2 ^ 32 ∧ p.outqDepth < 2 ^ 32

/-- The defaults of 00_scope R7, which the vectors of 95_test_vectors use. -/
def Params.default : Params where
  bswCapBytes := 1024
  bsrCapBytes := 1540
  dpbSlots := 16
  rplSlots := 16
  roqDepth := 16
  outqDepth := 16
  pocStep := 2
  pocBits := 16

/-- `W`, the width of the value operand of `PUT_*` and of the results of `GET_*`: decided 32 (00_scope R7, D8). -/
def Config.valueWidth : Nat := 32

/-- `NAL_ZERO_BITS`, the leading zero bits of the NAL header: decided 1 (00_scope R7, D13, conflict C2). -/
def Config.nalZeroBits : Nat := 1

/-- The constant `SYS_ID` reads (10_state R40). -/
def Config.sysId : Word := 0x59424C07#32

/-- FREE VALUE (log 3): how many times, in its `n`-th round, the arbiter lets port P move before port C, and how many times
more than once it then lets port C move before port P. 20_memory R68 leaves the order between the ports open and
70_reset_and_hazards R325 the moment a held `OUTQ_WAIT` ends, so this constant has no body. -/
opaque Config.arbiter : Nat → Nat × Nat

end Sys2Proof
end

