-- ==== Sys2Proof/Syntax.lean ====
section
/-! DEFINITION. The commands of YBLK, one constructor per row of `spec/opcode_table.json` (30_encoding R86), each with the
operands its row has, in the order of R91: the `f` operand, the `h` operand, then the payload words. -/

namespace Sys2Proof

/-- One command. Operands have the width R83 gives them; `flags` is the flags byte `F` of R82. -/
inductive Instr where
  -- SYS (45_system)
  | nop
  | sreset
  | csrr (addr : Half)
  | csrw (addr : Half) (value : Word)
  -- BSW (40_bitstream_writer)
  | bswClear
  | putBits (width : Byte) (value : Word)
  | putUe (value : Word)
  | putSe (value : Word)
  | align (fill : Bool)
  | nalHdr (refIdc : BitVec 2) (unitType : BitVec 5)
  | rbspTrail
  | emitRaw (limit : Half)
  | emitEpb (limit : Half)
  -- BSR (41_bitstream_reader)
  | bsrClear
  | bsrPush (byte : Byte)
  | bsrLoad (src : Bool)
  | bsrUnesc
  | getBits (width : Byte)
  | getUe
  | getSe
  -- DPB (42_dpb)
  | dpbInit (cap : Byte)
  | dpbAdd (flags : Byte) (surf : Half) (poc : Word) (frameNum : Half)
  | dpbBump
  | dpbFlush
  | dpbOldest (want : Bool)
  | dpbNeigh (poc : Word)
  -- RPL (43_reflist)
  | rplUpdate (flags : Byte) (surf : Half) (poc : Word) (frameNum : Half)
  | rplInit (flags : Byte)
  | rplRead (which : BitVec 2) (index : Half)
  -- ROP (44_reorder_output)
  | ropEnq (force : Bool) (surf : Half)
  | ropSubmit
  | outqPush (flags : Byte) (surf : Half) (poc : Word) (frameNum : Half) (buf : Word)
  | outqPeek
  | outqPop
  | outqWait
deriving DecidableEq, Repr

end Sys2Proof
end

