-- ==== Sys2Proof/Machine/State.lean ====
section
/-! DEFINITION. The state of YBLK (10_state), as plain data, and its value right after reset (70_reset_and_hazards R300). -/

namespace Sys2Proof.Machine

/-! ### Why a step could stop -/

/-- A step of YBLK never faults, so this type has no constructor (log 18): a failing command ends with a status and the
block goes on (60_exceptions R275), and a command has no other outcome than the statuses listed for it (R272). -/
inductive Fault where
deriving DecidableEq, Repr

/-- Why an instruction is refused. -/
inductive Refusal where
  /-- Raised by an arm of `exec` whose instruction has no meaning yet, and by nothing else. Safe: no claim about the
  hardware follows from a refusal. -/
  | notModelled (mnemonic : String)
deriving DecidableEq, Repr

/-! ### The values YBLK holds -/

/-- The coding type of a picture (10_state R22); the encoding 3 is not a type. -/
inductive PicType where
  | I
  | P
  | B
deriving DecidableEq, Repr

/-- A picture record, a value (10_state R22). -/
structure Picture where
  poc : Word
  frameNum : Half
  type : PicType
  ref : Bool
  out : Bool
  skip : Bool
  idr : Bool
  surf : Half
deriving DecidableEq, Repr

/-- A reference list entry, an immutable snapshot (10_state R29). -/
structure RefEntry where
  frameNum : Half
  poc : Word
  surf : Half
deriving DecidableEq, Repr

/-- An entry of the output queue (10_state R32). -/
structure OutEntry where
  pic : Picture
  buf : Word
  eof : Bool
  sync : Bool
deriving DecidableEq, Repr

/-- The states of the reorder pipeline (44_reorder_output R206). -/
inductive RopState where
  | waitFrames
  | dumpFrames
deriving DecidableEq, Repr

/-- The statuses of 60_exceptions R270; `Status.code` (Flags.lean) numbers them. -/
inductive Status where
  | stOk
  | stNoData
  | stFalse
  | eInvalidParam
  | eBufSmall
  | eNoSpace
  | eUnsupported
  /-- The number is kept for the host: YBLK never produces it (R270, U20). -/
  | eEncodeFail
  | eUnaligned
  | eSealed
  | eUnderrun
  | eEgRange
  | ePort
  | eIllegal
  | eFull
  | eBusy
  | eNotInit
  | eDpbExhausted
deriving DecidableEq, Repr

/-- A response: a status and four result words (30_encoding R84). -/
structure Response where
  status : Status
  r0 : Word
  r1 : Word
  r2 : Word
  r3 : Word
deriving DecidableEq, Repr

/-- The tag of a burst (10_state R35). -/
inductive BurstTag where
  | raw
  | epb
deriving DecidableEq, Repr

/-- One burst on `BYTEOUT` (10_state R35). -/
structure Burst where
  tag : BurstTag
  bytes : List Byte
deriving DecidableEq, Repr

/-- A byte buffer: (index, byte) pairs, indices strictly rising, no byte equal to what an unlisted index reads as
(`Memory.wf` in Ops.lean). -/
abbrev Memory := List Host.Cell

/-! ### The state -/

/-- Everything 10_state gives the machine, the parameters it is built with, its two ports, and three fields of the model's
own (`port`, `grants`, `grantCount`). Counts of live entries are the lengths of the lists (log 8). -/
structure State where
  /-- The parameters of 00_scope R7; no command changes them (log 1). -/
  cfg : Params
  /-- R24: the written bits. -/
  raw : Memory
  /-- R24: the number of bits written. -/
  nbits : Nat
  /-- R25: 1 while the emulation buffer holds what was derived from `raw`. -/
  sealed : Bool
  /-- R25: the emulation buffer. -/
  emu : Memory
  /-- R25: its length in bytes. -/
  emuLen : Nat
  /-- R26: the reader buffer. -/
  rbuf : Memory
  /-- R26: its number of valid bytes. -/
  rlen : Nat
  /-- R26: the read position in bits. -/
  rpos : Nat
  /-- R27: a `DPB_INIT` has succeeded. -/
  dpbInit : Bool
  /-- R27: the capacity `max_pictures`. -/
  dpbMax : Nat
  /-- R27: the live slots `slot[0 .. dpb_n - 1]`; `dpb_n` is the length. -/
  slots : List Picture
  /-- R30: the live reference set, most recent first; `ref_n` is the length. -/
  refset : List RefEntry
  /-- R30: list 0 as latched; `l0_n` is the length. -/
  l0 : List RefEntry
  /-- R30: list 1 as latched; `l1_n` is the length. -/
  l1 : List RefEntry
  /-- R42: `max_ref`, the CSR `RPL_MAXREF`. -/
  maxRef : Nat
  /-- R43: `max_l0`, the CSR `RPL_MAXL0`. -/
  maxL0 : Nat
  /-- R44: `max_l1`, the CSR `RPL_MAXL1`. -/
  maxL1 : Nat
  /-- R31: the state of the reorder machine. -/
  ropState : RopState
  /-- R31: the reorder queue, front first; `roq_n` is the length. -/
  roq : List Picture
  /-- R31: the GOP frame index. -/
  frameIdx : Word
  /-- R31: the frame-number counter. -/
  frameNumCtr : Word
  /-- R31: the presentation-index counter. -/
  presIdx : Word
  /-- R31: a picture of the session has been enqueued. -/
  seenFirst : Bool
  /-- R45: the CSR `ROP_KEYPER`. -/
  keyPeriod : Word
  /-- R46: the CSR `ROP_INTRAPER`. -/
  intraPeriod : Word
  /-- R32: the output queue, front first; `outq_n` is the length. -/
  outq : List OutEntry
  /-- R33: the sticky error log. -/
  errlog : Word
  /-- R34: an `OUTQ_WAIT` on port C is held. -/
  cWait : Bool
  /-- R35: the pictures output so far, oldest first. -/
  picout : List Picture
  /-- R35: the bursts emitted so far, oldest first. -/
  byteout : List Burst
  /-- The words presented on port P and not yet executed, oldest first (30_encoding R81; log 5). -/
  inP : List Word
  /-- The words presented on port C and not yet executed, oldest first. -/
  inC : List Word
  /-- The responses port P has received, oldest first (30_encoding R84; log 7). -/
  respP : List Response
  /-- The responses port C has received, oldest first. -/
  respC : List Response
  /-- The model's own: the port whose packet is executing (log 12). -/
  port : Port
  /-- The model's own: the arbiter's decisions already made, next first (log 3). -/
  grants : List Port
  /-- The model's own: how many rounds of decisions have been taken from the free value `Config.arbiter` (log 3). -/
  grantCount : Nat
deriving DecidableEq, Repr

/-- The reset state of a block built with parameters `p` (R300, R301): both ports idle, both logs empty. The three
fields of the model's own have the values of logs 3 and 12. -/
def State.resetWith (p : Params) : State where
  cfg := p
  raw := []
  nbits := 0
  sealed := false
  emu := []
  emuLen := 0
  rbuf := []
  rlen := 0
  rpos := 0
  dpbInit := false
  dpbMax := 0
  slots := []
  refset := []
  l0 := []
  l1 := []
  maxRef := 1
  maxL0 := 1
  maxL1 := 0
  ropState := .waitFrames
  roq := []
  frameIdx := 0
  frameNumCtr := 0
  presIdx := 0
  seenFirst := false
  keyPeriod := 0
  intraPeriod := 0
  outq := []
  errlog := 0
  cWait := false
  picout := []
  byteout := []
  inP := []
  inC := []
  respP := []
  respC := []
  port := .P
  grants := []
  grantCount := 0

/-- The machine right after reset, with the default parameters (log 1). -/
def State.reset : State := State.resetWith Params.default

end Sys2Proof.Machine
end

