-- ==== Sys2Proof/Machine/Flags.lean ====
section
/-! DEFINITION. Every packed flag of YBLK: the status numbers and the `errlog` bit of each (60_exceptions R270), the flags
byte `F` (30_encoding R82), the picture info word `PIW` (R85), and the CSR status bits (10_state R28, R39). -/

namespace Sys2Proof.Machine

/-! ### Status numbers (R270) -/

/-- The status byte of a response. -/
def Status.code : Status → Byte
  | .stOk => 0x00
  | .stNoData => 0x01
  | .stFalse => 0x02
  | .eInvalidParam => 0x10
  | .eBufSmall => 0x11
  | .eNoSpace => 0x12
  | .eUnsupported => 0x13
  | .eEncodeFail => 0x14
  | .eUnaligned => 0x15
  | .eSealed => 0x16
  | .eUnderrun => 0x17
  | .eEgRange => 0x18
  | .ePort => 0x19
  | .eIllegal => 0x1A
  | .eFull => 0x1B
  | .eBusy => 0x1C
  | .eNotInit => 0x1D
  | .eDpbExhausted => 0x1E

/-- Codes from `0x10` on are failures. -/
def Status.isFailure (st : Status) : Bool := 0x10 ≤ st.code.toNat

/-- The bits of `errlog` a status sets: bit `k` for the code `0x10 + k`, none for a non-failure (10_state R33). -/
def Status.errBits (st : Status) : Word :=
  if st.isFailure then 1#32 <<< (st.code.toNat - 0x10) else 0#32

/-! ### The flags byte `F` (R82) -/

/-- The number of a coding type. -/
def PicType.code : PicType → BitVec 2
  | .I => 0
  | .P => 1
  | .B => 2

/-- The coding type in `F`, bits 5:4; nothing for 3. -/
def flagsType (f : Byte) : Option PicType :=
  match f.extractLsb' 4 2 with
  | 0#2 => some .I
  | 1#2 => some .P
  | 2#2 => some .B
  | _ => none

/-- Bit 0, `ref`. -/
def flagsRef (f : Byte) : Bool := f.getLsbD 0

/-- Bit 1, `out`. -/
def flagsOut (f : Byte) : Bool := f.getLsbD 1

/-- Bit 2, `skip`. -/
def flagsSkip (f : Byte) : Bool := f.getLsbD 2

/-- Bit 3, `idr`. -/
def flagsIdr (f : Byte) : Bool := f.getLsbD 3

/-- Bits 7:6 are reserved and must be 0. -/
def flagsIllegal (f : Byte) : Bool := f.extractLsb' 6 2 != 0#2

/-- The flags byte of a picture record. -/
def flagsByte (p : Picture) : Byte :=
  0#2 ++ p.type.code ++ BitVec.ofBool p.idr ++ BitVec.ofBool p.skip ++ BitVec.ofBool p.out ++ BitVec.ofBool p.ref

/-! ### The picture info word (R85) -/

/-- `PIW` of a picture with the two buffer flags of an output-queue entry. -/
def piwWith (sync eof : Bool) (p : Picture) : Word :=
  1#1 ++ 0#5 ++ BitVec.ofBool sync ++ BitVec.ofBool eof ++ flagsByte p ++ p.surf

/-- `PIW` of a picture in any other response: `sync` and `eof` are 0. -/
def piw (p : Picture) : Word := piwWith false false p

/-- `PIW` of a reference list entry: `valid`, `F = 0`, `surf` (R85, 43_reflist R195). -/
def refPiw (e : RefEntry) : Word := 1#1 ++ 0#15 ++ e.surf

/-! ### Status bits seen through CSRs -/

/-- `dpb_two` (10_state R28). -/
def dpbTwo (s : State) : Bool := s.dpbMax == 2

/-- `dpb_full` (10_state R28). -/
def dpbFull (s : State) : Bool := s.dpbInit && s.slots.length == s.dpbMax

/-- `aligned` (10_state R39). -/
def aligned (s : State) : Bool := s.nbits % 8 == 0

/-- `BSW_FLAGS`: bit 0 `sealed`, bit 1 `aligned` (10_state R39). -/
def bswFlags (s : State) : Word :=
  0#30 ++ BitVec.ofBool (aligned s) ++ BitVec.ofBool s.sealed

/-- `DPB_STAT`: bit 0 `dpb_full`, bit 1 `dpb_two`, bit 2 `dpb_init` (10_state R39). -/
def dpbStat (s : State) : Word :=
  0#29 ++ BitVec.ofBool s.dpbInit ++ BitVec.ofBool (dpbTwo s) ++ BitVec.ofBool (dpbFull s)

/-- `ROP_STATE`: 0 is `WAIT_FRAMES`, 1 is `DUMP_FRAMES` (10_state R39). -/
def RopState.code : RopState → Word
  | .waitFrames => 0
  | .dumpFrames => 1

/-- `ROP_FLAGS`: bit 0 `seen_first` (10_state R39). -/
def ropFlags (s : State) : Word := 0#31 ++ BitVec.ofBool s.seenFirst

end Sys2Proof.Machine
end

