-- ==== Sys2Proof/Machine/Ops.lean ====
section
/-! DEFINITION. The operations every meaning is made of: bytes and bits of a buffer (00_scope R11, R12), ending a command
with a response (30_encoding R84), failing one (60_exceptions R275), and the port test (R286). -/

namespace Sys2Proof.Machine

/-! ### Byte buffers -/

/-- The canonical form: indices strictly rising, no listed byte equal to what an unlisted index reads as. -/
abbrev Memory.wf (m : Memory) : Prop :=
  m.Pairwise (fun a b => a.1 < b.1) ∧ ∀ c ∈ m, c.2 ≠ 0#8

/-- The byte at index `i`. An unlisted index reads 0, the reset contents of all three buffers (10_state R24 to R26). -/
def Memory.read : Memory → Nat → Byte
  | [], _ => 0#8
  | (a, b) :: m, i => if a = i then b else Memory.read m i

/-- The buffer with byte `v` at index `i`; writing 0 removes the entry. -/
def Memory.write : Memory → Nat → Byte → Memory
  | [], i, v => if v = 0#8 then [] else [(i, v)]
  | (a, b) :: m, i, v =>
    if i < a then (if v = 0#8 then (a, b) :: m else (i, v) :: (a, b) :: m)
    else if i = a then (if v = 0#8 then m else (i, v) :: m)
    else (a, b) :: Memory.write m i v

/-- The buffer that holds `bs` from index `i` on and 0 everywhere else. -/
def Memory.ofBytesAt : Nat → List Byte → Memory
  | _, [] => []
  | i, b :: bs => if b = 0#8 then Memory.ofBytesAt (i + 1) bs else (i, b) :: Memory.ofBytesAt (i + 1) bs

/-- The buffer that holds `bs` from index 0 on and 0 everywhere else. -/
def Memory.ofBytes (bs : List Byte) : Memory := Memory.ofBytesAt 0 bs

/-- The bytes at indices `0 .. n - 1`. -/
def Memory.bytes (m : Memory) (n : Nat) : List Byte := (List.range n).map (Memory.read m)

/-! ### Bits of a buffer: position `p` is bit `7 - (p mod 8)` of byte `p / 8` (00_scope R11, 20_memory R62) -/

/-- The bit at position `p`. -/
def bitAt (m : Memory) (p : Nat) : Bool := (Memory.read m (p / 8)).getLsbD (7 - p % 8)

/-- The buffer with the bit at position `p` set to `b`. -/
def setBit (m : Memory) (p : Nat) (b : Bool) : Memory :=
  Memory.write m (p / 8)
    (if b then Memory.read m (p / 8) ||| (1#8 <<< (7 - p % 8))
     else Memory.read m (p / 8) &&& ~~~(1#8 <<< (7 - p % 8)))

/-- `BitWrite(B, p, n, v)`: `v[n-1]` at position `p`, `v[0]` at position `p + n - 1` (00_scope R12). -/
def bitWrite (m : Memory) (p : Nat) : Nat → Nat → Memory
  | 0, _ => m
  | n + 1, v => bitWrite (setBit m p (v.testBit n)) (p + 1) n v

/-- `BitRead(B, p, n)`: the `n` bits from position `p` on, the first the most significant (00_scope R12). -/
def bitRead (m : Memory) (p : Nat) : Nat → Nat
  | 0 => 0
  | n + 1 => (bitAt m p).toNat * 2 ^ n + bitRead m (p + 1) n

/-! ### Ending a command -/

/-- A count as a result word or CSR value. -/
def u32 (n : Nat) : Word := BitVec.ofNat 32 n

/-- Appends a response to what port `p` has received. -/
def State.respond (s : State) (p : Port) (r : Response) : State :=
  { s with
    respP := if p = .P then s.respP ++ [r] else s.respP
    respC := if p = .C then s.respC ++ [r] else s.respC }

/-- `done S(r0, r1, r2, r3)`: one response on the issuing port (30_encoding R84); a failing status sets its `errlog` bit
(10_state R33), a non-failure none (60_exceptions R276). Result words not given are 0. -/
def State.done (s : State) (st : Status) (r0 r1 r2 r3 : Word := 0#32) : State :=
  { s with errlog := s.errlog ||| st.errBits }.respond s.port ⟨st, r0, r1, r2, r3⟩

/-- `fail E` (60_exceptions R275): nothing changes but the `errlog` bit, and the four result words are 0. This is all that
happens where a processor would take an exception: no register is saved, no mode changes, nothing is returned from
(R277). -/
def State.fail (s : State) (st : Status) : State := s.done st

/-- `body`, if port P issued the command; else `E_PORT` (60_exceptions R286). -/
def onProducer (s : State) (body : State) : State := if s.port = .P then body else s.fail .ePort

/-- `body`, if port C issued the command; else `E_PORT` (60_exceptions R286). -/
def onConsumer (s : State) (body : State) : State := if s.port = .C then body else s.fail .ePort

/-! ### What leaves the block -/

/-- `out BYTEOUT(tag, bytes)` (00_scope R12, 10_state R35). -/
def State.emit (s : State) (tag : BurstTag) (bytes : List Byte) : State :=
  { s with byteout := s.byteout ++ [⟨tag, bytes⟩] }


/-- The DPB holds `slots`, and `outs` have left on `PICOUT`, in that order (42_dpb R163). -/
def State.putDpb (s : State) (slots outs : List Picture) : State :=
  { s with slots := slots, picout := s.picout ++ outs }

end Sys2Proof.Machine
end

