-- ==== Sys2Proof/Machine/Operands.lean ====
section
/-! DEFINITION. Assembly of operands (30_encoding R82, R83): the flags byte with its checks, picture records and list
entries made from operands, the CSR a 16-bit address names (10_state R39). -/

namespace Sys2Proof.Machine

/-! ### Operands that carry a picture -/

/-- The common opening of the commands whose `f` operand is a flags byte: reserved bits of `F` (`E_ILLEGAL`, R82), the
port (`E_PORT`), then `type = 3` (`E_INVALID_PARAM`, R82), in the order of 60_exceptions R280. -/
def withFlags (f : Byte) (s : State) (body : PicType → State) : State :=
  if flagsIllegal f then s.fail .eIllegal
  else onProducer s
    (match flagsType f with
     | none => s.fail .eInvalidParam
     | some t => body t)

/-- The picture record of operands `F`, `surf`, `poc`, `frame_num`, its type already decoded. -/
def pictureOf (f : Byte) (t : PicType) (surf : Half) (poc : Word) (frameNum : Half) : Picture where
  poc := poc
  frameNum := frameNum
  type := t
  ref := flagsRef f
  out := flagsOut f
  skip := flagsSkip f
  idr := flagsIdr f
  surf := surf

/-- `poc` compared as a signed integer (10_state R22, 00_scope R15): `a < b`. -/
def pocLt (a b : Word) : Bool := decide (a.toInt < b.toInt)

/-! ### The CSR map (10_state R39) -/

/-- The registers of R39. -/
inductive Csr where
  | sysId
  | sysErrlog
  | bswNbits
  | bswFlags
  | bswEmulen
  | bswCap
  | bsrLen
  | bsrPos
  | dpbMax
  | dpbCount
  | dpbStat
  | rplMaxref
  | rplMaxl0
  | rplMaxl1
  | rplCount
  | rplL0n
  | rplL1n
  | ropKeyper
  | ropIntraper
  | ropNumb
  | ropLog2mfn
  | ropState
  | ropQcount
  | ropFrameidx
  | ropFramenum
  | ropPresidx
  | ropFlags
  | outqCount
deriving DecidableEq, Repr

/-- The register at an address; nothing where the address is unimplemented (R38). -/
def csrAt (addr : Half) : Option Csr :=
  match addr with
  | 0x0000#16 => some .sysId
  | 0x0001#16 => some .sysErrlog
  | 0x0010#16 => some .bswNbits
  | 0x0011#16 => some .bswFlags
  | 0x0012#16 => some .bswEmulen
  | 0x0013#16 => some .bswCap
  | 0x0020#16 => some .bsrLen
  | 0x0021#16 => some .bsrPos
  | 0x0040#16 => some .dpbMax
  | 0x0041#16 => some .dpbCount
  | 0x0042#16 => some .dpbStat
  | 0x0050#16 => some .rplMaxref
  | 0x0051#16 => some .rplMaxl0
  | 0x0052#16 => some .rplMaxl1
  | 0x0053#16 => some .rplCount
  | 0x0054#16 => some .rplL0n
  | 0x0055#16 => some .rplL1n
  | 0x0060#16 => some .ropKeyper
  | 0x0061#16 => some .ropIntraper
  | 0x0062#16 => some .ropNumb
  | 0x0063#16 => some .ropLog2mfn
  | 0x0064#16 => some .ropState
  | 0x0065#16 => some .ropQcount
  | 0x0066#16 => some .ropFrameidx
  | 0x0067#16 => some .ropFramenum
  | 0x0068#16 => some .ropPresidx
  | 0x0069#16 => some .ropFlags
  | 0x0070#16 => some .outqCount
  | _ => none

/-! ### `log2MaxFrameNum` (44_reorder_output R207) -/

/-- The loop `while 2^v <= k: v <- v + 1`, at most `fuel` times. -/
def leastPowAbove (k : Nat) : Nat → Nat → Nat
  | 0, v => v
  | fuel + 1, v => if 2 ^ v ≤ k then leastPowAbove k fuel (v + 1) else v

/-- `log2mfn(k)`: the smallest `v` with `2^v > k`, clamped to 4 .. 10. A `u32` needs at most 32 turns. -/
def log2mfn (k : Word) : Nat := min (max (leastPowAbove k.toNat 32 0) 4) 10

/-! ### What a CSR reads as (10_state R38 to R52) -/

/-- The value of a register in state `s`. -/
def csrValue (c : Csr) (s : State) : Word :=
  match c with
  | .sysId => Config.sysId
  | .sysErrlog => s.errlog
  | .bswNbits => u32 s.nbits
  | .bswFlags => bswFlags s
  | .bswEmulen => u32 s.emuLen
  | .bswCap => u32 s.cfg.bswCapBytes
  | .bsrLen => u32 s.rlen
  | .bsrPos => u32 s.rpos
  | .dpbMax => u32 s.dpbMax
  | .dpbCount => u32 s.slots.length
  | .dpbStat => dpbStat s
  | .rplMaxref => u32 s.maxRef
  | .rplMaxl0 => u32 s.maxL0
  | .rplMaxl1 => u32 s.maxL1
  | .rplCount => u32 s.refset.length
  | .rplL0n => u32 s.l0.length
  | .rplL1n => u32 s.l1.length
  | .ropKeyper => s.keyPeriod
  | .ropIntraper => s.intraPeriod
  | .ropNumb => 0#32
  | .ropLog2mfn => u32 (log2mfn s.keyPeriod)
  | .ropState => s.ropState.code
  | .ropQcount => u32 s.roq.length
  | .ropFrameidx => s.frameIdx
  | .ropFramenum => s.frameNumCtr
  | .ropPresidx => s.presIdx
  | .ropFlags => ropFlags s
  | .outqCount => u32 s.outq.length

end Sys2Proof.Machine
end

