-- ==== Sys2Proof/Machine/Dpb.lean ====
section
/-! DEFINITION. The decoded picture buffer (42_dpb): its primitives on the list of live slots, then its commands. -/

namespace Sys2Proof.Machine

/-! ### Primitives (R162 to R166) -/

/-- `Remove(i)` (R162): the last live entry is swapped into slot `i` and the count shrinks. (For the last index itself the
swap is with itself.) -/
def removeSlot (l : List Picture) (i : Nat) : List Picture :=
  match l.getLast? with
  | none => l
  | some z => (l.set i z).dropLast

/-- The record of a picture once it has been output (R163). -/
def released (p : Picture) : Picture := { p with out := true }

/-- The loop of `Oldest(want)` (R164) over the slots from index `i` on, `best` being the choice so far. -/
def oldestFrom (want : Bool) : List Picture → Nat → Option (Nat × Picture) → Option (Nat × Picture)
  | [], _, best => best
  | p :: l, i, best =>
    if p.out ≠ want then oldestFrom want l (i + 1) best
    else
      match best with
      | none => oldestFrom want l (i + 1) (some (i, p))
      | some (j, q) =>
        if pocLt p.poc q.poc then oldestFrom want l (i + 1) (some (i, p)) else oldestFrom want l (i + 1) (some (j, q))

/-- `Oldest(want)` (R164): index and record of the picture of least `poc` among those whose `out` is `want`, the lowest
index among equals. -/
def oldest (want : Bool) (l : List Picture) : Option (Nat × Picture) := oldestFrom want l 0 none

/-- `Bump()` (R165): the picture output, as output, and the slots it leaves; nothing when every picture is already
output. -/
def bump (l : List Picture) : Option (Picture × List Picture) :=
  match oldest false l with
  | none => none
  | some (i, p) => some (released p, if p.ref then l.set i (released p) else removeSlot l i)

/-- The loop of `GC()` (R166) at index `i`, at most `fuel` turns; each turn leaves one slot fewer to examine. -/
def gcFrom : Nat → Nat → List Picture → List Picture
  | 0, _, l => l
  | fuel + 1, i, l =>
    match l[i]? with
    | none => l
    | some p => if p.out ∧ ¬p.ref then gcFrom fuel i (removeSlot l i) else gcFrom fuel (i + 1) l

/-- `GC()` (R166). -/
def gc (l : List Picture) : List Picture := gcFrom l.length 0 l

/-- How the loop of `DPB_ADD` in the general policy ends. -/
inductive RoomEnd where
  /-- There is room to insert. -/
  | room
  /-- The incoming picture is to be output directly (R168). -/
  | late
  /-- `Bump` found nothing: `E_DPB_EXHAUSTED` (R169). -/
  | exhausted
deriving DecidableEq, Repr

/-- The loop `while dpb_n == dpb_max` of R167 and R168: the slots and the pictures output so far. `isLate` is the search
R168 makes before each bump. Each bump leaves one picture fewer to output, so `length + 1` turns are enough (log 26). -/
def makeRoom (isLate : List Picture → Bool) (max : Nat) :
    Nat → List Picture → List Picture → RoomEnd × List Picture × List Picture
  | 0, l, outs => (.exhausted, l, outs)
  | fuel + 1, l, outs =>
    if l.length ≠ max then (.room, l, outs)
    else if isLate l then (.late, l, outs)
    else
      match bump l with
      | none => (.exhausted, l, outs)
      | some (p, l') => makeRoom isLate max fuel l' (outs ++ [p])

/-- A buffered non-reference picture has a smaller `poc` than `inc` (R168). -/
def smallerNonRef (inc : Picture) (l : List Picture) : Bool :=
  l.any (fun p => !p.ref && pocLt p.poc inc.poc)

/-- Bumps until nothing is left to output (R172): the pictures output, in order. Each bump leaves one picture fewer to
output, so `length` turns are enough (log 26). -/
def bumpAll : Nat → List Picture → List Picture
  | 0, _ => []
  | fuel + 1, l =>
    match bump l with
    | none => []
    | some (p, l') => p :: bumpAll fuel l'

/-! ### `DPB_INIT` -/

/-- `DPB_INIT cap` (R160). -/
def execDpbInit (cap : Byte) (s : State) : Host.Outcome State Fault Refusal :=
  .next (onProducer s
    (if cap.toNat = 0 ∨ s.cfg.dpbSlots < cap.toNat then s.fail .eInvalidParam
     else
       { s with dpbInit := true, dpbMax := cap.toNat, slots := [] }.done .stOk (u32 cap.toNat)
         (if cap.toNat = 2 then 1#32 else 0#32)))

/-! ### `DPB_ADD` -/

/-- `DPB_ADD` of a reference picture, general policy (R167, R169). -/
def addReference (inc : Picture) (s : State) : State :=
  let l := gc s.slots
  match makeRoom (fun _ => false) s.dpbMax (l.length + 1) l [] with
  | (.room, l', outs) => (s.putDpb (l' ++ [inc]) outs).done .stOk (u32 outs.length) 0#32
  | (_, l', outs) => (s.putDpb l' outs).fail .eDpbExhausted

/-- `DPB_ADD` of a non-reference picture, general policy (R168, R169). -/
def addNonReference (inc : Picture) (s : State) : State :=
  let l := gc s.slots
  if inc.skip then (s.putDpb l []).done .stOk 0#32 2#32
  else
    match makeRoom (smallerNonRef inc) s.dpbMax (l.length + 1) l [] with
    | (.room, l', outs) => (s.putDpb (l' ++ [inc]) outs).done .stOk (u32 outs.length) 0#32
    | (.late, l', outs) => (s.putDpb l' (outs ++ [released inc])).done .stOk (u32 (outs.length + 1)) 1#32
    | (.exhausted, l', outs) => (s.putDpb l' outs).fail .eDpbExhausted

/-- The slot a full 2-slot DPB gives up: the picture of smaller `poc`, slot 0 on a tie (R170, conflict C1). -/
def olderOfTwo (a b : Picture) : Nat := if pocLt b.poc a.poc then 1 else 0

/-- `DPB_ADD` in the 2-slot policy (R170). -/
def addTwoSlot (inc : Picture) (s : State) : State :=
  if inc.ref then
    match s.slots with
    | [a, b] =>
      let i := olderOfTwo a b
      let old := if i = 1 then b else a
      let outs := if old.out then [] else [released old]
      (s.putDpb ([a, b].set i inc) outs).done .stOk (u32 outs.length) 0#32
    | l => (s.putDpb (l ++ [inc]) []).done .stOk 0#32 0#32
  else (s.putDpb s.slots [released inc]).done .stOk 1#32 1#32

/-- `DPB_ADD F, surf, poc, frame_num` (R161, R167 to R170). -/
def execDpbAdd (flags : Byte) (surf : Half) (poc : Word) (frameNum : Half) (s : State) :
    Host.Outcome State Fault Refusal :=
  .next (withFlags flags s (fun t =>
    if flagsOut flags then s.fail .eInvalidParam
    else if ¬s.dpbInit then s.fail .eNotInit
    else
      let inc := pictureOf flags t surf poc frameNum
      if dpbTwo s then addTwoSlot inc s
      else if inc.ref then addReference inc s
      else addNonReference inc s))

/-! ### The other commands -/

/-- The opening of the DPB commands that take no picture: the port, then `E_NOT_INIT` (R161). -/
def onDpb (s : State) (body : State) : State :=
  onProducer s (if ¬s.dpbInit then s.fail .eNotInit else body)

/-- Answers with a picture: `poc`, `frame_num`, `PIW` (30_encoding R85). -/
def answerPicture (p : Picture) (s : State) : State :=
  s.done .stOk p.poc (p.frameNum.setWidth 32) (piw p)

/-- `DPB_BUMP` (R171). -/
def execDpbBump (s : State) : Host.Outcome State Fault Refusal :=
  .next (onDpb s
    (match bump s.slots with
     | none => s.done .stFalse
     | some (p, l) => answerPicture p (s.putDpb l [p])))

/-- `DPB_FLUSH` (R172). -/
def execDpbFlush (s : State) : Host.Outcome State Fault Refusal :=
  .next (onDpb s
    (let outs := bumpAll s.slots.length s.slots
     (s.putDpb [] outs).done .stOk (u32 outs.length)))

/-- `DPB_OLDEST want` (R173). -/
def execDpbOldest (want : Bool) (s : State) : Host.Outcome State Fault Refusal :=
  .next (onDpb s
    (match oldest want s.slots with
     | none => s.done .stOk
     | some (_, p) => answerPicture p s))

/-- The loop of R174 for `prev`: the picture of greatest `poc` below `q`, the first among equals. -/
def prevOf (q : Word) : List Picture → Option Picture → Option Picture
  | [], best => best
  | p :: l, best =>
    if pocLt p.poc q ∧ (best.all fun b => pocLt b.poc p.poc) then prevOf q l (some p) else prevOf q l best

/-- The loop of R174 for `next`: the picture of least `poc` above `q`, the first among equals. -/
def nextOf (q : Word) : List Picture → Option Picture → Option Picture
  | [], best => best
  | p :: l, best =>
    if pocLt q p.poc ∧ (best.all fun b => pocLt p.poc b.poc) then nextOf q l (some p) else nextOf q l best

/-- `poc` of an optional picture, 0 for "none" (30_encoding R85). -/
def pocOrZero (p : Option Picture) : Word := (p.map Picture.poc).getD 0#32

/-- `PIW` of an optional picture, 0 for "none" (30_encoding R85). -/
def piwOrZero (p : Option Picture) : Word := (p.map piw).getD 0#32

/-- `DPB_NEIGH poc` (R174), in both policies (R175). -/
def execDpbNeigh (poc : Word) (s : State) : Host.Outcome State Fault Refusal :=
  .next (onDpb s
    (let prev := prevOf poc s.slots none
     let next := nextOf poc s.slots none
     s.done .stOk (pocOrZero prev) (piwOrZero prev) (pocOrZero next) (piwOrZero next)))

end Sys2Proof.Machine
end

