-- ==== Sys2Proof/Machine/OutQueue.lean ====
section
/-! DEFINITION. The output queue (44_reorder_output R217 to R222). -/

namespace Sys2Proof.Machine

/-- The entry `OUTQ_PUSH` appends: `eof` always, `sync` exactly for an I picture (R217, R218). -/
def outEntry (p : Picture) (buf : Word) : OutEntry where
  pic := p
  buf := buf
  eof := true
  sync := p.type == .I

/-- `OUTQ_PUSH F, surf, poc, frame_num, buf` (R217). -/
def execOutqPush (flags : Byte) (surf : Half) (poc : Word) (frameNum : Half) (buf : Word) (s : State) :
    Host.Outcome State Fault Refusal :=
  .next (withFlags flags s (fun t =>
    if s.outq.length = s.cfg.outqDepth then s.fail .eFull
    else
      let q := s.outq ++ [outEntry (pictureOf flags t surf poc frameNum) buf]
      { s with outq := q }.done .stOk (u32 q.length)))

/-- The answer of `OUTQ_PEEK` in the current state (R220): the front entry, or `ST_NO_DATA`. -/
def answerFront (s : State) : State :=
  match s.outq with
  | [] => s.done .stNoData
  | e :: _ => s.done .stOk e.pic.poc (e.pic.frameNum.setWidth 32) (piwWith e.sync e.eof e.pic) e.buf

/-- `OUTQ_PEEK` (R220), on both ports. -/
def execOutqPeek (s : State) : Host.Outcome State Fault Refusal :=
  .next (answerFront s)

/-- `OUTQ_POP` (R221), on both ports. -/
def execOutqPop (s : State) : Host.Outcome State Fault Refusal :=
  .next
    (match s.outq with
     | [] => s.done .stNoData
     | _ :: rest => { s with outq := rest }.done .stOk (u32 rest.length))

/-- `OUTQ_WAIT` when issued (R222), on port C only: with an entry present it ends at once as `OUTQ_PEEK`; else it is held,
without a response. -/
def execOutqWait (s : State) : Host.Outcome State Fault Refusal :=
  .next (onConsumer s
    (if s.outq = [] then { s with cWait := true } else answerFront { s with cWait := false }))

/-- The end of a held `OUTQ_WAIT` at a moment when the queue has an entry (R222): port C is answered as by `OUTQ_PEEK` in
the current state. While the queue is empty it stays held. -/
def endWait (s : State) : State :=
  if s.outq = [] then s else answerFront { s with cWait := false, port := .C }

end Sys2Proof.Machine
end

