-- ==== Sys2Proof/Machine/Codes.lean ====
section
/-! DEFINITION. The codes of the bitstream units: the Exp-Golomb mappings (40_bitstream_writer R115, R116;
41_bitstream_reader R146, R147) and the emulation-prevention transform with its inverse (R122, R148). -/

namespace Sys2Proof.Machine

/-! ### Exp-Golomb -/

/-- `bitLength(c)`: the position of the highest set bit, 1-indexed; `bitLength(0) = 0` (00_scope R10). -/
def bitLength (c : Nat) : Nat := if c = 0 then 0 else Nat.log2 c + 1

/-- The width of the code of `code = value + 1` (R115): `bitLength - 1` zero bits and the `bitLength` bits of `code`. -/
def ueWidth (code : Nat) : Nat := 2 * bitLength code - 1

/-- The mapping of `PUT_SE` (R116): `v <= 0` to `-2v`, `v > 0` to `2v - 1`. -/
def seToUe (v : Int) : Nat := if v ≤ 0 then (-2 * v).toNat else (2 * v - 1).toNat

/-- The mapping of `GET_SE` (R147), the inverse of `seToUe`. -/
def ueToSe (k : Nat) : Int := if k % 2 = 1 then ((k + 1) / 2 : Nat) else -((k / 2 : Nat) : Int)

/-- The loop of R146: from `n` zero bits already counted at position `p`, count on while the next of `avail` bits is 0,
at most `fuel` more. -/
def countZeros (m : Memory) (p avail : Nat) : Nat → Nat → Nat
  | 0, n => n
  | fuel + 1, n => if n < avail ∧ bitAt m (p + n) = false then countZeros m p avail fuel (n + 1) else n

/-- What reading one code word finds (R146). -/
inductive UeRead where
  /-- 32 leading zeros: `E_EG_RANGE`. -/
  | range
  /-- The bits run out: `E_UNDERRUN`. -/
  | underrun
  /-- A code word of `bits` bits with this value. -/
  | value (v bits : Nat)
deriving DecidableEq, Repr

/-- The standard Exp-Golomb reader (R146) at position `p` with `avail` unread bits. -/
def readUe (m : Memory) (p avail : Nat) : UeRead :=
  let n := countZeros m p avail 32 0
  if n = 32 then .range
  else if n = avail then .underrun
  else if avail < 2 * n + 1 then .underrun
  else .value (bitRead m (p + n) (n + 1) - 1) (2 * n + 1)

/-! ### Emulation prevention -/

/-- The 4-byte start code (R122). -/
def startCode : List Byte := [0x00#8, 0x00#8, 0x00#8, 0x01#8]

/-- The count of zero bytes after byte `b`. -/
def nextZeros (z : Nat) (b : Byte) : Nat := if b = 0x00#8 then z + 1 else 0

/-- The loop of `EPB` (R122): `z` zero bytes end the output since the start code or the last insertion. -/
def escape : Nat → List Byte → List Byte
  | _, [] => []
  | z, b :: r =>
    if z = 2 ∧ b.toNat ≤ 0x03 then 0x03#8 :: b :: escape (nextZeros 0 b) r
    else b :: escape (nextZeros z b) r

/-- `EPB(r)` (R122). -/
def epb (r : List Byte) : List Byte := startCode ++ escape 0 r

/-- The loop of `UNESC` (R148) after the start code, with the same counter. -/
def unescape : Nat → List Byte → List Byte
  | _, [] => []
  | z, b :: e =>
    if z = 2 ∧ b = 0x03#8 then unescape 0 e
    else b :: unescape (nextZeros z b) e

/-- `UNESC(e)` of a sequence that starts with the start code (R148). -/
def unesc (e : List Byte) : List Byte := unescape 0 (e.drop 4)

end Sys2Proof.Machine
end

