-- ==== Sys2Proof/Machine/Reader.lean ====
section
/-! DEFINITION. The bitstream reader's commands (41_bitstream_reader). -/

namespace Sys2Proof.Machine

/-- `avail`, the number of unread bits (R140). -/
def avail (s : State) : Nat := 8 * s.rlen - s.rpos

/-- The reader holding exactly `b`, read from its start (R142, R144; log 9). -/
def loadReader (b : List Byte) (s : State) : State :=
  { s with rbuf := Memory.ofBytes b, rlen := b.length, rpos := 0 }.done .stOk (u32 b.length)

/-- `BSR_CLEAR` (R141). -/
def execBsrClear (s : State) : Host.Outcome State Fault Refusal :=
  .next (onProducer s ({ s with rbuf := [], rlen := 0, rpos := 0 }.done .stOk))

/-- `BSR_PUSH byte` (R143). -/
def execBsrPush (byte : Byte) (s : State) : Host.Outcome State Fault Refusal :=
  .next (onProducer s
    (if s.rlen = s.cfg.bsrCapBytes then s.fail .eNoSpace
     else { s with rbuf := Memory.write s.rbuf s.rlen byte, rlen := s.rlen + 1 }.done .stOk (u32 (s.rlen + 1))))

/-- The capacity test of `BSR_LOAD` and the load (R142). -/
def loadChecked (b : List Byte) (s : State) : State :=
  if s.cfg.bsrCapBytes < b.length then s.fail .eNoSpace else loadReader b s

/-- `BSR_LOAD src` (R142): `src` 0 is `raw`, 1 is `emu`. -/
def execBsrLoad (src : Bool) (s : State) : Host.Outcome State Fault Refusal :=
  .next (onProducer s
    (if src then
       if s.sealed then loadChecked (Memory.bytes s.emu s.emuLen) s else s.fail .eInvalidParam
     else
       if s.nbits % 8 ≠ 0 then s.fail .eUnaligned else loadChecked (Memory.bytes s.raw (s.nbits / 8)) s))

/-- `BSR_UNESC` (R144). -/
def execBsrUnesc (s : State) : Host.Outcome State Fault Refusal :=
  .next (onProducer s
    (if s.rlen < 4 ∨ Memory.bytes s.rbuf 4 ≠ startCode then s.fail .eInvalidParam
     else loadReader (unesc (Memory.bytes s.rbuf s.rlen)) s))

/-- `GET_BITS width` (R145). -/
def execGetBits (width : Byte) (s : State) : Host.Outcome State Fault Refusal :=
  .next (onProducer s
    (if Config.valueWidth < width.toNat then s.fail .eInvalidParam
     else if avail s < width.toNat then s.fail .eUnderrun
     else { s with rpos := s.rpos + width.toNat }.done .stOk (u32 (bitRead s.rbuf s.rpos width.toNat)) (u32 width.toNat)))

/-- One code word, answered through `result` (R146, R147). -/
def getCode (result : Nat → Word) (s : State) : State :=
  match readUe s.rbuf s.rpos (avail s) with
  | .range => s.fail .eEgRange
  | .underrun => s.fail .eUnderrun
  | .value v bits => { s with rpos := s.rpos + bits }.done .stOk (result v) (u32 bits)

/-- `GET_UE` (R146). -/
def execGetUe (s : State) : Host.Outcome State Fault Refusal :=
  .next (onProducer s (getCode u32 s))

/-- `GET_SE` (R147). -/
def execGetSe (s : State) : Host.Outcome State Fault Refusal :=
  .next (onProducer s (getCode (fun k => BitVec.ofInt 32 (ueToSe k)) s))

end Sys2Proof.Machine
end

