-- ==== Sys2Proof/Machine/RefList.lean ====
section
/-! DEFINITION. The reference picture list unit (43_reflist). -/

namespace Sys2Proof.Machine

/-- `RPL_UPDATE F, surf, poc, frame_num` (R191, R192). -/
def execRplUpdate (flags : Byte) (surf : Half) (poc : Word) (frameNum : Half) (s : State) :
    Host.Outcome State Fault Refusal :=
  .next (withFlags flags s (fun t =>
    if flagsIdr flags ∧ t ≠ .I then s.fail .eInvalidParam
    else if t = .B then s.done .stOk (u32 s.refset.length) 0#32
    else
      let kept :=
        if flagsIdr flags then []
        else if s.refset.length = s.maxRef then s.refset.dropLast
        else s.refset
      let set' := ⟨frameNum, poc, surf⟩ :: kept
      { s with refset := set' }.done .stOk (u32 set'.length) (u32 (s.refset.length - kept.length))))

/-- `RPL_INIT F` (R194, R196). -/
def execRplInit (flags : Byte) (s : State) : Host.Outcome State Fault Refusal :=
  .next (withFlags flags s (fun t =>
    if t = .B then s.fail .eUnsupported
    else
      let l0 := (if t = .P then s.refset else []).take s.maxL0
      let l1 := ([] : List RefEntry).take s.maxL1
      { s with l0 := l0, l1 := l1 }.done .stOk (u32 l0.length) (u32 l1.length)))

/-- The list `which` selects (R195): 0 `refset`, 1 `l0`, 2 `l1`; nothing for 3. -/
def listOf (which : BitVec 2) (s : State) : Option (List RefEntry) :=
  match which with
  | 0#2 => some s.refset
  | 1#2 => some s.l0
  | 2#2 => some s.l1
  | _ => none

/-- `RPL_READ which, index` (R195). -/
def execRplRead (which : BitVec 2) (index : Half) (s : State) : Host.Outcome State Fault Refusal :=
  .next (onProducer s
    (match (listOf which s).bind (fun l => l[index.toNat]?) with
     | none => s.fail .eInvalidParam
     | some e => s.done .stOk e.poc (e.frameNum.setWidth 32) (refPiw e)))

end Sys2Proof.Machine
end

