-- ==== Sys2Proof/Machine/Reorder.lean ====
section
/-! DEFINITION. The reorder pipeline (44_reorder_output R205 to R214). -/

namespace Sys2Proof.Machine

/-- `KeyDecision(force)` (R210). -/
def keyDecision (force : Bool) (s : State) : Bool :=
  !s.seenFirst || force || (s.keyPeriod != 0#32 && decide (s.keyPeriod.toNat ≤ s.frameIdx.toNat))

/-- The GOP counters as an IDR picture leaves them before it is numbered (R211). -/
def restartGop (idr : Bool) (s : State) : State :=
  if idr then { s with frameIdx := 0, frameNumCtr := 0, presIdx := 0 } else s

/-- The modulus of `frameNum`, `2^log2mfn(key_period)` (R211). -/
def frameNumRange (s : State) : Nat := 2 ^ log2mfn s.keyPeriod

/-- `Assign(idr, surf)` (R211, R212), on the counters after `restartGop`. -/
def assign (idr : Bool) (surf : Half) (s : State) : Picture where
  poc := BitVec.ofNat 32 ((s.presIdx.toNat * s.cfg.pocStep) % 2 ^ s.cfg.pocBits)
  frameNum := BitVec.ofNat 16 (s.frameNumCtr.toNat % frameNumRange s)
  type :=
    if idr then .I
    else if s.intraPeriod ≠ 0#32 ∧ s.frameIdx.toNat % s.intraPeriod.toNat = 0 then .I
    else .P
  ref := true
  out := false
  skip := false
  idr := idr
  surf := surf

/-- The rest of R208: `p` goes to the back of the queue, the counters advance, the machine is in `DUMP_FRAMES`. -/
def enqueue (p : Picture) (s : State) : State :=
  { s with
    roq := s.roq ++ [p]
    frameIdx := s.frameIdx + 1#32
    frameNumCtr := BitVec.ofNat 32 ((s.frameNumCtr.toNat + 1) % frameNumRange s)
    presIdx := s.presIdx + 1#32
    seenFirst := true
    ropState := .dumpFrames }

/-- Answers with a picture and the length of the reorder queue (R208, R214). -/
def answerRop (p : Picture) (s : State) : State :=
  s.done .stOk p.poc (p.frameNum.setWidth 32) (piw p) (u32 s.roq.length)

/-- `ROP_ENQ force, surf` (R208). -/
def execRopEnq (force : Bool) (surf : Half) (s : State) : Host.Outcome State Fault Refusal :=
  .next (onProducer s
    (if s.roq.length = s.cfg.roqDepth then s.fail .eFull
     else
       let idr := keyDecision force s
       let s1 := restartGop idr s
       let p := assign idr surf s1
       answerRop p (enqueue p s1)))

/-- `ROP_SUBMIT` (R214). The rule reads `roq[0]` in `DUMP_FRAMES`, where the queue is not empty (R213); the empty case of
the match is a state no run reaches (10_state R37). -/
def execRopSubmit (s : State) : Host.Outcome State Fault Refusal :=
  .next (onProducer s
    (match s.ropState, s.roq with
     | .waitFrames, _ => s.done .stNoData
     | .dumpFrames, [] => s.done .stNoData
     | .dumpFrames, p :: rest =>
       answerRop p { s with roq := rest, ropState := if rest = [] then .waitFrames else .dumpFrames }))

end Sys2Proof.Machine
end

