-- ==== Sys2Proof/WellFormed.lean ====
section
/-! DEFINITION. Which commands a packet can carry: the operand types leave one check over, the reserved bits 7:6 of the
flags byte `F` (30_encoding R82, R87). A command that fails it exists in no packet the decoder accepts. -/

namespace Sys2Proof

/-- Bits 7:6 of `F` are 0, as R82 demands. -/
def flagsReservedClear (f : Byte) : Bool :=
  f.extractLsb' 6 2 == 0#2

/-- Every operand is one its encoding admits. -/
def Instr.wf : Instr → Bool
  | .dpbAdd flags _ _ _ => flagsReservedClear flags
  | .rplUpdate flags _ _ _ => flagsReservedClear flags
  | .rplInit flags => flagsReservedClear flags
  | .outqPush flags _ _ _ _ => flagsReservedClear flags
  | .nop | .sreset | .csrr _ | .csrw _ _ => true
  | .bswClear | .putBits _ _ | .putUe _ | .putSe _ | .align _ | .nalHdr _ _ | .rbspTrail | .emitRaw _ | .emitEpb _ => true
  | .bsrClear | .bsrPush _ | .bsrLoad _ | .bsrUnesc | .getBits _ | .getUe | .getSe => true
  | .dpbInit _ | .dpbBump | .dpbFlush | .dpbOldest _ | .dpbNeigh _ => true
  | .rplRead _ _ => true
  | .ropEnq _ _ | .ropSubmit | .outqPeek | .outqPop | .outqWait => true

end Sys2Proof
end

