-- ==== Sys2Proof/Decode.lean ====
section
/-! DEFINITION. From packet words to a command and back (30_encoding). A packet is 1 to 4 words of 32 bits on a word-wide
port; no byte order is visible in it (20_memory R63), so the decoder reads words. -/

namespace Sys2Proof

/-! ### The fields of word 0 (R80) -/

/-- `op`, bits 31:24. -/
def opOf (w : Word) : Byte := w.extractLsb' 24 8

/-- `f`, bits 23:16. -/
def fOf (w : Word) : Byte := w.extractLsb' 16 8

/-- `h`, bits 15:0. -/
def hOf (w : Word) : Half := w.extractLsb' 0 16

/-- The command word with these three fields. -/
def word0 (op f : Byte) (h : Half) : Word := op ++ f ++ h

/-- The packet length in words, a function of `op` alone (R81, R90). -/
def packetLen (op : Byte) : Nat :=
  match op with
  | 0x03#8 | 0x11#8 | 0x12#8 | 0x13#8 | 0x45#8 => 2
  | 0x41#8 | 0x50#8 => 3
  | 0x62#8 => 4
  | _ => 1

/-! ### Decoding -/

/-- Why a word list is no command. -/
inductive DecodeError where
  /-- Fewer words than the opcode's packet length: nothing executes yet (R81). -/
  | incomplete
  /-- `op` is not in the map of R86: `E_ILLEGAL` (R88). -/
  | unassigned (op : Byte)
  /-- A reserved bit of this command is set: `E_ILLEGAL` (R87). -/
  | reservedBits (mnemonic : String)
deriving DecidableEq, Repr

/-- `i`, if the reserved bits of its packet are clear (R87). -/
def checked (mnemonic : String) (clear : Bool) (i : Instr) : Except DecodeError Instr :=
  if clear then .ok i else .error (.reservedBits mnemonic)

/-- Bits 31:16 of the `frame_num` word are 0 (R83, R87). -/
def frameNumReservedClear (w2 : Word) : Bool := w2.extractLsb' 16 16 == 0#16

/-- `frame_num`, bits 15:0 of `w2` (R83). -/
def frameNumOf (w2 : Word) : Half := w2.extractLsb' 0 16

/-- The command of opcode `op` with short operands `f`, `h` and payload `w1`, `w2`, `w3`: the map of R86, the operand
fields of R82 and R83, the reserved bits of R87. -/
def decodeFields (op f : Byte) (h : Half) (w1 w2 w3 : Word) : Except DecodeError Instr :=
  match op with
  | 0x00#8 => checked "NOP" (f == 0 && h == 0) .nop
  | 0x01#8 => checked "SRESET" (f == 0 && h == 0) .sreset
  | 0x02#8 => checked "CSRR" (f == 0) (.csrr h)
  | 0x03#8 => checked "CSRW" (f == 0) (.csrw h w1)
  | 0x10#8 => checked "BSW_CLEAR" (f == 0 && h == 0) .bswClear
  | 0x11#8 => checked "PUT_BITS" (h == 0) (.putBits f w1)
  | 0x12#8 => checked "PUT_UE" (f == 0 && h == 0) (.putUe w1)
  | 0x13#8 => checked "PUT_SE" (f == 0 && h == 0) (.putSe w1)
  | 0x14#8 => checked "ALIGN" (f.extractLsb' 1 7 == 0 && h == 0) (.align (f.getLsbD 0))
  | 0x15#8 => checked "NAL_HDR" (f.extractLsb' 7 1 == 0 && h == 0) (.nalHdr (f.extractLsb' 5 2) (f.extractLsb' 0 5))
  | 0x16#8 => checked "RBSP_TRAIL" (f == 0 && h == 0) .rbspTrail
  | 0x17#8 => checked "EMIT_RAW" (f == 0) (.emitRaw h)
  | 0x18#8 => checked "EMIT_EPB" (f == 0) (.emitEpb h)
  | 0x20#8 => checked "BSR_CLEAR" (f == 0 && h == 0) .bsrClear
  | 0x21#8 => checked "BSR_PUSH" (h == 0) (.bsrPush f)
  | 0x22#8 => checked "BSR_LOAD" (f.extractLsb' 1 7 == 0 && h == 0) (.bsrLoad (f.getLsbD 0))
  | 0x23#8 => checked "BSR_UNESC" (f == 0 && h == 0) .bsrUnesc
  | 0x24#8 => checked "GET_BITS" (h == 0) (.getBits f)
  | 0x25#8 => checked "GET_UE" (f == 0 && h == 0) .getUe
  | 0x26#8 => checked "GET_SE" (f == 0 && h == 0) .getSe
  | 0x40#8 => checked "DPB_INIT" (h == 0) (.dpbInit f)
  | 0x41#8 => checked "DPB_ADD" (flagsReservedClear f && frameNumReservedClear w2) (.dpbAdd f h w1 (frameNumOf w2))
  | 0x42#8 => checked "DPB_BUMP" (f == 0 && h == 0) .dpbBump
  | 0x43#8 => checked "DPB_FLUSH" (f == 0 && h == 0) .dpbFlush
  | 0x44#8 => checked "DPB_OLDEST" (f.extractLsb' 1 7 == 0 && h == 0) (.dpbOldest (f.getLsbD 0))
  | 0x45#8 => checked "DPB_NEIGH" (f == 0 && h == 0) (.dpbNeigh w1)
  | 0x50#8 => checked "RPL_UPDATE" (flagsReservedClear f && frameNumReservedClear w2) (.rplUpdate f h w1 (frameNumOf w2))
  | 0x51#8 => checked "RPL_INIT" (flagsReservedClear f && h == 0) (.rplInit f)
  | 0x52#8 => checked "RPL_READ" (f.extractLsb' 2 6 == 0) (.rplRead (f.extractLsb' 0 2) h)
  | 0x60#8 => checked "ROP_ENQ" (f.extractLsb' 1 7 == 0) (.ropEnq (f.getLsbD 0) h)
  | 0x61#8 => checked "ROP_SUBMIT" (f == 0 && h == 0) .ropSubmit
  | 0x62#8 => checked "OUTQ_PUSH" (flagsReservedClear f && frameNumReservedClear w2) (.outqPush f h w1 (frameNumOf w2) w3)
  | 0x63#8 => checked "OUTQ_PEEK" (f == 0 && h == 0) .outqPeek
  | 0x64#8 => checked "OUTQ_POP" (f == 0 && h == 0) .outqPop
  | 0x65#8 => checked "OUTQ_WAIT" (f == 0 && h == 0) .outqWait
  | _ => .error (.unassigned op)

/-- The command in the packet at the head of `ws`; words after that packet are not looked at. -/
def decode (ws : List Word) : Except DecodeError Instr :=
  match ws with
  | [] => .error .incomplete
  | w0 :: ps =>
    if ps.length + 1 < packetLen (opOf w0) then .error .incomplete
    else decodeFields (opOf w0) (fOf w0) (hOf w0) (ps.getD 0 0) (ps.getD 1 0) (ps.getD 2 0)

/-- Splits a port's words into the first whole packet and the rest; nothing while the packet is incomplete (R81). -/
def takePacket (ws : List Word) : Option (List Word × List Word) :=
  match ws with
  | [] => none
  | w0 :: _ =>
    if ws.length < packetLen (opOf w0) then none
    else some (ws.take (packetLen (opOf w0)), ws.drop (packetLen (opOf w0)))

/-- A port's words once it is idle (70_reset_and_hazards R300): a packet partly received is dropped. A whole packet in front is
none, and stays: of two ports with a complete packet either may execute first (60_exceptions R281; log 5). -/
def dropPartial (ws : List Word) : List Word := if takePacket ws = none then [] else ws

/-- The packet whose bits are `w`, numbered as `spec/opcode_table.json` numbers them (bit 0 is the least significant bit of
word 0, word `k` is bits `32k+31 .. 32k`), every bit from `nbits` on being 0. -/
def packetOfBits (nbits w : Nat) : List Word :=
  let v := w % 2 ^ nbits
  let w0 := BitVec.ofNat 32 v
  [w0, BitVec.ofNat 32 (v / 2 ^ 32), BitVec.ofNat 32 (v / 2 ^ 64), BitVec.ofNat 32 (v / 2 ^ 96)].take (packetLen (opOf w0))

/-- What the decoder reads from a table row's bits; nothing where it refuses. -/
def decodeTableWord (nbits w : Nat) : Option Instr :=
  match decode (packetOfBits nbits w) with
  | .ok i => some i
  | .error _ => none

/-! ### Encoding -/

/-- A one-bit operand in `f[0]`, `f[7:1]` being 0 (R83). -/
def bitOperand (b : Bool) : Byte := if b then 1#8 else 0#8

/-- A `frame_num` word (R83). -/
def frameNumWord (n : Half) : Word := 0#16 ++ n

/-- The packet of a command, from the map of R86 and the operand fields of R82 and R83. -/
def encode : Instr → List Word
  | .nop => [word0 0x00 0 0]
  | .sreset => [word0 0x01 0 0]
  | .csrr addr => [word0 0x02 0 addr]
  | .csrw addr value => [word0 0x03 0 addr, value]
  | .bswClear => [word0 0x10 0 0]
  | .putBits width value => [word0 0x11 width 0, value]
  | .putUe value => [word0 0x12 0 0, value]
  | .putSe value => [word0 0x13 0 0, value]
  | .align fill => [word0 0x14 (bitOperand fill) 0]
  | .nalHdr refIdc unitType => [word0 0x15 (0#1 ++ refIdc ++ unitType) 0]
  | .rbspTrail => [word0 0x16 0 0]
  | .emitRaw limit => [word0 0x17 0 limit]
  | .emitEpb limit => [word0 0x18 0 limit]
  | .bsrClear => [word0 0x20 0 0]
  | .bsrPush byte => [word0 0x21 byte 0]
  | .bsrLoad src => [word0 0x22 (bitOperand src) 0]
  | .bsrUnesc => [word0 0x23 0 0]
  | .getBits width => [word0 0x24 width 0]
  | .getUe => [word0 0x25 0 0]
  | .getSe => [word0 0x26 0 0]
  | .dpbInit cap => [word0 0x40 cap 0]
  | .dpbAdd flags surf poc frameNum => [word0 0x41 flags surf, poc, frameNumWord frameNum]
  | .dpbBump => [word0 0x42 0 0]
  | .dpbFlush => [word0 0x43 0 0]
  | .dpbOldest want => [word0 0x44 (bitOperand want) 0]
  | .dpbNeigh poc => [word0 0x45 0 0, poc]
  | .rplUpdate flags surf poc frameNum => [word0 0x50 flags surf, poc, frameNumWord frameNum]
  | .rplInit flags => [word0 0x51 flags 0]
  | .rplRead which index => [word0 0x52 (0#6 ++ which) index]
  | .ropEnq force surf => [word0 0x60 (bitOperand force) surf]
  | .ropSubmit => [word0 0x61 0 0]
  | .outqPush flags surf poc frameNum buf => [word0 0x62 flags surf, poc, frameNumWord frameNum, buf]
  | .outqPeek => [word0 0x63 0 0]
  | .outqPop => [word0 0x64 0 0]
  | .outqWait => [word0 0x65 0 0]

/-! ### The opcode table as data (R86, `spec/opcode_table.json`) -/

/-- One row: the bits of word 0 that the row fixes, and the packet length. -/
structure OpRow where
  mnemonic : String
  /-- The fixed bits' values. -/
  pattern : Word
  /-- Which bits of word 0 are fixed: `op` and every must-be-zero bit. -/
  mask : Word
  words : Nat
deriving DecidableEq, Repr

/-- Rows of the SYS and BSW units. -/
def sysAndWriterRows : List OpRow :=
  [⟨"NOP", 0x00000000#32, 0xFFFFFFFF#32, 1⟩, ⟨"SRESET", 0x01000000#32, 0xFFFFFFFF#32, 1⟩,
   ⟨"CSRR", 0x02000000#32, 0xFFFF0000#32, 1⟩, ⟨"CSRW", 0x03000000#32, 0xFFFF0000#32, 2⟩,
   ⟨"BSW_CLEAR", 0x10000000#32, 0xFFFFFFFF#32, 1⟩, ⟨"PUT_BITS", 0x11000000#32, 0xFF00FFFF#32, 2⟩,
   ⟨"PUT_UE", 0x12000000#32, 0xFFFFFFFF#32, 2⟩, ⟨"PUT_SE", 0x13000000#32, 0xFFFFFFFF#32, 2⟩,
   ⟨"ALIGN", 0x14000000#32, 0xFFFEFFFF#32, 1⟩, ⟨"NAL_HDR", 0x15000000#32, 0xFF80FFFF#32, 1⟩,
   ⟨"RBSP_TRAIL", 0x16000000#32, 0xFFFFFFFF#32, 1⟩, ⟨"EMIT_RAW", 0x17000000#32, 0xFFFF0000#32, 1⟩,
   ⟨"EMIT_EPB", 0x18000000#32, 0xFFFF0000#32, 1⟩]

/-- Rows of the BSR unit. -/
def readerRows : List OpRow :=
  [⟨"BSR_CLEAR", 0x20000000#32, 0xFFFFFFFF#32, 1⟩, ⟨"BSR_PUSH", 0x21000000#32, 0xFF00FFFF#32, 1⟩,
   ⟨"BSR_LOAD", 0x22000000#32, 0xFFFEFFFF#32, 1⟩, ⟨"BSR_UNESC", 0x23000000#32, 0xFFFFFFFF#32, 1⟩,
   ⟨"GET_BITS", 0x24000000#32, 0xFF00FFFF#32, 1⟩, ⟨"GET_UE", 0x25000000#32, 0xFFFFFFFF#32, 1⟩,
   ⟨"GET_SE", 0x26000000#32, 0xFFFFFFFF#32, 1⟩]

/-- Rows of the DPB and RPL units. -/
def pictureRows : List OpRow :=
  [⟨"DPB_INIT", 0x40000000#32, 0xFF00FFFF#32, 1⟩, ⟨"DPB_ADD", 0x41000000#32, 0xFFC00000#32, 3⟩,
   ⟨"DPB_BUMP", 0x42000000#32, 0xFFFFFFFF#32, 1⟩, ⟨"DPB_FLUSH", 0x43000000#32, 0xFFFFFFFF#32, 1⟩,
   ⟨"DPB_OLDEST", 0x44000000#32, 0xFFFEFFFF#32, 1⟩, ⟨"DPB_NEIGH", 0x45000000#32, 0xFFFFFFFF#32, 2⟩,
   ⟨"RPL_UPDATE", 0x50000000#32, 0xFFC00000#32, 3⟩, ⟨"RPL_INIT", 0x51000000#32, 0xFFC0FFFF#32, 1⟩,
   ⟨"RPL_READ", 0x52000000#32, 0xFFFC0000#32, 1⟩]

/-- Rows of the ROP unit. -/
def reorderRows : List OpRow :=
  [⟨"ROP_ENQ", 0x60000000#32, 0xFFFE0000#32, 1⟩, ⟨"ROP_SUBMIT", 0x61000000#32, 0xFFFFFFFF#32, 1⟩,
   ⟨"OUTQ_PUSH", 0x62000000#32, 0xFFC00000#32, 4⟩, ⟨"OUTQ_PEEK", 0x63000000#32, 0xFFFFFFFF#32, 1⟩,
   ⟨"OUTQ_POP", 0x64000000#32, 0xFFFFFFFF#32, 1⟩, ⟨"OUTQ_WAIT", 0x65000000#32, 0xFFFFFFFF#32, 1⟩]

/-- The whole table, in its order. -/
def opcodeTable : List OpRow := sysAndWriterRows ++ readerRows ++ pictureRows ++ reorderRows

/-- Word 0 is one of this row. -/
def OpRow.fits (r : OpRow) (w0 : Word) : Bool := (w0 &&& r.mask) == r.pattern

end Sys2Proof
end

