-- ==== Sys2Proof/Machine/Sys.lean ====
section
/-! DEFINITION. The system commands (45_system). -/

namespace Sys2Proof.Machine

/-- `NOP` (R235), on both ports. -/
def execNop (s : State) : Host.Outcome State Fault Refusal :=
  .next (s.done .stOk)

/-- Every state item of 10_state at its reset value, and both ports idle (R236, 70_reset_and_hazards R300). The two output logs
are kept (R301); the parameters, the responses the hosts have received, and the model's own fields are no state items. -/
def resetItems (s : State) : State :=
  { State.resetWith s.cfg with
    picout := s.picout, byteout := s.byteout
    inP := dropPartial s.inP, inC := dropPartial s.inC, respP := s.respP, respC := s.respC
    port := s.port, grants := s.grants, grantCount := s.grantCount }

/-- The end of a held `OUTQ_WAIT` by an `SRESET`: `ST_NO_DATA` on port C (R236, 44_reorder_output R222, log 21). -/
def cancelWait (held : Bool) (s : State) : State :=
  if held then s.respond .C ⟨.stNoData, 0, 0, 0, 0⟩ else s

/-- `SRESET` (R236). -/
def execSreset (s : State) : Host.Outcome State Fault Refusal :=
  .next (onProducer s ((cancelWait s.cWait (resetItems s)).done .stOk))

/-- `CSRR addr` (R237), on both ports. -/
def execCsrr (addr : Half) (s : State) : Host.Outcome State Fault Refusal :=
  .next
    (match csrAt addr with
     | none => s.fail .eInvalidParam
     | some c => s.done .stOk (csrValue c s))

/-- The end of a `CSRW` that wrote register `c`: the value a `CSRR` would now return (R238). -/
def csrWritten (c : Csr) (s : State) : State := s.done .stOk (csrValue c s)

/-- The case list of R238, for a register of the map. -/
def writeCsr (c : Csr) (value : Word) (s : State) : State :=
  match c with
  | .rplMaxref =>
    if value.toNat < 1 ∨ s.cfg.rplSlots < value.toNat then s.fail .eInvalidParam
    else if value.toNat < s.refset.length then s.fail .eBusy
    else csrWritten c { s with maxRef := value.toNat }
  | .rplMaxl0 =>
    if s.cfg.rplSlots < value.toNat then s.fail .eInvalidParam else csrWritten c { s with maxL0 := value.toNat }
  | .rplMaxl1 =>
    if s.cfg.rplSlots < value.toNat then s.fail .eInvalidParam else csrWritten c { s with maxL1 := value.toNat }
  | .ropKeyper => csrWritten c { s with keyPeriod := value }
  | .ropIntraper => csrWritten c { s with intraPeriod := value }
  | .ropNumb => if value ≠ 0#32 then s.fail .eUnsupported else csrWritten c s
  | _ => s.fail .eInvalidParam

/-- `CSRW addr, value` (R238). -/
def execCsrw (addr : Half) (value : Word) (s : State) : Host.Outcome State Fault Refusal :=
  .next (onProducer s
    (match csrAt addr with
     | none => s.fail .eInvalidParam
     | some c => writeCsr c value s))

end Sys2Proof.Machine
end

