-- ==== Sys2Proof/Machine/Writer.lean ====
section
/-! DEFINITION. The bitstream writer's commands (40_bitstream_writer). -/

namespace Sys2Proof.Machine

/-- The common end of the five commands that write a field of `n` bits with value `v`: `E_SEALED` (R111), then
`Append(n, v)` with its `E_NO_SPACE` (R112), then `ST_OK(r0 = n, r1 = nbits)`. -/
def putField (n v : Nat) (s : State) : State :=
  if s.sealed then s.fail .eSealed
  else if 8 * s.cfg.bswCapBytes < s.nbits + n then s.fail .eNoSpace
  else { s with raw := bitWrite s.raw s.nbits n v, nbits := s.nbits + n }.done .stOk (u32 n) (u32 (s.nbits + n))

/-- The Exp-Golomb code of the unsigned value `k`, as one field (R115). -/
def putCode (k : Nat) (s : State) : State := putField (ueWidth (k + 1)) (k + 1) s

/-- `BSW_CLEAR` (R113). -/
def execBswClear (s : State) : Host.Outcome State Fault Refusal :=
  .next (onProducer s ({ s with raw := [], nbits := 0, sealed := false, emu := [], emuLen := 0 }.done .stOk))

/-- `PUT_BITS width, value` (R114). -/
def execPutBits (width : Byte) (value : Word) (s : State) : Host.Outcome State Fault Refusal :=
  .next (onProducer s
    (if Config.valueWidth < width.toNat then s.fail .eInvalidParam
     else if width.toNat < Config.valueWidth ∧ 2 ^ width.toNat ≤ value.toNat then s.fail .eInvalidParam
     else putField width.toNat value.toNat s))

/-- `PUT_UE value` (R115). -/
def execPutUe (value : Word) (s : State) : Host.Outcome State Fault Refusal :=
  .next (onProducer s
    (if value = 0xFFFFFFFF#32 then s.fail .eEgRange
     else putCode value.toNat s))

/-- `PUT_SE value` (R116). -/
def execPutSe (value : Word) (s : State) : Host.Outcome State Fault Refusal :=
  .next (onProducer s
    (if value.toInt = -2 ^ 31 then s.fail .eEgRange
     else putCode (seToUe value.toInt) s))

/-- `ALIGN fill` (R117). -/
def execAlign (fill : Bool) (s : State) : Host.Outcome State Fault Refusal :=
  .next (onProducer s
    (let n := (8 - s.nbits % 8) % 8
     putField n (if fill then 2 ^ n - 1 else 0) s))

/-- `NAL_HDR refIdc, unitType` (R118). -/
def execNalHdr (refIdc : BitVec 2) (unitType : BitVec 5) (s : State) : Host.Outcome State Fault Refusal :=
  .next (onProducer s (putField (Config.nalZeroBits + 7) (refIdc.toNat * 2 ^ 5 + unitType.toNat) s))

/-- `RBSP_TRAIL` (R119). -/
def execRbspTrail (s : State) : Host.Outcome State Fault Refusal :=
  .next (onProducer s
    (let n := 8 - s.nbits % 8
     putField n (2 ^ (n - 1)) s))

/-- `EMIT_RAW limit` (R120). -/
def execEmitRaw (limit : Half) (s : State) : Host.Outcome State Fault Refusal :=
  .next (onProducer s
    (if s.nbits % 8 ≠ 0 then s.fail .eUnaligned
     else if limit.toNat < s.nbits / 8 then s.fail .eBufSmall
     else (s.emit .raw (Memory.bytes s.raw (s.nbits / 8))).done .stOk (u32 (s.nbits / 8))))

/-- The writer with its emulation buffer derived: `emu` holds `e`, and the writer is sealed (R121, log 9). -/
def sealWith (e : List Byte) (s : State) : State :=
  { s with emu := Memory.ofBytes e, emuLen := e.length, sealed := true }

/-- Sends the burst `e` on `BYTEOUT` and ends with its size (R121). -/
def sendEpb (e : List Byte) (s : State) : State :=
  (s.emit .epb e).done .stOk (u32 e.length)

/-- `EMIT_EPB limit` (R121). -/
def execEmitEpb (limit : Half) (s : State) : Host.Outcome State Fault Refusal :=
  .next (onProducer s
    (if s.sealed then
       let e := Memory.bytes s.emu s.emuLen
       if limit.toNat < e.length then s.fail .eBufSmall else sendEpb e s
     else if s.nbits % 8 ≠ 0 then s.fail .eUnaligned
     else
       let e := epb (Memory.bytes s.raw (s.nbits / 8))
       if limit.toNat < e.length then s.fail .eBufSmall else sendEpb e (sealWith e s)))

end Sys2Proof.Machine
end

