-- ==== Sys2Proof/Machine/Dispatch.lean ====
section
/-! DEFINITION. One arm per command: its meaning. -/

namespace Sys2Proof.Machine

def exec (i : Instr) (s : State) : Host.Outcome State Fault Refusal :=
  match i with
  | .nop => Sys2Proof.Machine.execNop s
  | .sreset => Sys2Proof.Machine.execSreset s
  | .csrr addr => Sys2Proof.Machine.execCsrr addr s
  | .csrw addr value => Sys2Proof.Machine.execCsrw addr value s
  | .bswClear => Sys2Proof.Machine.execBswClear s
  | .putBits width value => Sys2Proof.Machine.execPutBits width value s
  | .putUe value => Sys2Proof.Machine.execPutUe value s
  | .putSe value => Sys2Proof.Machine.execPutSe value s
  | .align fill => Sys2Proof.Machine.execAlign fill s
  | .nalHdr refIdc unitType => Sys2Proof.Machine.execNalHdr refIdc unitType s
  | .rbspTrail => Sys2Proof.Machine.execRbspTrail s
  | .emitRaw limit => Sys2Proof.Machine.execEmitRaw limit s
  | .emitEpb limit => Sys2Proof.Machine.execEmitEpb limit s
  | .bsrClear => Sys2Proof.Machine.execBsrClear s
  | .bsrPush byte => Sys2Proof.Machine.execBsrPush byte s
  | .bsrLoad src => Sys2Proof.Machine.execBsrLoad src s
  | .bsrUnesc => Sys2Proof.Machine.execBsrUnesc s
  | .getBits width => Sys2Proof.Machine.execGetBits width s
  | .getUe => Sys2Proof.Machine.execGetUe s
  | .getSe => Sys2Proof.Machine.execGetSe s
  | .dpbInit cap => Sys2Proof.Machine.execDpbInit cap s
  | .dpbAdd flags surf poc frameNum => Sys2Proof.Machine.execDpbAdd flags surf poc frameNum s
  | .dpbBump => Sys2Proof.Machine.execDpbBump s
  | .dpbFlush => Sys2Proof.Machine.execDpbFlush s
  | .dpbOldest want => Sys2Proof.Machine.execDpbOldest want s
  | .dpbNeigh poc => Sys2Proof.Machine.execDpbNeigh poc s
  | .rplUpdate flags surf poc frameNum => Sys2Proof.Machine.execRplUpdate flags surf poc frameNum s
  | .rplInit flags => Sys2Proof.Machine.execRplInit flags s
  | .rplRead which index => Sys2Proof.Machine.execRplRead which index s
  | .ropEnq force surf => Sys2Proof.Machine.execRopEnq force surf s
  | .ropSubmit => Sys2Proof.Machine.execRopSubmit s
  | .outqPush flags surf poc frameNum buf => Sys2Proof.Machine.execOutqPush flags surf poc frameNum buf s
  | .outqPeek => Sys2Proof.Machine.execOutqPeek s
  | .outqPop => Sys2Proof.Machine.execOutqPop s
  | .outqWait => Sys2Proof.Machine.execOutqWait s

end Sys2Proof.Machine
end

