-- ==== Sys2Proof/Machine/Fetch.lean ====
section
/-! DEFINITION. Which port moves next, and with what: the arbiter's decisions (20_memory R68, 70_reset_and_hazards R325), the
words a port has been presented (30_encoding R81), a held wait (44_reorder_output R222). -/

namespace Sys2Proof.Machine

/-- The decisions of the arbiter's `n`-th round, next first: port P any finite number of times, then port C at least once, then
port P. Every order in which each port moves again and again is a sequence of rounds, and no other is (log 3): a held
`OUTQ_WAIT` comes to its end (20_memory R71), and port P runs freely meanwhile (44_reorder_output R222). -/
def arbiterRound (n : Nat) : List Port :=
  List.replicate (Config.arbiter n).1 .P ++ .C :: List.replicate (Config.arbiter n).2 .C ++ [.P]

/-- The arbiter's decisions from here on, next first: those already made, or the next round of them. -/
def decisions (s : State) : List Port := if s.grants = [] then arbiterRound s.grantCount else s.grants

/-- The port the arbiter lets move now. A list of decisions is never empty (`decisions_ne_nil`). -/
def granted (s : State) : Port := (decisions s).headD .P

/-- That decision is used up. -/
def takeGrant (s : State) : State :=
  { s with
    grants := (decisions s).tail
    grantCount := if s.grants = [] then s.grantCount + 1 else s.grantCount }

/-- The words presented on a port and not yet executed. -/
def State.inbox (s : State) (p : Port) : List Word :=
  match p with
  | .P => s.inP
  | .C => s.inC

/-- The state with other words waiting on a port. -/
def State.setInbox (s : State) (p : Port) (ws : List Word) : State :=
  { s with
    inP := if p = .P then ws else s.inP
    inC := if p = .C then ws else s.inC }

/-- Port `p` accepts no packet, because its previous command has not ended: port C while an `OUTQ_WAIT` is held
(60_exceptions R285, 44_reorder_output R222). -/
def holds (s : State) (p : Port) : Bool :=
  match p with
  | .P => false
  | .C => s.cWait

/-- What a granted port does. -/
inductive Move where
  /-- Its held `OUTQ_WAIT` ends, if it can. -/
  | wait
  /-- It has no whole packet: nothing happens (R81). -/
  | idle
  /-- It executes this packet; `rest` stays presented. -/
  | run (packet rest : List Word)
deriving DecidableEq, Repr

/-- The move of port `p`. -/
def moveOf (s : State) (p : Port) : Move :=
  if holds s p then .wait
  else
    match takePacket (s.inbox p) with
    | none => .idle
    | some (packet, rest) => .run packet rest

/-- Port `p` starts a packet: the words after it stay presented, and the meaning that runs next sees the port. -/
def startPacket (s : State) (p : Port) (rest : List Word) : State :=
  { s.setInbox p rest with port := p }

/-- A packet the decoder rejects (30_encoding R87, R88): `E_ILLEGAL`, whatever the port (60_exceptions R280, R286). -/
def rejectPacket (s : State) : State := s.fail .eIllegal

/-- A port on which the command of word 0 can run: C for `OUTQ_WAIT`, P for every other (60_exceptions R286). -/
def portFor (w0 : Word) : Port := if opOf w0 = 0x65#8 then .C else .P

/-- The state in which port `p` is granted next and finds `packet` first among its words, not held. -/
def present (s : State) (p : Port) (packet : List Word) : State :=
  { s.setInbox p (packet ++ s.inbox p) with
    grants := p :: s.grants
    cWait := if p = .C then false else s.cWait }

end Sys2Proof.Machine
end

