-- ==== Sys2Proof/Machine/Step.lean ====
section
/-! DEFINITION. One step: one decision of the arbiter, and what the port it names does with it. -/

namespace Sys2Proof.Machine

/-- A whole packet executes: its command's meaning, or `E_ILLEGAL` where the decoder rejects it. -/
def runPacket (packet : List Word) (s : State) : Host.Outcome State Fault Refusal :=
  match decode packet with
  | .ok i => exec i s
  | .error _ => .next (rejectPacket s)

/-- One step. A granted port that has nothing to do leaves all but the decision as it was (log 6). -/
def step (s : State) : Host.Outcome State Fault Refusal :=
  match moveOf s (granted s) with
  | .wait => .next (endWait (takeGrant s))
  | .idle => .next (takeGrant s)
  | .run packet rest => runPacket packet (startPacket (takeGrant s) (granted s) rest)

/-- `s` with the command whose bits are `w` presented so that the very next step executes it (log 15). -/
def State.withFetchWord (s : State) (nbits w : Nat) : State :=
  let packet := packetOfBits nbits w
  present s (portFor (packet.headD 0)) packet

end Sys2Proof.Machine
end

