-- ==== Sys2Proof/Safety.lean ====
section
/-! DEFINITION. The words the statements are written in: how a command ends, what writing a field means bit by bit, the DPB's
choices and loops as relations, which command may write what, and the invariants of 10_state R37. Nothing here is used by
the machine. -/

namespace Sys2Proof.Machine

/-! ### The opcode map (30_encoding R86) -/

/-- A command's mnemonic in the opcode table. -/
def mnemonicOf : Instr → String
  | .nop => "NOP"
  | .sreset => "SRESET"
  | .csrr _ => "CSRR"
  | .csrw _ _ => "CSRW"
  | .bswClear => "BSW_CLEAR"
  | .putBits _ _ => "PUT_BITS"
  | .putUe _ => "PUT_UE"
  | .putSe _ => "PUT_SE"
  | .align _ => "ALIGN"
  | .nalHdr _ _ => "NAL_HDR"
  | .rbspTrail => "RBSP_TRAIL"
  | .emitRaw _ => "EMIT_RAW"
  | .emitEpb _ => "EMIT_EPB"
  | .bsrClear => "BSR_CLEAR"
  | .bsrPush _ => "BSR_PUSH"
  | .bsrLoad _ => "BSR_LOAD"
  | .bsrUnesc => "BSR_UNESC"
  | .getBits _ => "GET_BITS"
  | .getUe => "GET_UE"
  | .getSe => "GET_SE"
  | .dpbInit _ => "DPB_INIT"
  | .dpbAdd _ _ _ _ => "DPB_ADD"
  | .dpbBump => "DPB_BUMP"
  | .dpbFlush => "DPB_FLUSH"
  | .dpbOldest _ => "DPB_OLDEST"
  | .dpbNeigh _ => "DPB_NEIGH"
  | .rplUpdate _ _ _ _ => "RPL_UPDATE"
  | .rplInit _ => "RPL_INIT"
  | .rplRead _ _ => "RPL_READ"
  | .ropEnq _ _ => "ROP_ENQ"
  | .ropSubmit => "ROP_SUBMIT"
  | .outqPush _ _ _ _ _ => "OUTQ_PUSH"
  | .outqPeek => "OUTQ_PEEK"
  | .outqPop => "OUTQ_POP"
  | .outqWait => "OUTQ_WAIT"

/-- The opcodes of the map; every other is illegal (R88). -/
def assignedOpcodes : List Byte :=
  [0x00#8, 0x01#8, 0x02#8, 0x03#8, 0x10#8, 0x11#8, 0x12#8, 0x13#8, 0x14#8, 0x15#8, 0x16#8, 0x17#8, 0x18#8, 0x20#8, 0x21#8, 0x22#8, 0x23#8, 0x24#8, 0x25#8, 0x26#8] ++
  [0x40#8, 0x41#8, 0x42#8, 0x43#8, 0x44#8, 0x45#8, 0x50#8, 0x51#8, 0x52#8, 0x60#8, 0x61#8, 0x62#8, 0x63#8, 0x64#8, 0x65#8]

/-- The opcodes whose third word is a `frame_num` word, with bits 31:16 reserved (R83). -/
def frameNumOpcodes : List Byte := [0x41#8, 0x50#8, 0x62#8]

/-! ### How a command ends (30_encoding R84, 60_exceptions R275) -/

/-- The responses a port has received, oldest first. -/
def State.responses (s : State) (p : Port) : List Response :=
  match p with
  | .P => s.respP
  | .C => s.respC

/-- `s` with one more response on the port that issued the command, and nothing else changed. Result words not given are
0. -/
def answered (s : State) (st : Status) (r0 r1 r2 r3 : Word := 0#32) : State :=
  match s.port with
  | .P => { s with respP := s.respP ++ [⟨st, r0, r1, r2, r3⟩] }
  | .C => { s with respC := s.respC ++ [⟨st, r0, r1, r2, r3⟩] }

/-- What a failure with the status numbered `0x10 + k` leaves: bit `k` of `errlog` set, four zero result words. -/
def failed (s : State) (st : Status) : State :=
  { answered s st with errlog := s.errlog ||| BitVec.twoPow 32 (st.code.toNat - 0x10) }

/-- `t` is `s` with one response more on the issuing port, `r`. -/
def AnswersWith (s t : State) (r : Response) : Prop :=
  t.responses s.port = s.responses s.port ++ [r]

/-! ### Runs -/

/-- The state `k` steps on; a step that stopped would leave it as it is, and none does (`EveryStepHasANextState`). -/
def after : Nat → State → State
  | 0, s => s
  | k + 1, s =>
    match step s with
    | .next t => after k t
    | _ => s

/-- From `s` on, port `p` moves next in the step that `k` steps lead to. -/
def MovesAfter (s : State) (p : Port) (k : Nat) : Prop :=
  granted (after k s) = p ∧ ∀ j, j < k → granted (after j s) ≠ p

/-! ### Which port may issue what -/

/-- The ports that may issue a command (60_exceptions R286). -/
def permitted (i : Instr) (p : Port) : Bool :=
  match i with
  | .nop | .csrr _ | .outqPeek | .outqPop => true
  | .outqWait => p == .C
  | .sreset | .csrw _ _ => p == .P
  | .bswClear | .putBits _ _ | .putUe _ | .putSe _ | .align _ | .nalHdr _ _ | .rbspTrail | .emitRaw _ | .emitEpb _ => p == .P
  | .bsrClear | .bsrPush _ | .bsrLoad _ | .bsrUnesc | .getBits _ | .getUe | .getSe => p == .P
  | .dpbInit _ | .dpbAdd _ _ _ _ | .dpbBump | .dpbFlush | .dpbOldest _ | .dpbNeigh _ => p == .P
  | .rplUpdate _ _ _ _ | .rplInit _ | .rplRead _ _ => p == .P
  | .ropEnq _ _ | .ropSubmit | .outqPush _ _ _ _ _ => p == .P

/-- The packet of a command that only port P may issue, and what its issue on port C does. -/
def ProducerCommand (i : Instr) (packet : List Word) : Prop :=
  encode i = packet ∧ (i.wf = true → ∀ s : State, s.port = .C → exec i s = .next (failed s .ePort))

/-- The statuses besides `ST_OK` and `E_PORT` that the table of 60_exceptions R272 lists for a command. `ST_NO_DATA` of
`OUTQ_WAIT` is not among them: it is given by the `SRESET` that ends the wait. -/
def otherStatuses : Instr → List Status
  | .csrr _ => [.eInvalidParam]
  | .csrw _ _ => [.eInvalidParam, .eUnsupported, .eBusy]
  | .putBits _ _ => [.eInvalidParam, .eSealed, .eNoSpace]
  | .putUe _ | .putSe _ => [.eEgRange, .eSealed, .eNoSpace]
  | .align _ => [.eSealed]
  | .nalHdr _ _ | .rbspTrail => [.eSealed, .eNoSpace]
  | .emitRaw _ | .emitEpb _ => [.eUnaligned, .eBufSmall]
  | .bsrPush _ => [.eNoSpace]
  | .bsrLoad _ => [.eUnaligned, .eInvalidParam, .eNoSpace]
  | .bsrUnesc => [.eInvalidParam]
  | .getBits _ => [.eInvalidParam, .eUnderrun]
  | .getUe | .getSe => [.eEgRange, .eUnderrun]
  | .dpbInit _ => [.eInvalidParam]
  | .dpbAdd _ _ _ _ => [.eInvalidParam, .eNotInit, .eDpbExhausted]
  | .dpbBump => [.eNotInit, .stFalse]
  | .dpbFlush | .dpbOldest _ | .dpbNeigh _ => [.eNotInit]
  | .rplUpdate _ _ _ _ => [.eInvalidParam]
  | .rplInit _ => [.eInvalidParam, .eUnsupported]
  | .rplRead _ _ => [.eInvalidParam]
  | .ropEnq _ _ => [.eFull]
  | .ropSubmit => [.stNoData]
  | .outqPush _ _ _ _ _ => [.eInvalidParam, .eFull]
  | .outqPeek | .outqPop => [.stNoData]
  | .nop | .sreset | .bswClear | .bsrClear | .outqWait => []

/-! ### Bits and fields of a buffer (20_memory R62) -/

/-- `m'` is `m` with the low `n` bits of `v` at bit positions `p .. p + n - 1`, most significant first: those bits, no
other bit, and so no byte that the field does not touch; the form stays canonical. -/
def FieldWritten (m m' : Memory) (p n v : Nat) : Prop :=
  (∀ q, bitAt m' q = if p ≤ q ∧ q < p + n then v.testBit (p + n - 1 - q) else bitAt m q) ∧
  (∀ a, 8 * a + 8 ≤ p ∨ p + n ≤ 8 * a → Memory.read m' a = Memory.read m a) ∧
  Memory.wf m'

/-- `n` zero bits and then a one stand at bit position `p`: the start of a code word (41_bitstream_reader R146). -/
def CodePrefix (m : Memory) (p n : Nat) : Prop :=
  (∀ k, k < n → bitAt m (p + k) = false) ∧ bitAt m (p + n) = true

/-- `w` holds the `n` bits at position `p`, the first most significant, zero-extended. -/
def ReadsAs (m : Memory) (p n : Nat) (w : Word) : Prop :=
  ∀ j, j < 32 → w.getLsbD j = if j < n then bitAt m (p + n - 1 - j) else false

/-- What a command that appends the field of `n` bits with value `v` does on port P once its operands are legal
(40_bitstream_writer R111, R112): `E_SEALED`, else `E_NO_SPACE`, else the field is written at `nbits` and nothing else
changes but `nbits`. -/
def AppendsField (i : Instr) (s : State) (n v : Nat) : Prop :=
  (s.sealed = true → exec i s = .next (failed s .eSealed)) ∧
  (s.sealed = false → 8 * s.cfg.bswCapBytes < s.nbits + n → exec i s = .next (failed s .eNoSpace)) ∧
  (s.sealed = false → s.nbits + n ≤ 8 * s.cfg.bswCapBytes →
    ∃ m, FieldWritten s.raw m s.nbits n v ∧
      exec i s = .next (answered { s with raw := m, nbits := s.nbits + n } .stOk (u32 n) (u32 (s.nbits + n))))

/-- `m` holds the bytes `bs` from index 0 on, and elsewhere what `old` gives; the form is canonical. -/
def HoldsBytes (m : Memory) (bs : List Byte) (old : Nat → Byte) : Prop :=
  (∀ i, Memory.read m i = if i < bs.length then bs.getD i 0#8 else old i) ∧ Memory.wf m

/-- One turn of the loop of `EPB` (R122): output so far, zero count, next byte. -/
def epbTurn (acc : List Byte × Nat) (b : Byte) : List Byte × Nat :=
  let acc := if acc.2 = 2 ∧ b.toNat ≤ 3 then (acc.1 ++ [0x03#8], 0) else acc
  (acc.1 ++ [b], if b = 0x00#8 then acc.2 + 1 else 0)

/-- One turn of the loop of `UNESC` (41_bitstream_reader R148). -/
def unescTurn (acc : List Byte × Nat) (b : Byte) : List Byte × Nat :=
  if acc.2 = 2 ∧ b = 0x03#8 then (acc.1, 0) else (acc.1 ++ [b], if b = 0x00#8 then acc.2 + 1 else 0)

/-! ### The DPB's choices and loops (42_dpb R162 to R168) -/

/-- Pictures not yet output. -/
def pending (l : List Picture) : List Picture := l.filter fun p => !p.out

/-- Slot `i` holds `p`, and `p` is what `Oldest(want)` chooses (R164). -/
def IsOldest (want : Bool) (l : List Picture) (i : Nat) (p : Picture) : Prop :=
  l[i]? = some p ∧ p.out = want ∧
  ∀ (j : Nat) (q : Picture), l[j]? = some q → q.out = want →
    p.poc.toInt ≤ q.poc.toInt ∧ (q.poc.toInt = p.poc.toInt → i ≤ j)

/-- `l'` is `l` with slot `i` removed by `Remove(i)` (R162): one entry fewer, the last one moved into slot `i`. -/
def Removed (l : List Picture) (i : Nat) (l' : List Picture) : Prop :=
  l'.length + 1 = l.length ∧ ∀ j, j < l'.length → l'[j]? = if j = i then l[l.length - 1]? else l[j]?

/-- From index `i` on, the garbage-collection pass (R166) turns `l` into `l'`: a picture that is output and no reference picture
is removed, and the slot moved into its place is examined next. -/
inductive Collects : Nat → List Picture → List Picture → Prop where
  | stop {i : Nat} {l : List Picture} : l.length ≤ i → Collects i l l
  | drop {i : Nat} {l l₁ l' : List Picture} {p : Picture} :
      l[i]? = some p → p.out = true → p.ref = false → Removed l i l₁ → Collects i l₁ l' → Collects i l l'
  | keep {i : Nat} {l l' : List Picture} {p : Picture} :
      l[i]? = some p → (p.out = false ∨ p.ref = true) → Collects (i + 1) l l' → Collects i l l'

/-- One successful `Bump()` (R165): `p` is output, and `l'` is left. -/
def Bumped (l : List Picture) (p : Picture) (l' : List Picture) : Prop :=
  ∃ i q, IsOldest false l i q ∧ p = { q with out := true } ∧
    if q.ref then l' = l.set i p else Removed l i l'

/-- Nothing is left to output: `Bump()` would return false. -/
def AllOutput (l : List Picture) : Prop := ∀ p ∈ l, p.out = true

/-- From slots `l`, bumps made only while `C` holds output `outs` and leave `l'`. -/
inductive BumpsWhile (C : List Picture → Prop) : List Picture → List Picture → List Picture → Prop where
  | stop (l : List Picture) : BumpsWhile C l [] l
  | more {l l₁ l' outs : List Picture} {p : Picture} :
      C l → Bumped l p l₁ → BumpsWhile C l₁ outs l' → BumpsWhile C l (p :: outs) l'

/-- A buffered non-reference picture of smaller `poc` than `inc` (R168). -/
def HasSmallerNonRef (inc : Picture) (l : List Picture) : Prop :=
  ∃ q ∈ l, q.ref = false ∧ q.poc.toInt < inc.poc.toInt

/-- A full buffer can still be freed: it holds a picture that a bump removes. -/
def Freeable (max : Nat) (l : List Picture) : Prop := l.length ≠ max ∨ ∃ p ∈ l, p.ref = false

/-- `p` is the buffered picture nearest below `q`, the lowest slot among equals (R174). -/
def IsPrev (q : Word) (l : List Picture) (p : Picture) : Prop :=
  ∃ i : Nat, l[i]? = some p ∧ p.poc.toInt < q.toInt ∧
    ∀ (j : Nat) (r : Picture), l[j]? = some r → r.poc.toInt < q.toInt →
      r.poc.toInt ≤ p.poc.toInt ∧ (r.poc.toInt = p.poc.toInt → i ≤ j)

/-- `p` is the buffered picture nearest above `q`, the lowest slot among equals (R174). -/
def IsNext (q : Word) (l : List Picture) (p : Picture) : Prop :=
  ∃ i : Nat, l[i]? = some p ∧ q.toInt < p.poc.toInt ∧
    ∀ (j : Nat) (r : Picture), l[j]? = some r → q.toInt < r.poc.toInt →
      p.poc.toInt ≤ r.poc.toInt ∧ (r.poc.toInt = p.poc.toInt → i ≤ j)

/-- The two words a neighbour is reported in (R174): its `poc` and its `PIW`, or two zeros for "none". -/
def NeighbourWords (is : Picture → Prop) (poc w : Word) : Prop :=
  (∃ p, is p ∧ poc = p.poc ∧ w = piw p) ∨ ((∀ p, ¬ is p) ∧ poc = 0#32 ∧ w = 0#32)

/-! ### Control and status registers (10_state R39) -/

/-- The registers of the map: address, and value in a state. -/
def csrView : List (Half × (State → Word)) :=
  [(0x0000#16, fun _ => 0x59424C07#32), (0x0001#16, fun s => s.errlog),
   (0x0010#16, fun s => u32 s.nbits),
   (0x0011#16, fun s => u32 ((if s.sealed then 1 else 0) + (if s.nbits % 8 = 0 then 2 else 0))),
   (0x0012#16, fun s => u32 s.emuLen), (0x0013#16, fun s => u32 s.cfg.bswCapBytes),
   (0x0020#16, fun s => u32 s.rlen), (0x0021#16, fun s => u32 s.rpos),
   (0x0040#16, fun s => u32 s.dpbMax), (0x0041#16, fun s => u32 s.slots.length),
   (0x0042#16, fun s => u32 ((if s.dpbInit ∧ s.slots.length = s.dpbMax then 1 else 0) +
      (if s.dpbMax = 2 then 2 else 0) + (if s.dpbInit then 4 else 0))),
   (0x0050#16, fun s => u32 s.maxRef), (0x0051#16, fun s => u32 s.maxL0), (0x0052#16, fun s => u32 s.maxL1),
   (0x0053#16, fun s => u32 s.refset.length), (0x0054#16, fun s => u32 s.l0.length), (0x0055#16, fun s => u32 s.l1.length)] ++
  [(0x0060#16, fun s => s.keyPeriod), (0x0061#16, fun s => s.intraPeriod), (0x0062#16, fun _ => 0#32),
   (0x0063#16, fun s => u32 (log2mfn s.keyPeriod)),
   (0x0064#16, fun s => if s.ropState = .dumpFrames then 1#32 else 0#32), (0x0065#16, fun s => u32 s.roq.length),
   (0x0066#16, fun s => s.frameIdx), (0x0067#16, fun s => s.frameNumCtr), (0x0068#16, fun s => s.presIdx),
   (0x0069#16, fun s => if s.seenFirst then 1#32 else 0#32), (0x0070#16, fun s => u32 s.outq.length)]

/-- What the registers read right after reset: the last column of R39. -/
def csrAtReset (p : Params) : List (Half × Word) :=
  [(0x0000#16, 0x59424C07#32), (0x0001#16, 0#32), (0x0010#16, 0#32), (0x0011#16, 2#32), (0x0012#16, 0#32), (0x0013#16, u32 p.bswCapBytes),
   (0x0020#16, 0#32), (0x0021#16, 0#32), (0x0040#16, 0#32), (0x0041#16, 0#32), (0x0042#16, 0#32), (0x0050#16, 1#32), (0x0051#16, 1#32), (0x0052#16, 0#32),
   (0x0053#16, 0#32), (0x0054#16, 0#32), (0x0055#16, 0#32), (0x0060#16, 0#32), (0x0061#16, 0#32), (0x0062#16, 0#32), (0x0063#16, 4#32), (0x0064#16, 0#32),
   (0x0065#16, 0#32), (0x0066#16, 0#32), (0x0067#16, 0#32), (0x0068#16, 0#32), (0x0069#16, 0#32), (0x0070#16, 0#32)]

/-! ### Reset (70_reset_and_hazards R300) -/

/-- No packet is partly received: the port's words are none, or begin with a whole packet. -/
def NoPartialPacket (ws : List Word) : Prop := takePacket ws = none → ws = []

/-- Every state item is at the value the table of R300 gives it, and both ports are idle. -/
def AtReset (s : State) : Prop :=
  ((∀ i, Memory.read s.raw i = 0#8) ∧ s.nbits = 0) ∧
  (s.sealed = false ∧ (∀ i, Memory.read s.emu i = 0#8) ∧ s.emuLen = 0) ∧
  ((∀ i, Memory.read s.rbuf i = 0#8) ∧ s.rlen = 0 ∧ s.rpos = 0) ∧
  (s.dpbInit = false ∧ s.dpbMax = 0 ∧ s.slots.length = 0) ∧
  (s.refset.length = 0 ∧ s.l0.length = 0 ∧ s.l1.length = 0) ∧
  (s.maxRef = 1 ∧ s.maxL0 = 1 ∧ s.maxL1 = 0) ∧ (s.keyPeriod = 0#32 ∧ s.intraPeriod = 0#32) ∧
  (s.ropState = .waitFrames ∧ s.roq.length = 0) ∧
  (s.frameIdx = 0#32 ∧ s.frameNumCtr = 0#32 ∧ s.presIdx = 0#32 ∧ s.seenFirst = false) ∧
  (s.outq.length = 0 ∧ s.errlog = 0#32 ∧ s.cWait = false) ∧ NoPartialPacket s.inP ∧ NoPartialPacket s.inC

/-! ### Which command may write what (20_memory R60, and the rules of files 40 to 45) -/

/-- The parts of the state, as the commands write them. -/
inductive Part where
  | raw
  | emu
  | rbuf
  | rpos
  | dpbSize
  | slots
  | refset
  | lists
  | rplMax
  | reorder
  | periods
  | outq
  | wait
  | picout
  | byteout
  | ports
deriving DecidableEq, Repr

/-- `t` agrees with `s` on a part. -/
def sameOn (part : Part) (s t : State) : Prop :=
  match part with
  | .raw => t.raw = s.raw ∧ t.nbits = s.nbits
  | .emu => t.emu = s.emu ∧ t.emuLen = s.emuLen ∧ t.sealed = s.sealed
  | .rbuf => t.rbuf = s.rbuf ∧ t.rlen = s.rlen
  | .rpos => t.rpos = s.rpos
  | .dpbSize => t.dpbInit = s.dpbInit ∧ t.dpbMax = s.dpbMax
  | .slots => t.slots = s.slots
  | .refset => t.refset = s.refset
  | .lists => t.l0 = s.l0 ∧ t.l1 = s.l1
  | .rplMax => t.maxRef = s.maxRef ∧ t.maxL0 = s.maxL0 ∧ t.maxL1 = s.maxL1
  | .reorder =>
    t.ropState = s.ropState ∧ t.roq = s.roq ∧ t.frameIdx = s.frameIdx ∧ t.frameNumCtr = s.frameNumCtr ∧
      t.presIdx = s.presIdx ∧ t.seenFirst = s.seenFirst
  | .periods => t.keyPeriod = s.keyPeriod ∧ t.intraPeriod = s.intraPeriod
  | .outq => t.outq = s.outq
  | .wait => t.cWait = s.cWait
  | .picout => t.picout = s.picout
  | .byteout => t.byteout = s.byteout
  | .ports => t.inP = s.inP ∧ t.inC = s.inC

/-- The parts a command may write, whatever its operands and the state. -/
def mayWrite : Instr → List Part
  | .nop | .csrr _ | .dpbOldest _ | .dpbNeigh _ | .rplRead _ _ | .outqPeek => []
  | .sreset =>
    [.raw, .emu, .rbuf, .rpos, .dpbSize, .slots, .refset, .lists, .rplMax, .reorder, .periods, .outq, .wait, .ports]
  | .csrw _ _ => [.rplMax, .periods]
  | .bswClear => [.raw, .emu]
  | .putBits _ _ | .putUe _ | .putSe _ | .align _ | .nalHdr _ _ | .rbspTrail => [.raw]
  | .emitRaw _ => [.byteout]
  | .emitEpb _ => [.emu, .byteout]
  | .bsrClear | .bsrLoad _ | .bsrUnesc => [.rbuf, .rpos]
  | .bsrPush _ => [.rbuf]
  | .getBits _ | .getUe | .getSe => [.rpos]
  | .dpbInit _ => [.dpbSize, .slots]
  | .dpbAdd _ _ _ _ | .dpbBump | .dpbFlush => [.slots, .picout]
  | .rplUpdate _ _ _ _ => [.refset]
  | .rplInit _ => [.lists]
  | .ropEnq _ _ | .ropSubmit => [.reorder]
  | .outqPush _ _ _ _ _ | .outqPop => [.outq]
  | .outqWait => [.wait]

/-! ### The invariants of 10_state R37, with what the rules of the same file say of each item's values -/

/-- R24, R25, and the writer's lines of R37. -/
structure WriterInv (s : State) : Prop where
  rawWf : Memory.wf s.raw
  emuWf : Memory.wf s.emu
  nbitsLe : s.nbits ≤ 8 * s.cfg.bswCapBytes
  rawZero : ∀ p, s.nbits ≤ p → bitAt s.raw p = false
  emuLenLe : s.emuLen ≤ s.cfg.emuCapBytes
  emuZero : ∀ i, s.emuLen ≤ i → Memory.read s.emu i = 0#8
  unsealed : s.sealed = false → s.emuLen = 0
  isSealed : s.sealed = true →
    s.nbits % 8 = 0 ∧ Memory.bytes s.emu s.emuLen = epb (Memory.bytes s.raw (s.nbits / 8))

/-- R26, and the reader's line of R37. -/
structure ReaderInv (s : State) : Prop where
  rbufWf : Memory.wf s.rbuf
  rlenLe : s.rlen ≤ s.cfg.bsrCapBytes
  rposLe : s.rpos ≤ 8 * s.rlen
  rbufZero : ∀ i, s.rlen ≤ i → Memory.read s.rbuf i = 0#8

/-- R27, and the DPB's lines of R37. The 2-slot policy buffers reference pictures only (42_dpb R170). -/
structure DpbInv (s : State) : Prop where
  uninit : s.dpbInit = false → s.dpbMax = 0
  inited : s.dpbInit = true → 1 ≤ s.dpbMax ∧ s.dpbMax ≤ s.cfg.dpbSlots
  slotsLe : s.slots.length ≤ s.dpbMax
  noGarbage : ∀ p ∈ s.slots, p.ref = false → p.out = false
  twoSlot : s.dpbMax = 2 → ∀ p ∈ s.slots, p.ref = true

/-- R30, R42 to R44, and the RPL's line of R37. List 1 is always empty (43_reflist R194). -/
structure RplInv (s : State) : Prop where
  refsetLe : s.refset.length ≤ s.maxRef
  maxRefPos : 1 ≤ s.maxRef
  maxRefLe : s.maxRef ≤ s.cfg.rplSlots
  maxL0Le : s.maxL0 ≤ s.cfg.rplSlots
  maxL1Le : s.maxL1 ≤ s.cfg.rplSlots
  l0Le : s.l0.length ≤ s.cfg.rplSlots
  l1Nil : s.l1 = []

/-- A picture the reorder pipeline made (44_reorder_output R211, R212). -/
structure Enqueued (s : State) (p : Picture) : Prop where
  ref : p.ref = true
  out : p.out = false
  skip : p.skip = false
  notB : p.type ≠ .B
  pocLt : p.poc.toNat < 2 ^ s.cfg.pocBits
  frameNumLt : p.frameNum.toNat < 2 ^ 10
  idr : p.idr = true → p.type = .I ∧ p.poc = 0#32 ∧ p.frameNum = 0#16

/-- R31, R32, and the ROP's lines of R37. -/
structure RopInv (s : State) : Prop where
  dumping : s.ropState = .dumpFrames ↔ s.roq ≠ []
  roqLe : s.roq.length ≤ s.cfg.roqDepth
  roqMade : ∀ p ∈ s.roq, Enqueued s p
  seen : s.roq ≠ [] → s.seenFirst = true
  frameNumCtrLt : s.frameNumCtr.toNat < 2 ^ 10
  outqLe : s.outq.length ≤ s.cfg.outqDepth
  outqFlags : ∀ e ∈ s.outq, e.eof = true ∧ (e.sync = true ↔ e.pic.type = .I)

/-- Every invariant, with the parameters' constraints (00_scope R7), the bits of `errlog` that are 0 (R33; bit 4, R40), and
`out` in every record of `PICOUT` (R35). -/
structure BlockInv (s : State) : Prop where
  params : s.cfg.Ok
  writer : WriterInv s
  reader : ReaderInv s
  dpb : DpbInv s
  rpl : RplInv s
  rop : RopInv s
  errlog : s.errlog &&& 0xFFFF8010#32 = 0#32
  picout : ∀ p ∈ s.picout, p.out = true

end Sys2Proof.Machine
end

