-- ==== Sys2Proof/Certificates/Slice0/Obligations.lean ====
section
/-! DEFINITION. The statements for the provers. Each says which rule of `spec/` it formalises. A command's next state is given
whole, as the old state with the fields the rule writes replaced, so each statement is also the command's frame: what is not
named is unchanged. Buffers are pinned bit by bit or byte by byte (`FieldWritten`, `HoldsBytes`). A command that only port P
may issue comes with its packet and with what port C gets (`ProducerCommand`); the reserved bits hold for every command and are
stated once (`ReservedBitsAreIllegal`). -/

open Sys2Proof Sys2Proof.Machine

/-! ### Encoding -/

/-- Decoding an encoded command gives it back, with every operand at every value its encoding admits, whatever follows the
packet; and the packet is cut off exactly (30_encoding sections 1, 2, 4, 6). -/
def Obligations.EncodeThenDecodeGivesTheCommand : Prop :=
  ∀ (i : Instr) (rest : List Word), i.wf = true →
    decode (encode i ++ rest) = .ok i ∧ takePacket (encode i ++ rest) = some (encode i, rest)

/-- A packet the decoder accepts is the encoding of the command it gives, which is well formed: no bit is ignored and no
packet has a second reading (30_encoding sections 2, 4, 5). -/
def Obligations.AcceptedPacketIsTheEncoding : Prop :=
  ∀ (ws : List Word) (i : Instr), decode ws = .ok i → i.wf = true ∧ ∃ rest, ws = encode i ++ rest

/-- The decoder agrees with the opcode table (30_encoding section 4): a command word starts a command exactly when a row fits
it, one row at most fits, the row gives the length, and the command is the row's. -/
def Obligations.DecoderAgreesWithOpcodeTable : Prop :=
  ∀ w0 : Word,
    ((∃ ps i, decode (w0 :: ps) = .ok i) ↔ ∃ r ∈ opcodeTable, r.fits w0 = true) ∧
    ∀ r ∈ opcodeTable, r.fits w0 = true →
      packetLen (opOf w0) = r.words ∧
      (∀ r' ∈ opcodeTable, r'.fits w0 = true → r' = r) ∧
      ∀ ps i, decode (w0 :: ps) = .ok i → mnemonicOf i = r.mnemonic

/-- Ten packets, their words written out by the format, the operand assembly and the opcode map (30_encoding sections 1, 2, 4),
decode to the commands they stand for; among them the examples of the text form (section 7). -/
def Obligations.ExamplePacketsDecode : Prop :=
  decode [0x11080000#32, 0x00000042#32] = .ok (.putBits 8#8 66#32) ∧
  decode [0x13000000#32, 0xFFFFFFFD#32] = .ok (.putSe 0xFFFFFFFD#32) ∧
  decode [0x15670000#32] = .ok (.nalHdr 3#2 7#5) ∧
  decode [0x41110011#32, 0x00000002#32, 0x00000001#32] = .ok (.dpbAdd 0x11#8 0x0011#16 2#32 1#16) ∧
  decode [0x65000000#32] = .ok .outqWait ∧
  decode [0x03000060#32, 0x0000001E#32] = .ok (.csrw 0x0060#16 30#32) ∧
  decode [0x62090020#32, 0x00000000#32, 0x00000000#32, 0xB0000001#32] = .ok (.outqPush 0x09#8 0x0020#16 0#32 0#16 0xB0000001#32) ∧
  decode [0x24030000#32] = .ok (.getBits 3#8) ∧
  decode [0x52010001#32] = .ok (.rplRead 1#2 1#16) ∧
  decode [0x60000020#32] = .ok (.ropEnq false 0x0020#16)

/-- R88: an unassigned opcode, on either port, fails with `E_ILLEGAL` as a one-word packet and changes no state. -/
def Obligations.UnassignedOpcodesAreIllegal : Prop :=
  ∀ (s : State) (w0 : Word) (rest : List Word),
    holds s (granted s) = false → s.inbox (granted s) = w0 :: rest → opOf w0 ∉ assignedOpcodes →
    step s = .next (failed (startPacket (takeGrant s) (granted s) rest) .eIllegal)

/-- R87: a packet of an assigned opcode with a reserved bit set, in word 0 or in bits 31:16 of a `frame_num` word, fails with
`E_ILLEGAL`, changes no state and has the length its opcode gives. The reserved bits of word 0 are the mask bits of the
opcode's row. -/
def Obligations.ReservedBitsAreIllegal : Prop :=
  ∀ (s : State) (w0 : Word) (ps rest : List Word) (r : OpRow),
    holds s (granted s) = false → s.inbox (granted s) = w0 :: ps ++ rest →
    r ∈ opcodeTable → opOf w0 = opOf r.pattern → ps.length + 1 = r.words →
    (r.fits w0 = false ∨ (opOf w0 ∈ frameNumOpcodes ∧ (ps.getD 1 0#32).extractLsb' 16 16 ≠ 0#16)) →
    step s = .next (failed (startPacket (takeGrant s) (granted s) rest) .eIllegal)

/-- The flags byte `F` and the picture info word `PIW` bit by bit, and that every `F` with clear reserved bits and a type is
that of some picture record (30_encoding sections 2 and 3). -/
def Obligations.FlagsByteAndPictureWord : Prop :=
  (∀ p : Picture,
    (flagsByte p).getLsbD 0 = p.ref ∧ (flagsByte p).getLsbD 1 = p.out ∧ (flagsByte p).getLsbD 2 = p.skip ∧
    (flagsByte p).getLsbD 3 = p.idr ∧ (flagsByte p).extractLsb' 6 2 = 0#2 ∧
    (flagsByte p).extractLsb' 4 2 = match p.type with | .I => 0#2 | .P => 1#2 | .B => 2#2) ∧
  (∀ (p : Picture) (sync eof : Bool),
    (piwWith sync eof p).getLsbD 31 = true ∧ (piwWith sync eof p).extractLsb' 26 5 = 0#5 ∧
    (piwWith sync eof p).getLsbD 25 = sync ∧ (piwWith sync eof p).getLsbD 24 = eof ∧
    (piwWith sync eof p).extractLsb' 16 8 = flagsByte p ∧ (piwWith sync eof p).extractLsb' 0 16 = p.surf ∧
    piw p = piwWith false false p) ∧
  (∀ e : RefEntry, (refPiw e).getLsbD 31 = true ∧ (refPiw e).extractLsb' 16 15 = 0#15 ∧
    (refPiw e).extractLsb' 0 16 = e.surf) ∧
  (∀ (f : Byte) (poc : Word) (n surf : Half), f.extractLsb' 6 2 = 0#2 → f.extractLsb' 4 2 ≠ 3#2 →
    ∃ p : Picture, flagsByte p = f ∧ p.poc = poc ∧ p.frameNum = n ∧ p.surf = surf)

/-! ### Steps and ports -/

/-- A step executes the command at the head of the granted port: `exec` of the decoded command, on the state in which that
packet has left the port, the decision is used up and the command sees its port; nothing else differs from `s`
(30_encoding section 1, 60_exceptions section 4; the arbiter is log 3). -/
def Obligations.StepRunsTheDecodedCommand : Prop :=
  (∀ (s : State) (i : Instr), holds s (granted s) = false → decode (s.inbox (granted s)) = .ok i →
    step s = exec i (startPacket (takeGrant s) (granted s) ((s.inbox (granted s)).drop (encode i).length))) ∧
  (∀ (s : State) (p : Port) (ws : List Word),
    startPacket (takeGrant s) p ws =
      { s with
        inP := if p = .P then ws else s.inP
        inC := if p = .C then ws else s.inC
        port := p
        grants := (decisions s).tail
        grantCount := if s.grants = [] then s.grantCount + 1 else s.grantCount })

/-- What the arbiter's decision does. When both ports have a whole packet, either may execute first: the one the decision names.
A granted port with no whole packet, and port C while its `OUTQ_WAIT` is held and the queue is empty, leave everything but the
decision unchanged. A held wait with an entry present ends, and answers as `OUTQ_PEEK` in the current state, on port C. Each
port moves again after finitely many steps, so a held wait ends when the queue stays non-empty up to port C's next move: it is
held until then, and answers from the state it ends in (60_exceptions section 3, 30_encoding section 1, 44_reorder_output
section 4, 20_memory section 5). The decisions are the model's own data, made in rounds that let each port move (log 3), and
that a wait ends at a grant of port C is logs 4 and 6. -/
def Obligations.ReadyAndWaitingPorts : Prop :=
  (∀ (s : State) (i j : Instr), s.cWait = false → decode s.inP = .ok i → decode s.inC = .ok j →
    step { s with grants := .P :: s.grants } = exec i { s with inP := s.inP.drop (encode i).length, port := .P } ∧
    step { s with grants := .C :: s.grants } = exec j { s with inC := s.inC.drop (encode j).length, port := .C }) ∧
  (∀ s : State, holds s (granted s) = false → takePacket (s.inbox (granted s)) = none → step s = .next (takeGrant s)) ∧
  (∀ s : State, granted s = .C → s.cWait = true → s.outq = [] → step s = .next (takeGrant s)) ∧
  (∀ (s : State) (e : OutEntry) (q : List OutEntry), granted s = .C → s.cWait = true → s.outq = e :: q →
    step s = .next (answered { takeGrant s with cWait := false, port := .C } .stOk e.pic.poc
      (e.pic.frameNum.setWidth 32) (piwWith e.sync e.eof e.pic) e.buf)) ∧
  (∀ (s : State) (p : Port), ∃ k, MovesAfter s p k) ∧
  (∀ (s : State) (k : Nat), s.cWait = true → MovesAfter s .C k → (∀ j, j ≤ k → (after j s).outq ≠ []) →
    (∀ j, j ≤ k → (after j s).cWait = true ∧ (after j s).respC = s.respC) ∧
    ∃ e q, (after k s).outq = e :: q ∧
      after (k + 1) s = answered { takeGrant (after k s) with cWait := false, port := .C } .stOk e.pic.poc
        (e.pic.frameNum.setWidth 32) (piwWith e.sync e.eof e.pic) e.buf)

/-- Every command has a next state, and so has every step: there is no fault and no stop (70_reset_and_hazards section 6,
60_exceptions section 2). -/
def Obligations.EveryStepHasANextState : Prop :=
  (∀ (i : Instr) (s : State), ∃ t, exec i s = .next t) ∧ ∀ s : State, ∃ t, step s = .next t

/-- Across a step the parameters stay, both output logs and both response logs only grow, each port's words leave only from
the front and only on its own grant, but for a packet partly received on port C, which an `SRESET` from port P drops, and no bit
of `errlog` is cleared but by an `SRESET` from port P (10_state sections 8 and 9, 20_memory section 5, 70_reset_and_hazards
section 1). The model's own: that parameters are state no step changes (log 1), the grants (log 3), the words of a port as a
list, of which an `SRESET` keeps whole packets and what follows them (log 5), and the responses as lists (log 7). -/
def Obligations.HistoriesOnlyGrow : Prop :=
  ∀ s t : State, step s = .next t →
    t.cfg = s.cfg ∧ s.picout <+: t.picout ∧ s.byteout <+: t.byteout ∧ s.respP <+: t.respP ∧ s.respC <+: t.respC ∧
    t.inP <:+ s.inP ∧ t.inC <:+ s.inC ∧ (granted s = .C → t.inP = s.inP) ∧
    (granted s = .P → t.inC = s.inC ∨ decode s.inP = .ok .sreset ∧ takePacket s.inC = none ∧ t.inC = []) ∧
    ((granted s = .P ∧ decode s.inP = .ok .sreset) ∨ s.errlog &&& t.errlog = s.errlog)

/-! ### Statuses and failures -/

/-- The status numbers (60_exceptions section 1): from `0x10` on they are failures, and a failure's `errlog` bit is its number
less `0x10`. -/
def Obligations.StatusNumbers : Prop :=
  ([Status.stOk, .stNoData, .stFalse].map Status.code = [0x00, 0x01, 0x02] ∧
    ∀ st ∈ [Status.stOk, .stNoData, .stFalse], st.isFailure = false ∧ st.errBits = 0#32) ∧
  ([Status.eInvalidParam, .eBufSmall, .eNoSpace, .eUnsupported, .eEncodeFail, .eUnaligned, .eSealed, .eUnderrun,
      .eEgRange, .ePort, .eIllegal, .eFull, .eBusy, .eNotInit, .eDpbExhausted].map Status.code =
    [0x10, 0x11, 0x12, 0x13, 0x14, 0x15, 0x16, 0x17, 0x18, 0x19, 0x1A, 0x1B, 0x1C, 0x1D, 0x1E]) ∧
  (∀ st : Status, 0x10 ≤ st.code.toNat →
    st.isFailure = true ∧ st.code.toNat ≤ 0x1E ∧ st.errBits = BitVec.twoPow 32 (st.code.toNat - 0x10)) ∧
  ∀ st : Status, st.code.toNat < 0x10 → st = .stOk ∨ st = .stNoData ∨ st = .stFalse

/-- R286: a command on a port that may not issue it fails with `E_PORT` and changes no state; on a port that may issue it, it
never answers `E_PORT`; an unassigned opcode fails with `E_ILLEGAL` on either port. -/
def Obligations.PortPermissions : Prop :=
  (∀ (i : Instr) (s : State), i.wf = true →
    (permitted i s.port = false → exec i s = .next (failed s .ePort)) ∧
    (permitted i s.port = true → ∀ t r, exec i s = .next t → AnswersWith s t r → r.status ≠ .ePort)) ∧
  ∀ (w0 : Word) (s : State), opOf w0 ∉ assignedOpcodes → runPacket [w0] s = .next (failed s .eIllegal)

/-- A command has no other outcome than those listed for it (60_exceptions section 1, the table by command): `ST_OK`, `E_PORT`
where the port may not issue it, or one of its own statuses; only an `OUTQ_WAIT` on an empty queue does not answer at once. -/
def Obligations.OnlyTheListedStatuses : Prop :=
  ∀ (i : Instr) (s t : State), i.wf = true → BlockInv s → exec i s = .next t →
    (∃ r, AnswersWith s t r ∧
      (r.status = .stOk ∨ (r.status = .ePort ∧ permitted i s.port = false) ∨ r.status ∈ otherStatuses i)) ∨
    (i = .outqWait ∧ s.port = .C ∧ s.outq = [] ∧ t = { s with cWait := true })

/-- R275: a failing command changes nothing but its `errlog` bit, outputs nothing, and answers four zero words; the one
exception is `DPB_ADD` with `E_DPB_EXHAUSTED`, which keeps the outputs and removals it made. -/
def Obligations.FailureChangesNothingElse : Prop :=
  ∀ (i : Instr) (s t : State) (r : Response), exec i s = .next t → AnswersWith s t r → r.status.isFailure = true →
    r = ⟨r.status, 0#32, 0#32, 0#32, 0#32⟩ ∧
    (t = failed s r.status ∨
      (∃ f surf poc n, i = .dpbAdd f surf poc n) ∧ r.status = .eDpbExhausted ∧
        ∃ l outs, t = failed { s with slots := l, picout := s.picout ++ outs } .eDpbExhausted)

/-- A command other than `SRESET` produces at most one response, on the port that issued it, and sets in `errlog` exactly the
bit of that response's status; the one that does not answer is an `OUTQ_WAIT` that is held (30_encoding section 3,
60_exceptions section 2). -/
def Obligations.OneResponseOnTheIssuingPort : Prop :=
  ∀ (i : Instr) (s t : State), i ≠ .sreset → exec i s = .next t →
    (∀ p, p ≠ s.port → t.responses p = s.responses p) ∧
    ((∃ r, AnswersWith s t r ∧
        t.errlog = s.errlog ||| (if 0x10 ≤ r.status.code.toNat then BitVec.twoPow 32 (r.status.code.toNat - 0x10) else 0#32)) ∨
      (i = .outqWait ∧ t = { s with cWait := true }))

/-- A command writes only the parts of the state its rule writes (20_memory sections 1, 4 and 7, 10_state section 8, the command
sections of files 40 to 44, 45_system, 70_reset_and_hazards section 1); a port's words only `SRESET` writes. No command writes
the parameters (log 1) or the model's own fields (logs 3, 12): those clauses are the model's. -/
def Obligations.CommandsWriteOnlyTheirParts : Prop :=
  ∀ (i : Instr) (s t : State), exec i s = .next t →
    (∀ part, part ∉ mayWrite i → sameOn part s t) ∧
    t.cfg = s.cfg ∧ t.port = s.port ∧ t.grants = s.grants ∧ t.grantCount = s.grantCount

/-! ### Reset and invariants -/

/-- The hardware reset and a successful `SRESET` leave every state item at its reset value and both ports with no packet partly
received and no wait held (70_reset_and_hazards section 1); after the first no word is presented and no response is owed.
R301: the output logs are empty after the first and kept by the second. -/
def Obligations.ResetState : Prop :=
  (∀ p : Params, AtReset (State.resetWith p) ∧ (State.resetWith p).cfg = p ∧
    (State.resetWith p).inP = [] ∧ (State.resetWith p).inC = [] ∧
    (State.resetWith p).respP = [] ∧ (State.resetWith p).respC = [] ∧
    (State.resetWith p).picout = [] ∧ (State.resetWith p).byteout = []) ∧
  ∀ s : State, s.port = .P → ∃ t, exec .sreset s = .next t ∧ AtReset t ∧ t.picout = s.picout ∧ t.byteout = s.byteout

/-- The invariants hold right after reset, for all parameters that meet `Params.Ok`: the constraints of 00_scope section 4 and
the upper bounds of the model's own (log 2); and for the defaults, which `State.reset` has (10_state section 9,
70_reset_and_hazards section 1). -/
def Obligations.ResetMeetsTheInvariants : Prop :=
  (∀ p : Params, p.Ok → BlockInv (State.resetWith p)) ∧ BlockInv State.reset

/-- The invariants hold after every step (10_state section 9). -/
def Obligations.EveryStepKeepsTheInvariants : Prop :=
  ∀ s t : State, BlockInv s → step s = .next t → BlockInv t

/-! ### System commands -/

/-- `NOP` has no effect on either port; `SRESET` brings every state item to its reset value, ends a held `OUTQ_WAIT` with
`ST_NO_DATA` on port C, drops a packet partly received on a port, and keeps the logs; no other command clears a bit of `errlog`
(45_system, 70_reset_and_hazards section 1). The model's own: that `SRESET` keeps words that begin with a whole packet
(log 5), the parameters (log 1) and the fields of logs 3 and 12, and that the held wait is answered in the step of the
`SRESET` itself (log 21). -/
def Obligations.NopAndSreset : Prop :=
  encode .nop = [0x00000000#32] ∧ ProducerCommand .sreset [0x01000000#32] ∧
  (∀ s : State, exec .nop s = .next (answered s .stOk)) ∧
  (∀ s : State, s.port = .P →
    exec .sreset s = .next (answered
      { State.resetWith s.cfg with
        picout := s.picout, byteout := s.byteout
        inP := if takePacket s.inP = none then [] else s.inP
        inC := if takePacket s.inC = none then [] else s.inC
        respP := s.respP
        respC := if s.cWait then s.respC ++ [⟨.stNoData, 0#32, 0#32, 0#32, 0#32⟩] else s.respC
        port := .P, grants := s.grants, grantCount := s.grantCount } .stOk)) ∧
  ∀ (i : Instr) (s t : State), i ≠ .sreset → exec i s = .next t → s.errlog &&& t.errlog = s.errlog

/-- R237: a `CSRR`, on either port, answers the value R39 gives the register and changes nothing; an address outside the map
fails with `E_INVALID_PARAM`; right after reset the registers read as the last column of R39. -/
def Obligations.CsrReads : Prop :=
  (∀ addr : Half, encode (.csrr addr) = [0x0200#16 ++ addr]) ∧
  (∀ (s : State), ∀ e ∈ csrView, exec (.csrr e.1) s = .next (answered s .stOk (e.2 s))) ∧
  (∀ (s : State) (addr : Half), addr ∉ csrView.map (·.1) → exec (.csrr addr) s = .next (failed s .eInvalidParam)) ∧
  (csrView.map (·.1)).Nodup ∧
  ∀ (p : Params), ∀ e ∈ csrAtReset p,
    exec (.csrr e.1) (State.resetWith p) = .next (answered (State.resetWith p) .stOk e.2)

/-- R238: `CSRW` writes six registers, each with its own checks, answers the value a `CSRR` would now return, and fails with
`E_INVALID_PARAM` for every other address. -/
def Obligations.CsrWrites : Prop :=
  (∀ (addr : Half) (v : Word), ProducerCommand (.csrw addr v) [0x0300#16 ++ addr, v]) ∧
  ∀ (s : State) (v : Word), s.port = .P →
    (v.toNat < 1 ∨ s.cfg.rplSlots < v.toNat → exec (.csrw 0x0050#16 v) s = .next (failed s .eInvalidParam)) ∧
    (1 ≤ v.toNat → v.toNat ≤ s.cfg.rplSlots → v.toNat < s.refset.length →
      exec (.csrw 0x0050#16 v) s = .next (failed s .eBusy)) ∧
    (1 ≤ v.toNat → v.toNat ≤ s.cfg.rplSlots → s.refset.length ≤ v.toNat →
      exec (.csrw 0x0050#16 v) s = .next (answered { s with maxRef := v.toNat } .stOk v)) ∧
    (s.cfg.rplSlots < v.toNat →
      exec (.csrw 0x0051#16 v) s = .next (failed s .eInvalidParam) ∧
      exec (.csrw 0x0052#16 v) s = .next (failed s .eInvalidParam)) ∧
    (v.toNat ≤ s.cfg.rplSlots →
      exec (.csrw 0x0051#16 v) s = .next (answered { s with maxL0 := v.toNat } .stOk v) ∧
      exec (.csrw 0x0052#16 v) s = .next (answered { s with maxL1 := v.toNat } .stOk v)) ∧
    exec (.csrw 0x0060#16 v) s = .next (answered { s with keyPeriod := v } .stOk v) ∧
    exec (.csrw 0x0061#16 v) s = .next (answered { s with intraPeriod := v } .stOk v) ∧
    (v ≠ 0#32 → exec (.csrw 0x0062#16 v) s = .next (failed s .eUnsupported)) ∧
    (v = 0#32 → exec (.csrw 0x0062#16 v) s = .next (answered s .stOk)) ∧
    ∀ addr : Half, addr ∉ [0x0050#16, 0x0051#16, 0x0052#16, 0x0060#16, 0x0061#16, 0x0062#16] →
      exec (.csrw addr v) s = .next (failed s .eInvalidParam)

/-- R207: `log2mfn(k)` is the smallest `v` with `2^v > k`, clamped to 4 .. 10. -/
def Obligations.LogOfMaxFrameNum : Prop :=
  ∀ k : Word, ∃ v, k.toNat < 2 ^ v ∧ (∀ u, u < v → 2 ^ u ≤ k.toNat) ∧ log2mfn k = min (max v 4) 10

/-! ### The bitstream writer -/

/-- R113, R141: `BSW_CLEAR` and `BSR_CLEAR` empty the writer and the reader, in every state. -/
def Obligations.ClearsEmptyTheBuffers : Prop :=
  ProducerCommand .bswClear [0x10000000#32] ∧ ProducerCommand .bsrClear [0x20000000#32] ∧
  ∀ s : State, s.port = .P →
    (∃ m e, (∀ i, Memory.read m i = 0#8) ∧ (∀ i, Memory.read e i = 0#8) ∧ Memory.wf m ∧ Memory.wf e ∧
      exec .bswClear s =
        .next (answered { s with raw := m, nbits := 0, sealed := false, emu := e, emuLen := 0 } .stOk)) ∧
    ∃ m, (∀ i, Memory.read m i = 0#8) ∧ Memory.wf m ∧
      exec .bsrClear s = .next (answered { s with rbuf := m, rlen := 0, rpos := 0 } .stOk)

/-- R114: `PUT_BITS` refuses a width above 32 and a value wider than its width, whatever the writer's state, and else appends
the low `width` bits, most significant first. -/
def Obligations.PutBits : Prop :=
  (∀ (width : Byte) (value : Word), ProducerCommand (.putBits width value) [0x11#8 ++ width ++ 0#16, value]) ∧
  ∀ (s : State) (width : Byte) (value : Word), s.port = .P → Memory.wf s.raw →
    (32 < width.toNat → exec (.putBits width value) s = .next (failed s .eInvalidParam)) ∧
    (width.toNat ≤ 32 → 2 ^ width.toNat ≤ value.toNat →
      exec (.putBits width value) s = .next (failed s .eInvalidParam)) ∧
    (width.toNat ≤ 32 → value.toNat < 2 ^ width.toNat →
      AppendsField (.putBits width value) s width.toNat value.toNat)

/-- R115: `PUT_UE` appends `code = value + 1` as `L - 1` zero bits and the `L` bits of `code`, `L` being its length; only
`2^32 - 1` is refused. -/
def Obligations.PutUe : Prop :=
  (∀ value : Word, ProducerCommand (.putUe value) [0x12000000#32, value]) ∧
  ∀ (s : State) (value : Word), s.port = .P → Memory.wf s.raw →
    (value = 0xFFFFFFFF#32 → exec (.putUe value) s = .next (failed s .eEgRange)) ∧
    (value ≠ 0xFFFFFFFF#32 → ∃ L, 1 ≤ L ∧ L ≤ 32 ∧ 2 ^ (L - 1) ≤ value.toNat + 1 ∧ value.toNat + 1 < 2 ^ L ∧
      AppendsField (.putUe value) s (2 * L - 1) (value.toNat + 1))

/-- R116: `PUT_SE` appends the code of `k = -2v` for `v <= 0` and `k = 2v - 1` for `v > 0`; only `-2^31` is refused. -/
def Obligations.PutSe : Prop :=
  (∀ value : Word, ProducerCommand (.putSe value) [0x13000000#32, value]) ∧
  ∀ (s : State) (value : Word), s.port = .P → Memory.wf s.raw →
    (value.toInt = -2 ^ 31 → exec (.putSe value) s = .next (failed s .eEgRange)) ∧
    (value.toInt ≠ -2 ^ 31 → ∃ k L : Nat, (k : Int) = (if value.toInt ≤ 0 then -2 * value.toInt else 2 * value.toInt - 1) ∧
      1 ≤ L ∧ L ≤ 32 ∧ 2 ^ (L - 1) ≤ k + 1 ∧ k + 1 < 2 ^ L ∧ AppendsField (.putSe value) s (2 * L - 1) (k + 1))

/-- R117, R118, R119: `ALIGN` appends copies of `fill` up to a byte boundary, and cannot run out of room; `NAL_HDR` appends the
byte of a zero bit, `refIdc` and `unitType`; `RBSP_TRAIL` appends a one and zeros up to a byte boundary, always the one. -/
def Obligations.AlignHeaderAndTrail : Prop :=
  (ProducerCommand (.align false) [0x14000000#32] ∧ ProducerCommand (.align true) [0x14010000#32]) ∧
  (∀ (refIdc : BitVec 2) (unitType : BitVec 5),
    ProducerCommand (.nalHdr refIdc unitType) [0x15#8 ++ 0#1 ++ refIdc ++ unitType ++ 0#16]) ∧
  ProducerCommand .rbspTrail [0x16000000#32] ∧
  ∀ (s : State), s.port = .P → Memory.wf s.raw →
    (∀ fill : Bool, s.nbits ≤ 8 * s.cfg.bswCapBytes → ∃ n, n < 8 ∧ (s.nbits + n) % 8 = 0 ∧
      s.nbits + n ≤ 8 * s.cfg.bswCapBytes ∧ AppendsField (.align fill) s n (if fill then 2 ^ n - 1 else 0)) ∧
    (∀ (refIdc : BitVec 2) (unitType : BitVec 5),
      AppendsField (.nalHdr refIdc unitType) s 8 (refIdc.toNat * 32 + unitType.toNat)) ∧
    ∃ n, 1 ≤ n ∧ n ≤ 8 ∧ (s.nbits + n) % 8 = 0 ∧ AppendsField .rbspTrail s n (2 ^ (n - 1))

/-- While the writer is sealed no command but `BSW_CLEAR` and `SRESET` changes `raw`, `nbits` or the cached emulation form, and
the six writing commands fail (40_bitstream_writer section 1). -/
def Obligations.SealedWriterIsFrozen : Prop :=
  ∀ (i : Instr) (s t : State), s.sealed = true → exec i s = .next t → i ≠ .bswClear → i ≠ .sreset →
    t.raw = s.raw ∧ t.nbits = s.nbits ∧ t.sealed = true ∧ t.emu = s.emu ∧ t.emuLen = s.emuLen ∧
    (Part.raw ∈ mayWrite i → ∃ r, AnswersWith s t r ∧ r.status.isFailure = true)

/-- R120: `EMIT_RAW` sends the written bytes as one burst and changes no state; it needs an aligned writer and a sink that takes
the burst. -/
def Obligations.EmitRaw : Prop :=
  (∀ limit : Half, ProducerCommand (.emitRaw limit) [0x1700#16 ++ limit]) ∧
  ∀ (s : State) (limit : Half), s.port = .P →
    (s.nbits % 8 ≠ 0 → exec (.emitRaw limit) s = .next (failed s .eUnaligned)) ∧
    (s.nbits % 8 = 0 → limit.toNat < s.nbits / 8 → exec (.emitRaw limit) s = .next (failed s .eBufSmall)) ∧
    (s.nbits % 8 = 0 → s.nbits / 8 ≤ limit.toNat →
      ∃ bs : List Byte, bs.length = s.nbits / 8 ∧ (∀ i, i < bs.length → bs.getD i 0#8 = Memory.read s.raw i) ∧
        exec (.emitRaw limit) s =
          .next (answered { s with byteout := s.byteout ++ [⟨.raw, bs⟩] } .stOk (u32 bs.length)))

/-- R121: the first `EMIT_EPB` after a clear derives the emulation form of `raw`, caches it and seals the writer; every later
one sends the cached bytes. A failing one leaves the writer as it was. -/
def Obligations.EmitEpb : Prop :=
  (∀ limit : Half, ProducerCommand (.emitEpb limit) [0x1800#16 ++ limit]) ∧
  ∀ (s : State) (limit : Half), s.port = .P → WriterInv s →
    (s.sealed = false → s.nbits % 8 ≠ 0 → exec (.emitEpb limit) s = .next (failed s .eUnaligned)) ∧
    (s.sealed = false → s.nbits % 8 = 0 → ∀ e, e = epb (Memory.bytes s.raw (s.nbits / 8)) →
      (limit.toNat < e.length → exec (.emitEpb limit) s = .next (failed s .eBufSmall)) ∧
      (e.length ≤ limit.toNat → ∃ m, HoldsBytes m e (Memory.read s.emu) ∧
        exec (.emitEpb limit) s =
          .next (answered { s with emu := m, emuLen := e.length, sealed := true, byteout := s.byteout ++ [⟨.epb, e⟩] }
            .stOk (u32 e.length)))) ∧
    (s.sealed = true → ∀ e, e = Memory.bytes s.emu s.emuLen →
      (limit.toNat < e.length → exec (.emitEpb limit) s = .next (failed s .eBufSmall)) ∧
      (e.length ≤ limit.toNat →
        exec (.emitEpb limit) s =
          .next (answered { s with byteout := s.byteout ++ [⟨.epb, e⟩] } .stOk (u32 e.length))))

/-! ### The emulation-prevention transforms -/

/-- The transform and its inverse are the loops that 40_bitstream_writer section 3 and 41_bitstream_reader section 3 write out,
turn by turn. -/
def Obligations.TransformsAreTheStatedLoops : Prop :=
  (∀ r : List Byte, epb r = (r.foldl epbTurn ([0x00#8, 0x00#8, 0x00#8, 0x01#8], 0)).1) ∧
  ∀ e : List Byte, unesc ([0x00#8, 0x00#8, 0x00#8, 0x01#8] ++ e) = (e.foldl unescTurn ([], 0)).1

/-- Removing the start code and the escapes from the emulation form gives back the bytes (40_bitstream_writer section 3,
41_bitstream_reader section 3). -/
def Obligations.UnescapeUndoesEscape : Prop :=
  ∀ r : List Byte, unesc (epb r) = r

/-- After the start code, two zero bytes of an emulation form are followed by nothing, by a byte of at least 4, or by an
inserted 3, one that the remover drops (40_bitstream_writer section 3, 41_bitstream_reader section 3). -/
def Obligations.EscapedFormHasNoStartCode : Prop :=
  ∀ (r : List Byte) (k : Nat) (b : Byte), ((epb r).drop 4)[k]? = some 0x00#8 → ((epb r).drop 4)[k + 1]? = some 0x00#8 →
    ((epb r).drop 4)[k + 2]? = some b →
    4 ≤ b.toNat ∨ (b = 0x03#8 ∧ unesc ((epb r).take (k + 7)) = unesc ((epb r).take (k + 6)))

/-- The length of an emulation form: at most one insertion for each two bytes after the first, the bound met by zero bytes, so
`EMU_CAP_BYTES` suffices (40_bitstream_writer section 3). -/
def Obligations.EscapedLength : Prop :=
  (epb []).length = 4 ∧
  (∀ r : List Byte, 1 ≤ r.length → 4 + r.length ≤ (epb r).length ∧ (epb r).length ≤ 4 + r.length + (r.length - 1) / 2) ∧
  (∀ n, 1 ≤ n → (epb (List.replicate n 0x00#8)).length = 4 + n + (n - 1) / 2) ∧
  ∀ (p : Params) (r : List Byte), r.length ≤ p.bswCapBytes → (epb r).length ≤ p.emuCapBytes

/-! ### Round trips -/

/-- Decoding with `GET_UE` or `GET_SE`, anywhere in the reader, the bits a `PUT_UE` or `PUT_SE` has written gives back the
value, for every value the writer accepts (40_bitstream_writer section 3, 41_bitstream_reader section 3). -/
def Obligations.ExpGolombRoundTrip : Prop :=
  ∀ (v : Word) (s s' t : State) (r : Response), s.port = .P → Memory.wf s.raw → t.port = .P →
    AnswersWith s s' r → r.status = .stOk →
    (∀ k, k < s'.nbits - s.nbits → bitAt t.rbuf (t.rpos + k) = bitAt s'.raw (s.nbits + k)) →
    t.rpos + (s'.nbits - s.nbits) ≤ 8 * t.rlen →
    (exec (.putUe v) s = .next s' →
      exec .getUe t =
        .next (answered { t with rpos := t.rpos + (s'.nbits - s.nbits) } .stOk v (u32 (s'.nbits - s.nbits)))) ∧
    (exec (.putSe v) s = .next s' →
      exec .getSe t =
        .next (answered { t with rpos := t.rpos + (s'.nbits - s.nbits) } .stOk v (u32 (s'.nbits - s.nbits))))

/-- Reading with `GET_BITS` of the same width the bits a `PUT_BITS` has written gives back the value; and one read of `a + b`
bits returns the bits that reads of `a` and then `b` return (41_bitstream_reader section 2). -/
def Obligations.FieldRoundTripAndSplit : Prop :=
  (∀ (n : Byte) (v : Word) (s s' t : State) (r : Response), s.port = .P → Memory.wf s.raw → t.port = .P →
    exec (.putBits n v) s = .next s' → AnswersWith s s' r → r.status = .stOk →
    (∀ k, k < n.toNat → bitAt t.rbuf (t.rpos + k) = bitAt s'.raw (s.nbits + k)) → t.rpos + n.toNat ≤ 8 * t.rlen →
    exec (.getBits n) t = .next (answered { t with rpos := t.rpos + n.toNat } .stOk v (u32 n.toNat))) ∧
  ∀ (a b c : Byte) (s : State), s.port = .P → c.toNat = a.toNat + b.toNat → c.toNat ≤ 32 →
    s.rpos + c.toNat ≤ 8 * s.rlen →
    ∃ (x y : Word) (s' : State), s' = answered { s with rpos := s.rpos + a.toNat } .stOk x (u32 a.toNat) ∧
      exec (.getBits a) s = .next s' ∧
      exec (.getBits b) s' = .next (answered { s' with rpos := s.rpos + c.toNat } .stOk y (u32 b.toNat)) ∧
      exec (.getBits c) s =
        .next (answered { s with rpos := s.rpos + c.toNat } .stOk (u32 (x.toNat * 2 ^ b.toNat + y.toNat)) (u32 c.toNat))

/-- The loop inside the block: `EMIT_EPB`, `BSR_LOAD 1`, `BSR_UNESC` bring the bits of an aligned writer into the reader
unchanged, ready to be read from the start (41_bitstream_reader section 3). -/
def Obligations.EscapedUnitLoopsBack : Prop :=
  ∀ (s : State) (limit : Half), BlockInv s → s.port = .P → s.sealed = false → s.nbits % 8 = 0 →
    (epb (Memory.bytes s.raw (s.nbits / 8))).length ≤ limit.toNat →
    ∃ s₁ s₂ s₃, exec (.emitEpb limit) s = .next s₁ ∧ exec (.bsrLoad true) s₁ = .next s₂ ∧ exec .bsrUnesc s₂ = .next s₃ ∧
      8 * s₃.rlen = s.nbits ∧ s₃.rpos = 0 ∧ (∀ p, bitAt s₃.rbuf p = bitAt s.raw p) ∧
      s₃.raw = s.raw ∧ s₃.nbits = s.nbits

/-! ### The bitstream reader -/

/-- R143: `BSR_PUSH` appends one byte and leaves the read position; a full reader refuses it. -/
def Obligations.BsrPush : Prop :=
  (∀ byte : Byte, ProducerCommand (.bsrPush byte) [0x21#8 ++ byte ++ 0#16]) ∧
  ∀ (s : State) (byte : Byte), s.port = .P → Memory.wf s.rbuf →
    (s.rlen = s.cfg.bsrCapBytes → exec (.bsrPush byte) s = .next (failed s .eNoSpace)) ∧
    (s.rlen ≠ s.cfg.bsrCapBytes → ∃ m, (∀ i, Memory.read m i = if i = s.rlen then byte else Memory.read s.rbuf i) ∧
      Memory.wf m ∧
      exec (.bsrPush byte) s = .next (answered { s with rbuf := m, rlen := s.rlen + 1 } .stOk (u32 (s.rlen + 1))))

/-- `BSR_LOAD` copies the written bytes, or the emulation form, into the reader and starts it over; the writer is not changed
(41_bitstream_reader section 2). That the bytes beyond the new length are 0 is log 9. -/
def Obligations.BsrLoad : Prop :=
  (ProducerCommand (.bsrLoad false) [0x22000000#32] ∧ ProducerCommand (.bsrLoad true) [0x22010000#32]) ∧
  ∀ (s : State), s.port = .P →
    (s.nbits % 8 ≠ 0 → exec (.bsrLoad false) s = .next (failed s .eUnaligned)) ∧
    (s.sealed = false → exec (.bsrLoad true) s = .next (failed s .eInvalidParam)) ∧
    ∀ (src : Bool) (b : List Byte),
      (src = false ∧ s.nbits % 8 = 0 ∧ b = Memory.bytes s.raw (s.nbits / 8) ∨
        src = true ∧ s.sealed = true ∧ b = Memory.bytes s.emu s.emuLen) →
      (s.cfg.bsrCapBytes < b.length → exec (.bsrLoad src) s = .next (failed s .eNoSpace)) ∧
      (b.length ≤ s.cfg.bsrCapBytes → ∃ m, HoldsBytes m b (fun _ => 0#8) ∧
        exec (.bsrLoad src) s =
          .next (answered { s with rbuf := m, rlen := b.length, rpos := 0 } .stOk (u32 b.length)))

/-- R144: `BSR_UNESC` replaces the buffer by the result of the removal, the bytes up to the old length being cleared, and starts
the reader over; without the 4-byte start code it fails. -/
def Obligations.BsrUnesc : Prop :=
  ProducerCommand .bsrUnesc [0x23000000#32] ∧
  ∀ (s : State), s.port = .P → ReaderInv s →
    ((s.rlen < 4 ∨ Memory.bytes s.rbuf 4 ≠ [0x00#8, 0x00#8, 0x00#8, 0x01#8]) →
      exec .bsrUnesc s = .next (failed s .eInvalidParam)) ∧
    (4 ≤ s.rlen → Memory.bytes s.rbuf 4 = [0x00#8, 0x00#8, 0x00#8, 0x01#8] →
      ∀ u, u = unesc (Memory.bytes s.rbuf s.rlen) →
        ∃ m, HoldsBytes m u (fun i => if i < s.rlen then 0#8 else Memory.read s.rbuf i) ∧
          exec .bsrUnesc s = .next (answered { s with rbuf := m, rlen := u.length, rpos := 0 } .stOk (u32 u.length)))

/-- R145: `GET_BITS` answers the next `width` bits, the first most significant, zero-extended, and moves past them; it refuses a
width above 32 and a read past the end. -/
def Obligations.GetBits : Prop :=
  (∀ width : Byte, ProducerCommand (.getBits width) [0x24#8 ++ width ++ 0#16]) ∧
  ∀ (s : State) (width : Byte), s.port = .P → s.rpos ≤ 8 * s.rlen →
    (32 < width.toNat → exec (.getBits width) s = .next (failed s .eInvalidParam)) ∧
    (width.toNat ≤ 32 → 8 * s.rlen < s.rpos + width.toNat → exec (.getBits width) s = .next (failed s .eUnderrun)) ∧
    (width.toNat ≤ 32 → s.rpos + width.toNat ≤ 8 * s.rlen → ∃ v, ReadsAs s.rbuf s.rpos width.toNat v ∧
      exec (.getBits width) s =
        .next (answered { s with rpos := s.rpos + width.toNat } .stOk v (u32 width.toNat)))

/-- 41_bitstream_reader section 2: `GET_UE` and `GET_SE` read one code word of `n` zeros, a one and an `n`-bit suffix, and move
past it; the value is `k = 2^n - 1 +` the suffix, and for `GET_SE` `(k + 1) / 2` for odd `k`, `-(k / 2)` for even. 32 zeros fail
with `E_EG_RANGE`; a code word cut short fails with `E_UNDERRUN`. -/
def Obligations.GetExpGolomb : Prop :=
  (ProducerCommand .getUe [0x25000000#32] ∧ ProducerCommand .getSe [0x26000000#32]) ∧
  ∀ (s : State), s.port = .P → s.rpos ≤ 8 * s.rlen →
    (s.rpos + 32 ≤ 8 * s.rlen → (∀ k, k < 32 → bitAt s.rbuf (s.rpos + k) = false) →
      exec .getUe s = .next (failed s .eEgRange) ∧ exec .getSe s = .next (failed s .eEgRange)) ∧
    (8 * s.rlen < s.rpos + 32 → (∀ k, s.rpos + k < 8 * s.rlen → bitAt s.rbuf (s.rpos + k) = false) →
      exec .getUe s = .next (failed s .eUnderrun) ∧ exec .getSe s = .next (failed s .eUnderrun)) ∧
    (∀ n, n < 32 → s.rpos + n < 8 * s.rlen → CodePrefix s.rbuf s.rpos n → 8 * s.rlen < s.rpos + (2 * n + 1) →
      exec .getUe s = .next (failed s .eUnderrun) ∧ exec .getSe s = .next (failed s .eUnderrun)) ∧
    ∀ n suffix k, n < 32 → CodePrefix s.rbuf s.rpos n → s.rpos + (2 * n + 1) ≤ 8 * s.rlen → suffix < 2 ^ n →
      (∀ j, j < n → suffix.testBit j = bitAt s.rbuf (s.rpos + 2 * n - j)) → k = 2 ^ n - 1 + suffix →
      exec .getUe s =
        .next (answered { s with rpos := s.rpos + (2 * n + 1) } .stOk (u32 k) (u32 (2 * n + 1))) ∧
      ∃ v : Word, v.toInt = (if k % 2 = 1 then ((k : Int) + 1) / 2 else -((k : Int) / 2)) ∧
        exec .getSe s = .next (answered { s with rpos := s.rpos + (2 * n + 1) } .stOk v (u32 (2 * n + 1)))

/-! ### The decoded picture buffer -/

/-- R160: `DPB_INIT` makes an empty buffer of a legal capacity and drops what was held without outputting it. Before it (42_dpb
section 1) every other DPB command fails with `E_NOT_INIT`; `DPB_ADD` refuses the type 3 and a picture already output before
that. -/
def Obligations.DpbInitAndChecks : Prop :=
  (∀ cap : Byte, ProducerCommand (.dpbInit cap) [0x40#8 ++ cap ++ 0#16]) ∧
  (∀ (s : State) (cap : Byte), s.port = .P →
    (cap.toNat = 0 ∨ s.cfg.dpbSlots < cap.toNat → exec (.dpbInit cap) s = .next (failed s .eInvalidParam)) ∧
    (cap.toNat ≠ 0 → cap.toNat ≤ s.cfg.dpbSlots →
      exec (.dpbInit cap) s =
        .next (answered { s with dpbInit := true, dpbMax := cap.toNat, slots := [] } .stOk (cap.setWidth 32)
          (if cap = 2#8 then 1#32 else 0#32)))) ∧
  (∀ (s : State) (f : Byte) (surf n : Half) (poc : Word), s.port = .P → f.extractLsb' 6 2 = 0#2 →
    (f.extractLsb' 4 2 = 3#2 ∨ f.getLsbD 1 = true →
      exec (.dpbAdd f surf poc n) s = .next (failed s .eInvalidParam)) ∧
    (f.extractLsb' 4 2 ≠ 3#2 → f.getLsbD 1 = false → s.dpbInit = false →
      exec (.dpbAdd f surf poc n) s = .next (failed s .eNotInit))) ∧
  ∀ (s : State) (want : Bool) (poc : Word), s.port = .P → s.dpbInit = false →
    exec .dpbBump s = .next (failed s .eNotInit) ∧ exec .dpbFlush s = .next (failed s .eNotInit) ∧
    exec (.dpbOldest want) s = .next (failed s .eNotInit) ∧ exec (.dpbNeigh poc) s = .next (failed s .eNotInit)

/-- R167: `DPB_ADD` of a reference picture in the general policy collects garbage, bumps while the buffer is full, then inserts;
when every held picture is a reference picture nothing frees room, and the command fails with `E_DPB_EXHAUSTED` keeping its
outputs. -/
def Obligations.DpbAddReference : Prop :=
  (∀ (f : Byte) (surf n : Half) (poc : Word),
    ProducerCommand (.dpbAdd f surf poc n) [0x41#8 ++ f ++ surf, poc, 0x0000#16 ++ n]) ∧
  ∀ (s : State) (inc : Picture), s.port = .P → s.dpbInit = true → s.dpbMax ≠ 2 → inc.ref = true → inc.out = false →
    ∃ g outs l', Collects 0 s.slots g ∧ BumpsWhile (fun m => m.length = s.dpbMax) g outs l' ∧
      (Freeable s.dpbMax g →
        exec (.dpbAdd (flagsByte inc) inc.surf inc.poc inc.frameNum) s =
          .next (answered { s with slots := l' ++ [inc], picout := s.picout ++ outs } .stOk (u32 outs.length)) ∧
        l'.length ≠ s.dpbMax) ∧
      (¬ Freeable s.dpbMax g →
        exec (.dpbAdd (flagsByte inc) inc.surf inc.poc inc.frameNum) s =
          .next (failed { s with slots := l', picout := s.picout ++ outs } .eDpbExhausted) ∧
        l'.length = s.dpbMax ∧ AllOutput l')

/-- R168: `DPB_ADD` of a non-reference picture in the general policy. Garbage is collected and a skipped picture dropped; else,
while the buffer is full, it is output directly if a buffered non-reference picture has a smaller `poc`, and otherwise the
oldest picture is bumped. -/
def Obligations.DpbAddNonReference : Prop :=
  ∀ (s : State) (inc : Picture), s.port = .P → s.dpbInit = true → s.dpbMax ≠ 2 → inc.ref = false → inc.out = false →
    (inc.skip = true → ∃ g, Collects 0 s.slots g ∧
      exec (.dpbAdd (flagsByte inc) inc.surf inc.poc inc.frameNum) s =
        .next (answered { s with slots := g } .stOk 0#32 2#32)) ∧
    (inc.skip = false → ∃ g outs l', Collects 0 s.slots g ∧
      BumpsWhile (fun m => m.length = s.dpbMax ∧ ¬ HasSmallerNonRef inc m) g outs l' ∧
      (Freeable s.dpbMax g → l'.length ≠ s.dpbMax →
        exec (.dpbAdd (flagsByte inc) inc.surf inc.poc inc.frameNum) s =
          .next (answered { s with slots := l' ++ [inc], picout := s.picout ++ outs } .stOk (u32 outs.length))) ∧
      (Freeable s.dpbMax g → l'.length = s.dpbMax →
        HasSmallerNonRef inc l' ∧
        exec (.dpbAdd (flagsByte inc) inc.surf inc.poc inc.frameNum) s =
          .next (answered { s with slots := l', picout := s.picout ++ outs ++ [{ inc with out := true }] }
            .stOk (u32 (outs.length + 1)) 1#32)) ∧
      (¬ Freeable s.dpbMax g →
        exec (.dpbAdd (flagsByte inc) inc.surf inc.poc inc.frameNum) s =
          .next (failed { s with slots := l', picout := s.picout ++ outs } .eDpbExhausted) ∧
        l'.length = s.dpbMax ∧ AllOutput l'))

/-- R170: `DPB_ADD` in the 2-slot policy. A reference picture is appended while there is room, and else takes the place of the
older picture, slot 0 on a tie, which is output if it was not; a non-reference picture is output, never buffered. -/
def Obligations.DpbAddTwoSlot : Prop :=
  ∀ (s : State) (inc : Picture), s.port = .P → s.dpbInit = true → s.dpbMax = 2 → s.slots.length ≤ 2 → inc.out = false →
    (inc.ref = false →
      exec (.dpbAdd (flagsByte inc) inc.surf inc.poc inc.frameNum) s =
        .next (answered { s with picout := s.picout ++ [{ inc with out := true }] } .stOk 1#32 1#32)) ∧
    (inc.ref = true → s.slots.length < 2 →
      exec (.dpbAdd (flagsByte inc) inc.surf inc.poc inc.frameNum) s =
        .next (answered { s with slots := s.slots ++ [inc] } .stOk)) ∧
    ∀ a b old : Picture, ∀ left : List Picture, inc.ref = true → s.slots = [a, b] →
      (old = if b.poc.toInt < a.poc.toInt then b else a) →
      (left = if b.poc.toInt < a.poc.toInt then [a, inc] else [inc, b]) →
      (old.out = false →
        exec (.dpbAdd (flagsByte inc) inc.surf inc.poc inc.frameNum) s =
          .next (answered { s with slots := left, picout := s.picout ++ [{ old with out := true }] } .stOk 1#32)) ∧
      (old.out = true →
        exec (.dpbAdd (flagsByte inc) inc.surf inc.poc inc.frameNum) s =
          .next (answered { s with slots := left } .stOk))

/-- R171: `DPB_BUMP` outputs the oldest picture not yet output, removes it unless it is a reference picture, and answers with
it; when there is none it answers `ST_FALSE` and changes nothing. -/
def Obligations.DpbBump : Prop :=
  ProducerCommand .dpbBump [0x42000000#32] ∧
  ∀ s : State, s.port = .P → s.dpbInit = true →
    (¬ AllOutput s.slots → ∃ p l', Bumped s.slots p l' ∧
      exec .dpbBump s =
        .next (answered { s with slots := l', picout := s.picout ++ [p] } .stOk p.poc (p.frameNum.setWidth 32) (piw p))) ∧
    (AllOutput s.slots → exec .dpbBump s = .next (answered s .stFalse))

/-- R172: `DPB_FLUSH` bumps until nothing is left to output, in ascending `poc`, and empties the buffer. -/
def Obligations.DpbFlush : Prop :=
  ProducerCommand .dpbFlush [0x43000000#32] ∧
  ∀ s : State, s.port = .P → s.dpbInit = true →
    ∃ outs l', BumpsWhile (fun _ => True) s.slots outs l' ∧ AllOutput l' ∧
      outs.Pairwise (fun p q => p.poc.toInt ≤ q.poc.toInt) ∧
      List.Perm outs ((pending s.slots).map fun p => { p with out := true }) ∧
      exec .dpbFlush s =
        .next (answered { s with slots := [], picout := s.picout ++ outs } .stOk (u32 outs.length))

/-- R173: `DPB_OLDEST` answers with the picture of least `poc` among those whose `out` is `want`, the lowest slot among equals,
or with zeros when there is none; no state changes. -/
def Obligations.DpbOldest : Prop :=
  (ProducerCommand (.dpbOldest false) [0x44000000#32] ∧ ProducerCommand (.dpbOldest true) [0x44010000#32]) ∧
  ∀ (s : State) (want : Bool), s.port = .P → s.dpbInit = true →
    ((∃ p ∈ s.slots, p.out = want) → ∃ i p, IsOldest want s.slots i p ∧
      exec (.dpbOldest want) s = .next (answered s .stOk p.poc (p.frameNum.setWidth 32) (piw p))) ∧
    ((∀ p ∈ s.slots, p.out ≠ want) → exec (.dpbOldest want) s = .next (answered s .stOk))

/-- R174, R175: `DPB_NEIGH` answers with the nearest buffered picture below the query and the nearest above, in both policies; a
picture at the query is neither; no state changes. -/
def Obligations.DpbNeigh : Prop :=
  (∀ poc : Word, ProducerCommand (.dpbNeigh poc) [0x45000000#32, poc]) ∧
  ∀ (s : State) (poc : Word), s.port = .P → s.dpbInit = true →
    ∃ r0 r1 r2 r3, NeighbourWords (IsPrev poc s.slots) r0 r1 ∧ NeighbourWords (IsNext poc s.slots) r2 r3 ∧
      exec (.dpbNeigh poc) s = .next (answered s .stOk r0 r1 r2 r3)

/-- No `DPB_ADD`, `DPB_BUMP` or `DPB_FLUSH` outputs a picture twice or loses one: what it appends to `PICOUT` are pictures that
were not yet output, as output, and each picture not yet output before, with the incoming one, is afterwards either among them
or still buffered and not yet output. The incoming picture does not count when it is dropped (`r1 = 2`) or the command fails.
`DPB_INIT` and `SRESET`, which drop what is pending without output, are not among these commands (42_dpb sections 2 to 4,
10_state sections 2 and 8). -/
def Obligations.PicturesLeaveExactlyOnce : Prop :=
  ∀ s t : State, s.port = .P → s.dpbInit = true →
    (∀ (inc : Picture) (r : Response), inc.out = false →
      exec (.dpbAdd (flagsByte inc) inc.surf inc.poc inc.frameNum) s = .next t → AnswersWith s t r →
      ∃ qs : List Picture, (∀ q ∈ qs, q.out = false) ∧ t.picout = s.picout ++ qs.map (fun q => { q with out := true }) ∧
        if r.status = .stOk ∧ r.r1 ≠ 2#32 then List.Perm (inc :: pending s.slots) (qs ++ pending t.slots)
        else List.Perm (pending s.slots) (qs ++ pending t.slots)) ∧
    (exec .dpbBump s = .next t ∨ exec .dpbFlush s = .next t →
      ∃ qs : List Picture, (∀ q ∈ qs, q.out = false) ∧ t.picout = s.picout ++ qs.map (fun q => { q with out := true }) ∧
        List.Perm (pending s.slots) (qs ++ pending t.slots))

/-! ### Reference picture lists -/

/-- R191: `RPL_UPDATE` refuses the type 3 and an IDR picture that is not of type I, ignores a B picture, starts the set over
with an IDR picture, and else enters the picture at the front, the least recently added entry leaving a full set. -/
def Obligations.RplUpdate : Prop :=
  (∀ (f : Byte) (surf n : Half) (poc : Word),
    ProducerCommand (.rplUpdate f surf poc n) [0x50#8 ++ f ++ surf, poc, 0x0000#16 ++ n]) ∧
  (∀ (s : State) (f : Byte) (surf n : Half) (poc : Word), s.port = .P → f.extractLsb' 6 2 = 0#2 →
    f.extractLsb' 4 2 = 3#2 → exec (.rplUpdate f surf poc n) s = .next (failed s .eInvalidParam)) ∧
  ∀ (s : State) (p : Picture), s.port = .P → 1 ≤ s.maxRef →
    (p.idr = true → p.type ≠ .I →
      exec (.rplUpdate (flagsByte p) p.surf p.poc p.frameNum) s = .next (failed s .eInvalidParam)) ∧
    (p.idr = false → p.type = .B →
      exec (.rplUpdate (flagsByte p) p.surf p.poc p.frameNum) s = .next (answered s .stOk (u32 s.refset.length))) ∧
    (p.idr = true → p.type = .I →
      exec (.rplUpdate (flagsByte p) p.surf p.poc p.frameNum) s =
        .next (answered { s with refset := [⟨p.frameNum, p.poc, p.surf⟩] } .stOk 1#32 (u32 s.refset.length))) ∧
    (p.idr = false → p.type ≠ .B → s.refset.length = s.maxRef →
      exec (.rplUpdate (flagsByte p) p.surf p.poc p.frameNum) s =
        .next (answered { s with refset := ⟨p.frameNum, p.poc, p.surf⟩ :: s.refset.take (s.maxRef - 1) }
          .stOk (u32 s.maxRef) 1#32)) ∧
    (p.idr = false → p.type ≠ .B → s.refset.length ≠ s.maxRef →
      exec (.rplUpdate (flagsByte p) p.surf p.poc p.frameNum) s =
        .next (answered { s with refset := ⟨p.frameNum, p.poc, p.surf⟩ :: s.refset } .stOk (u32 (s.refset.length + 1))))

/-- R194, R195: `RPL_INIT` latches the set, most recent first and cut to `max_l0`, as list 0 of a P picture, and empty lists for
an I picture; list 1 stays empty; a B picture is `E_UNSUPPORTED`. `RPL_READ` answers one live entry and changes nothing. -/
def Obligations.RplInitAndRead : Prop :=
  (∀ f : Byte, ProducerCommand (.rplInit f) [0x51#8 ++ f ++ 0#16]) ∧
  (∀ (which : BitVec 2) (index : Half), ProducerCommand (.rplRead which index) [0x52#8 ++ 0#6 ++ which ++ index]) ∧
  (∀ (s : State) (f : Byte), s.port = .P → f.extractLsb' 6 2 = 0#2 →
    (f.extractLsb' 4 2 = 3#2 → exec (.rplInit f) s = .next (failed s .eInvalidParam)) ∧
    (f.extractLsb' 4 2 = 2#2 → exec (.rplInit f) s = .next (failed s .eUnsupported)) ∧
    (f.extractLsb' 4 2 = 0#2 → exec (.rplInit f) s = .next (answered { s with l0 := [], l1 := [] } .stOk)) ∧
    (f.extractLsb' 4 2 = 1#2 →
      exec (.rplInit f) s =
        .next (answered { s with l0 := s.refset.take s.maxL0, l1 := [] } .stOk (u32 (min s.refset.length s.maxL0))))) ∧
  ∀ (s : State) (which : BitVec 2) (index : Half), s.port = .P →
    (which = 3#2 → exec (.rplRead which index) s = .next (failed s .eInvalidParam)) ∧
    ∀ l : List RefEntry, (which = 0#2 ∧ l = s.refset ∨ which = 1#2 ∧ l = s.l0 ∨ which = 2#2 ∧ l = s.l1) →
      (l.length ≤ index.toNat → exec (.rplRead which index) s = .next (failed s .eInvalidParam)) ∧
      ∀ e, l[index.toNat]? = some e →
        exec (.rplRead which index) s = .next (answered s .stOk e.poc (e.frameNum.setWidth 32) (refPiw e))

/-! ### Reordering and the output queue -/

/-- R208, R210, R211, R212: `ROP_ENQ` on a queue with room. The picture is an IDR picture when it is the first, is forced, or
the key-frame period has elapsed; an IDR picture restarts the counters before it is numbered; type, `poc` and `frame_num` come
from the counters, which then advance; the machine is in `DUMP_FRAMES`. On a full queue it fails and changes no counter. -/
def Obligations.RopEnq : Prop :=
  (∀ surf : Half, ProducerCommand (.ropEnq false surf) [0x6000#16 ++ surf] ∧ ProducerCommand (.ropEnq true surf) [0x6001#16 ++ surf]) ∧
  ∀ (s : State) (force : Bool) (surf : Half), s.port = .P →
    (s.roq.length = s.cfg.roqDepth → exec (.ropEnq force surf) s = .next (failed s .eFull)) ∧
    ∀ (idr : Bool) (fi fn pi : Word) (p : Picture), s.roq.length ≠ s.cfg.roqDepth →
      (idr = true ↔ s.seenFirst = false ∨ force = true ∨ s.keyPeriod ≠ 0#32 ∧ s.keyPeriod.toNat ≤ s.frameIdx.toNat) →
      (fi = if idr then 0#32 else s.frameIdx) → (fn = if idr then 0#32 else s.frameNumCtr) →
      (pi = if idr then 0#32 else s.presIdx) →
      p.poc.toNat = (pi.toNat * s.cfg.pocStep) % 2 ^ s.cfg.pocBits % 2 ^ 32 →
      p.frameNum.toNat = fn.toNat % 2 ^ log2mfn s.keyPeriod →
      (p.type = if idr ∨ s.intraPeriod ≠ 0#32 ∧ fi.toNat % s.intraPeriod.toNat = 0 then .I else .P) →
      p.ref = true → p.out = false → p.skip = false → p.idr = idr → p.surf = surf →
      ∃ ctr : Word, ctr.toNat = (fn.toNat + 1) % 2 ^ log2mfn s.keyPeriod ∧
        exec (.ropEnq force surf) s =
          .next (answered
            { s with
              roq := s.roq ++ [p], frameIdx := fi + 1#32, frameNumCtr := ctr, presIdx := pi + 1#32
              seenFirst := true, ropState := .dumpFrames }
            .stOk p.poc (p.frameNum.setWidth 32) (piw p) (u32 (s.roq.length + 1)))

/-- R214: `ROP_SUBMIT` takes the front picture of the reorder queue and answers with it; the machine returns to `WAIT_FRAMES`
exactly when the queue becomes empty; in `WAIT_FRAMES` it answers `ST_NO_DATA`. The counters are not touched. -/
def Obligations.RopSubmit : Prop :=
  ProducerCommand .ropSubmit [0x61000000#32] ∧
  ∀ s : State, s.port = .P →
    (s.ropState = .waitFrames → exec .ropSubmit s = .next (answered s .stNoData)) ∧
    ∀ p rest, s.ropState = .dumpFrames → s.roq = p :: rest →
      exec .ropSubmit s =
        .next (answered { s with roq := rest, ropState := if rest = [] then .waitFrames else .dumpFrames }
          .stOk p.poc (p.frameNum.setWidth 32) (piw p) (u32 rest.length))

/-- R217, R218: `OUTQ_PUSH` appends the operands' picture and buffer at the back, with `eof` set, and `sync` exactly for an I
picture; a full queue and the type 3 are refused. -/
def Obligations.OutqPush : Prop :=
  (∀ (f : Byte) (surf n : Half) (poc buf : Word),
    ProducerCommand (.outqPush f surf poc n buf) [0x62#8 ++ f ++ surf, poc, 0x0000#16 ++ n, buf]) ∧
  (∀ (s : State) (f : Byte) (surf n : Half) (poc buf : Word), s.port = .P → f.extractLsb' 6 2 = 0#2 →
    f.extractLsb' 4 2 = 3#2 → exec (.outqPush f surf poc n buf) s = .next (failed s .eInvalidParam)) ∧
  ∀ (s : State) (p : Picture) (buf : Word), s.port = .P →
    (s.outq.length = s.cfg.outqDepth →
      exec (.outqPush (flagsByte p) p.surf p.poc p.frameNum buf) s = .next (failed s .eFull)) ∧
    (s.outq.length ≠ s.cfg.outqDepth → ∀ sync : Bool, (sync = true ↔ p.type = .I) →
      exec (.outqPush (flagsByte p) p.surf p.poc p.frameNum buf) s =
        .next (answered { s with outq := s.outq ++ [⟨p, buf, true, sync⟩] } .stOk (u32 (s.outq.length + 1))))

/-- R220, R221, R222: `OUTQ_PEEK` answers with the front entry and changes nothing; `OUTQ_POP` removes exactly it; both run on
both ports and answer `ST_NO_DATA` on an empty queue. `OUTQ_WAIT` fails with `E_PORT` on port P; on port C it ends at once as
`OUTQ_PEEK` when an entry is present, and else is held, `c_wait` alone changing. The rest of R222 stands beside this:
`ReadyAndWaitingPorts` says how a held wait holds port C and ends, `NopAndSreset` how an `SRESET` ends it. -/
def Obligations.OutqPeekPopAndWait : Prop :=
  (encode .outqPeek = [0x63000000#32] ∧ encode .outqPop = [0x64000000#32] ∧ encode .outqWait = [0x65000000#32] ∧
    ∀ s : State, s.port = .P → exec .outqWait s = .next (failed s .ePort)) ∧
  (∀ s : State, s.outq = [] →
    exec .outqPeek s = .next (answered s .stNoData) ∧ exec .outqPop s = .next (answered s .stNoData) ∧
    (s.port = .C → exec .outqWait s = .next { s with cWait := true })) ∧
  ∀ (s : State) (e : OutEntry) (q : List OutEntry), s.outq = e :: q →
    exec .outqPeek s =
      .next (answered s .stOk e.pic.poc (e.pic.frameNum.setWidth 32) (piwWith e.sync e.eof e.pic) e.buf) ∧
    exec .outqPop s = .next (answered { s with outq := q } .stOk (u32 q.length)) ∧
    (s.port = .C → exec .outqWait s =
      .next (answered { s with cWait := false } .stOk e.pic.poc (e.pic.frameNum.setWidth 32)
        (piwWith e.sync e.eof e.pic) e.buf))

/-- Only `OUTQ_POP` and `SRESET` remove an entry, and a push appends at the back: whatever else is executed, the entries in the
output queue stay where they are, so the entry popped is the entry peeked (20_memory section 5). -/
def Obligations.FrontOfTheOutputQueueIsStable : Prop :=
  ∀ (i : Instr) (s t : State), exec i s = .next t → i ≠ .outqPop → i ≠ .sreset → s.outq <+: t.outq
end

