-- ==== Sys2Proof/Laws/Memory.lean ====
section
/-! SUPPORT. Laws of the byte buffers: every operation keeps the canonical form, a read after a write, the bit operations
position by position, and that equal contents are equal buffers. -/

namespace Sys2Proof.Machine

/-! ### Reading and writing bytes -/

theorem Memory.wf_nil : Memory.wf [] := by simp [Memory.wf]

/-- The canonical form of a cell and the cells after it. -/
theorem Memory.wf_cons (a : Nat) (b : Byte) (m : Memory) :
    Memory.wf ((a, b) :: m) ↔ (∀ c ∈ m, a < c.1) ∧ b ≠ 0#8 ∧ Memory.wf m := by
  simp only [Memory.wf, List.pairwise_cons, List.forall_mem_cons]
  tauto

/-- A buffer whose indices all lie above `i` reads 0 at `i`. -/
theorem Memory.read_below (m : Memory) (i : Nat) (h : ∀ c ∈ m, i < c.1) : Memory.read m i = 0#8 := by
  induction m with
  | nil => rfl
  | cons c m ih =>
    obtain ⟨a, b⟩ := c
    have ha : i < a := h (a, b) (by simp)
    simp only [Memory.read]
    rw [if_neg (by omega)]
    exact ih fun c hc => h c (by simp [hc])

/-- A write adds no index but its own. -/
theorem Memory.mem_write (m : Memory) (i : Nat) (v : Byte) (c : Host.Cell) (h : c ∈ Memory.write m i v) :
    c = (i, v) ∧ v ≠ 0#8 ∨ c ∈ m := by
  induction m with
  | nil =>
    simp only [Memory.write] at h
    split at h <;> simp_all
  | cons d m ih =>
    obtain ⟨a, b⟩ := d
    simp only [Memory.write] at h
    split at h
    · split at h <;> simp_all
    · split at h
      · split at h
        · simp_all
        · rcases List.mem_cons.1 h with h | h
          · exact .inl ⟨h, ‹_›⟩
          · exact .inr (by simp [h])
      · rcases List.mem_cons.1 h with h | h
        · exact .inr (by simp [h])
        · rcases ih h with h | h
          · exact .inl h
          · exact .inr (by simp [h])

/-- A write keeps the canonical form. -/
theorem Memory.wf_write {m : Memory} (h : Memory.wf m) (i : Nat) (v : Byte) : Memory.wf (Memory.write m i v) := by
  induction m with
  | nil =>
    simp only [Memory.write]
    split <;> simp_all [Memory.wf]
  | cons d m ih =>
    obtain ⟨a, b⟩ := d
    obtain ⟨ha, hb, hm⟩ := (Memory.wf_cons a b m).1 h
    simp only [Memory.write]
    split
    · split
      · exact h
      · refine (Memory.wf_cons _ _ _).2 ⟨?_, ‹_›, h⟩
        intro c hc
        rcases List.mem_cons.1 hc with rfl | hc
        · assumption
        · exact lt_trans ‹_› (ha c hc)
    · split
      · split
        · exact hm
        · subst_vars
          exact (Memory.wf_cons _ _ _).2 ⟨ha, ‹_›, hm⟩
      · refine (Memory.wf_cons _ _ _).2 ⟨?_, hb, ih hm⟩
        intro c hc
        rcases Memory.mem_write m i v c hc with ⟨rfl, -⟩ | hc
        · show a < i
          omega
        · exact ha c hc

/-- A read after a write: the byte written at its index, the old byte everywhere else. -/
theorem Memory.read_write {m : Memory} (h : Memory.wf m) (i : Nat) (v : Byte) (j : Nat) :
    Memory.read (Memory.write m i v) j = if j = i then v else Memory.read m j := by
  induction m with
  | nil =>
    by_cases hv : v = 0#8
    · simp [Memory.write, Memory.read, hv]
    · by_cases hj : j = i
      · simp [Memory.write, Memory.read, hv, hj]
      · simp [Memory.write, Memory.read, hv, hj, Ne.symm hj]
  | cons d m ih =>
    obtain ⟨a, b⟩ := d
    obtain ⟨ha, -, hm⟩ := (Memory.wf_cons a b m).1 h
    have below : ∀ k, k ≤ a → Memory.read m k = 0#8 := fun k hk =>
      Memory.read_below m k fun c hc => lt_of_le_of_lt hk (ha c hc)
    have e := ih hm
    simp only [Memory.write]
    rcases Nat.lt_trichotomy i a with hi | hi | hi
    · have hz := below i (by omega)
      rw [if_pos hi]
      split <;> simp only [Memory.read] <;> split_ifs <;> first | rfl | omega | simp_all
    · subst hi
      have hz := below i le_rfl
      rw [if_neg (by omega), if_pos rfl]
      split <;> simp only [Memory.read] <;> split_ifs <;> first | rfl | omega | simp_all
    · rw [if_neg (by omega), if_neg (by omega)]
      simp only [Memory.read, e]
      split_ifs <;> first | rfl | omega

/-- Equal contents are equal buffers. -/
theorem Memory.ext_read {m m' : Memory} (h : Memory.wf m) (h' : Memory.wf m')
    (e : ∀ i, Memory.read m i = Memory.read m' i) : m = m' := by
  induction m generalizing m' with
  | nil =>
    cases m' with
    | nil => rfl
    | cons d m' =>
      obtain ⟨a, b⟩ := d
      have hb := ((Memory.wf_cons a b m').1 h').2.1
      have := e a
      simp [Memory.read] at this
      exact absurd this.symm hb
  | cons c m ih =>
    obtain ⟨a, b⟩ := c
    obtain ⟨ha, hb, hm⟩ := (Memory.wf_cons a b m).1 h
    cases m' with
    | nil =>
      have := e a
      simp [Memory.read] at this
      exact absurd this hb
    | cons d m' =>
      obtain ⟨a', b'⟩ := d
      obtain ⟨ha', hb', hm'⟩ := (Memory.wf_cons a' b' m').1 h'
      have haa : a = a' := by
        rcases Nat.lt_trichotomy a a' with hl | hl | hl
        · have e1 := e a
          rw [Memory.read_below ((a', b') :: m') a (by
            intro c hc
            rcases List.mem_cons.1 hc with rfl | hc
            · exact hl
            · exact lt_trans hl (ha' c hc))] at e1
          simp [Memory.read] at e1
          exact absurd e1 hb
        · exact hl
        · have e1 := e a'
          rw [Memory.read_below ((a, b) :: m) a' (by
            intro c hc
            rcases List.mem_cons.1 hc with rfl | hc
            · exact hl
            · exact lt_trans hl (ha c hc))] at e1
          simp [Memory.read] at e1
          exact absurd e1.symm hb'
      subst haa
      have hbb : b = b' := by simpa [Memory.read] using e a
      subst hbb
      congr 1
      refine ih hm hm' fun i => ?_
      by_cases hi : i = a
      · subst hi
        rw [Memory.read_below m i ha, Memory.read_below m' i ha']
      · have := e i
        simpa [Memory.read, Ne.symm hi] using this

/-! ### A buffer made of a byte list -/

theorem Memory.ofBytesAt_above (i : Nat) (bs : List Byte) (c : Host.Cell) (h : c ∈ Memory.ofBytesAt i bs) :
    i ≤ c.1 := by
  induction bs generalizing i with
  | nil => simp [Memory.ofBytesAt] at h
  | cons b bs ih =>
    simp only [Memory.ofBytesAt] at h
    split at h
    · exact le_trans (by omega) (ih _ h)
    · rcases List.mem_cons.1 h with rfl | h
      · exact le_refl _
      · exact le_trans (by omega) (ih _ h)

theorem Memory.wf_ofBytesAt (i : Nat) (bs : List Byte) : Memory.wf (Memory.ofBytesAt i bs) := by
  induction bs generalizing i with
  | nil => exact Memory.wf_nil
  | cons b bs ih =>
    simp only [Memory.ofBytesAt]
    split
    · exact ih _
    · exact (Memory.wf_cons _ _ _).2 ⟨fun c hc => Memory.ofBytesAt_above _ _ c hc, ‹_›, ih _⟩

/-- The canonical form of a buffer made of a byte list. -/
theorem Memory.wf_ofBytes (bs : List Byte) : Memory.wf (Memory.ofBytes bs) := Memory.wf_ofBytesAt 0 bs

theorem Memory.read_ofBytesAt (i : Nat) (bs : List Byte) (j : Nat) :
    Memory.read (Memory.ofBytesAt i bs) j = if i ≤ j then bs.getD (j - i) 0#8 else 0#8 := by
  induction bs generalizing i with
  | nil => simp [Memory.ofBytesAt, Memory.read]
  | cons b bs ih =>
    have step : ∀ k, i + 1 ≤ k → (b :: bs).getD (k - i) 0#8 = bs.getD (k - (i + 1)) 0#8 := by
      intro k hk
      obtain ⟨d, rfl⟩ : ∃ d, k = i + 1 + d := ⟨k - (i + 1), by omega⟩
      rw [show i + 1 + d - i = d + 1 by omega, show i + 1 + d - (i + 1) = d by omega]
      simp
    simp only [Memory.ofBytesAt]
    rcases Nat.lt_trichotomy j i with hj | hj | hj
    · have h1 : Memory.read (Memory.ofBytesAt (i + 1) bs) j = 0#8 := by
        rw [ih, if_neg (by omega)]
      split
      · rw [h1, if_neg (by omega)]
      · simp only [Memory.read]
        rw [if_neg (by omega), h1, if_neg (by omega)]
    · subst hj
      split
      · rw [ih, if_neg (by omega)]
        simp_all
      · simp [Memory.read]
    · rw [if_pos (show i ≤ j by omega), step j (by omega)]
      split
      · rw [ih, if_pos (by omega)]
      · simp only [Memory.read]
        rw [if_neg (by omega), ih, if_pos (by omega)]

/-- What a buffer made of a byte list reads as. -/
theorem Memory.read_ofBytes (bs : List Byte) (j : Nat) : Memory.read (Memory.ofBytes bs) j = bs.getD j 0#8 := by
  simp [Memory.ofBytes, Memory.read_ofBytesAt]

@[simp] theorem Memory.length_bytes (m : Memory) (n : Nat) : (Memory.bytes m n).length = n := by
  simp [Memory.bytes]

theorem Memory.getD_bytes (m : Memory) (n i : Nat) (h : i < n) : (Memory.bytes m n).getD i 0#8 = Memory.read m i := by
  simp [Memory.bytes, List.getD_eq_getElem?_getD, h]

/-- The bytes of a buffer made of a byte list are that list. -/
@[simp] theorem Memory.bytes_ofBytes (bs : List Byte) : Memory.bytes (Memory.ofBytes bs) bs.length = bs := by
  apply List.ext_getElem
  · simp
  · intro i h1 h2
    simp [Memory.bytes, Memory.read_ofBytes, List.getD_eq_getElem?_getD, h2]

/-! ### Bits -/

/-- Setting a bit sets that bit and leaves every other. -/
theorem bitAt_setBit {m : Memory} (h : Memory.wf m) (p : Nat) (b : Bool) (q : Nat) :
    bitAt (setBit m p b) q = if q = p then b else bitAt m q := by
  simp only [bitAt, setBit]
  rw [Memory.read_write h]
  by_cases hq : q / 8 = p / 8
  · rw [if_pos hq, hq]
    have key : ∀ (x : Byte) (k k' : Nat), k < 8 → k' < 8 →
        (if b then x ||| (1#8 <<< k) else x &&& ~~~(1#8 <<< k)).getLsbD k' = if k' = k then b else x.getLsbD k' := by
      intro x k k' hk hk'
      cases b <;> simp <;> interval_cases k <;> interval_cases k' <;> simp
    rw [key _ _ _ (by omega) (by omega)]
    by_cases hqp : q = p
    · simp [hqp]
    · rw [if_neg hqp, if_neg (by omega)]
  · rw [if_neg hq, if_neg (by intro e; exact hq (by rw [e]))]

theorem wf_setBit {m : Memory} (h : Memory.wf m) (p : Nat) (b : Bool) : Memory.wf (setBit m p b) :=
  Memory.wf_write h _ _

/-- A field write keeps the canonical form. -/
theorem wf_bitWrite {m : Memory} (h : Memory.wf m) (p n v : Nat) : Memory.wf (bitWrite m p n v) := by
  induction n generalizing m p with
  | zero => exact h
  | succ n ih => exact ih (wf_setBit h _ _) _

/-- A field write, bit by bit: the first bit of the field is the most significant. -/
theorem bitAt_bitWrite {m : Memory} (h : Memory.wf m) (p n v q : Nat) :
    bitAt (bitWrite m p n v) q = if p ≤ q ∧ q < p + n then v.testBit (p + n - 1 - q) else bitAt m q := by
  induction n generalizing m p with
  | zero => simp [bitWrite]
  | succ n ih =>
    simp only [bitWrite]
    rw [ih (wf_setBit h _ _), bitAt_setBit h]
    by_cases hq : q = p
    · subst hq
      rw [if_neg (by omega), if_pos rfl, if_pos (by omega)]
      congr 1
      omega
    · by_cases hr : p + 1 ≤ q ∧ q < p + 1 + n
      · rw [if_pos hr, if_pos (by omega)]
        congr 1
        omega
      · rw [if_neg hr, if_neg hq, if_neg (by omega)]

/-- Eight bits make a byte. -/
theorem read_eq_of_bits {m m' : Memory} (a : Nat) (h : ∀ q, q / 8 = a → bitAt m q = bitAt m' q) :
    Memory.read m a = Memory.read m' a := by
  apply BitVec.eq_of_getLsbD_eq
  intro k hk
  have := h (8 * a + (7 - k)) (by omega)
  simp only [bitAt] at this
  rwa [show (8 * a + (7 - k)) / 8 = a by omega, show 7 - (8 * a + (7 - k)) % 8 = k by omega] at this

/-- A field write leaves every byte the field does not touch. -/
theorem read_bitWrite {m : Memory} (h : Memory.wf m) (p n v a : Nat) (ha : 8 * a + 8 ≤ p ∨ p + n ≤ 8 * a) :
    Memory.read (bitWrite m p n v) a = Memory.read m a :=
  read_eq_of_bits a fun q hq => by rw [bitAt_bitWrite h, if_neg (by omega)]

/-- A field of `n` bits is below `2^n`. -/
theorem bitRead_lt (m : Memory) (p n : Nat) : bitRead m p n < 2 ^ n := by
  induction n generalizing p with
  | zero => simp [bitRead]
  | succ n ih =>
    have := ih (p + 1)
    have hb : (bitAt m p).toNat ≤ 1 := Bool.toNat_le _
    simp only [bitRead, pow_succ]
    nlinarith [Nat.mul_le_mul_right (2 ^ n) hb]

/-- A field read, bit by bit. -/
theorem testBit_bitRead (m : Memory) (p n j : Nat) :
    (bitRead m p n).testBit j = if j < n then bitAt m (p + n - 1 - j) else false := by
  induction n generalizing p with
  | zero => simp [bitRead]
  | succ n ih =>
    simp only [bitRead]
    rw [show (bitAt m p).toNat * 2 ^ n = 2 ^ n * (bitAt m p).toNat by ring,
      Nat.testBit_two_pow_mul_add _ (bitRead_lt m (p + 1) n), ih]
    rcases Nat.lt_trichotomy j n with hj | hj | hj
    · rw [if_pos hj, if_pos hj, if_pos (by omega)]
      congr 1
      omega
    · subst hj
      rw [if_neg (by omega), if_pos (by omega)]
      simp
      cases bitAt m p <;> simp
    · rw [if_neg (by omega), if_neg (by omega)]
      cases bitAt m p
      · simp
      · rw [Bool.toNat_true, show (1 : Nat) = 2 ^ 0 from rfl, Nat.testBit_two_pow_of_ne (by omega)]

end Sys2Proof.Machine
end

