-- ==== Sys2Proof/Laws/Codes.lean ====
section
/-! SUPPORT. Laws of the codes: what the Exp-Golomb reader finds, in terms of the bits it looks at; the mapping of signed
values; the lengths of the emulation-prevention transforms. -/

namespace Sys2Proof.Machine

/-! ### The Exp-Golomb reader -/

/-- The loop stops at the first one, at the end of the bits, or when its turns are used up, having passed zeros only. -/
theorem countZeros_spec (m : Memory) (p avail fuel n : Nat) :
    n ≤ countZeros m p avail fuel n ∧ countZeros m p avail fuel n ≤ n + fuel ∧
    (∀ k, n ≤ k → k < countZeros m p avail fuel n → k < avail ∧ bitAt m (p + k) = false) ∧
    (countZeros m p avail fuel n = n + fuel ∨ avail ≤ countZeros m p avail fuel n ∨
      bitAt m (p + countZeros m p avail fuel n) = true) := by
  induction fuel generalizing n with
  | zero => refine ⟨le_rfl, le_rfl, fun k h1 h2 => ?_, .inl rfl⟩; simp [countZeros] at h2; omega
  | succ fuel ih =>
    simp only [countZeros]
    split
    · obtain ⟨h1, h2, h3, h4⟩ := ih (n + 1)
      refine ⟨by omega, by omega, fun k hk hk' => ?_, ?_⟩
      · by_cases hkn : k = n
        · subst hkn; assumption
        · exact h3 k (by omega) hk'
      · rcases h4 with h4 | h4
        · exact .inl (by omega)
        · exact .inr h4
    · rename_i h
      refine ⟨le_rfl, by omega, fun k h1 h2 => by omega, .inr ?_⟩
      by_cases ha : n < avail
      · right; simpa [ha] using h
      · left; omega

/-- What one code word reads as: the four outcomes of R146, told by the bits. -/
theorem readUe_spec (m : Memory) (p avail : Nat) :
    (32 ≤ avail ∧ (∀ k, k < 32 → bitAt m (p + k) = false) ∧ readUe m p avail = .range) ∨
    (avail < 32 ∧ (∀ k, k < avail → bitAt m (p + k) = false) ∧ readUe m p avail = .underrun) ∨
    (∃ n, n < 32 ∧ n < avail ∧ CodePrefix m p n ∧
      readUe m p avail =
        if 2 * n + 1 ≤ avail then .value (bitRead m (p + n) (n + 1) - 1) (2 * n + 1) else .underrun) := by
  obtain ⟨-, h2, h3, h4⟩ := countZeros_spec m p avail 32 0
  unfold readUe
  generalize countZeros m p avail 32 0 = n at *
  simp only [Nat.zero_add, Nat.zero_le, true_implies] at *
  by_cases hn : n = 32
  · left
    subst hn
    exact ⟨by have := (h3 31 (by omega)).1; omega, fun k hk => (h3 k hk).2, by simp⟩
  · by_cases ha : n = avail
    · right; left
      subst ha
      exact ⟨by omega, fun k hk => (h3 k hk).2, by simp [hn]⟩
    · right; right
      have hlt : n < avail := by
        rcases Nat.lt_or_ge n avail with h | h
        · exact h
        · exfalso
          have := (h3 avail (by omega)).1
          omega
      refine ⟨n, by omega, hlt, ⟨fun k hk => (h3 k hk).2, ?_⟩, ?_⟩
      · rcases h4 with h4 | h4 | h4
        · exact absurd h4 hn
        · omega
        · exact h4
      · simp only [hn, ha, if_false]
        split_ifs <;> first | rfl | omega

/-! ### Signed values -/

theorem ueToSe_seToUe (v : Int) : ueToSe (seToUe v) = v := by
  unfold ueToSe seToUe
  split_ifs <;> omega

theorem seToUe_ueToSe (k : Nat) : seToUe (ueToSe k) = k := by
  unfold ueToSe seToUe
  split_ifs <;> omega

/-! ### The width of a code -/

/-- `bitLength` brackets its argument between two powers of two. -/
theorem bitLength_bounds (c : Nat) (h : 1 ≤ c) :
    1 ≤ bitLength c ∧ 2 ^ (bitLength c - 1) ≤ c ∧ c < 2 ^ bitLength c := by
  have hc : c ≠ 0 := by omega
  simp only [bitLength, hc, if_false]
  exact ⟨by omega, by simpa using Nat.log2_self_le hc, Nat.lt_log2_self⟩

/-! ### Lengths of the transforms -/

theorem length_unescape_le (z : Nat) (e : List Byte) : (unescape z e).length ≤ e.length := by
  induction e generalizing z with
  | nil => simp [unescape]
  | cons b e ih =>
    simp only [unescape]
    split
    · exact le_trans (ih _) (by simp)
    · simpa using ih _

/-- Each insertion needs two zero bytes copied since the last one. -/
theorem length_escape_le (z : Nat) (r : List Byte) (hz : z ≤ 2) :
    2 * (escape z r).length ≤ 3 * r.length + (z - (if r = [] then z else 0)) := by
  induction r generalizing z with
  | nil => simp [escape]
  | cons b r ih =>
    have e1 := ih 1 (by omega)
    have e0 := ih 0 (by omega)
    simp only [escape]
    split
    · rename_i h
      by_cases hb : b = 0x00#8
      · simp only [nextZeros, hb, if_true, List.length_cons, reduceCtorEq, if_false]
        simp only [Nat.zero_add]
        split_ifs at e1 <;> omega
      · simp only [nextZeros, hb, if_false, List.length_cons, reduceCtorEq]
        split_ifs at e0 <;> omega
    · rename_i h
      by_cases hb : b = 0x00#8
      · have hz2 : z < 2 := by
          by_contra hc
          exact h ⟨by omega, by simp [hb]⟩
        have ez := ih (z + 1) (by omega)
        simp only [nextZeros, hb, if_true, List.length_cons, reduceCtorEq, if_false]
        split_ifs at ez <;> omega
      · simp only [nextZeros, hb, if_false, List.length_cons, reduceCtorEq]
        split_ifs at e0 <;> omega

/-- `EMU_CAP_BYTES` suffices (40_bitstream_writer R123). -/
theorem length_epb_le (r : List Byte) : (epb r).length ≤ 4 + r.length + r.length / 2 := by
  have := length_escape_le 0 r (by omega)
  simp only [epb, startCode, List.length_append, List.length_cons, List.length_nil]
  split_ifs at this <;> omega

end Sys2Proof.Machine
end

