-- ==== Sys2Proof/Laws/Decode.lean ====
section
/-! SUPPORT. Laws of the encoding: the fields of a command word, the short operands, and that the rows of the opcode table do
not overlap. -/

namespace Sys2Proof

/-- A command word bit by bit. -/
theorem getLsbD_word0 (op f : Byte) (h : Half) (i : Nat) :
    (word0 op f h).getLsbD i =
      if i < 16 then h.getLsbD i else if i < 24 then f.getLsbD (i - 16) else op.getLsbD (i - 24) := by
  show (op ++ f ++ h).getLsbD i = _
  rw [BitVec.getLsbD_append, BitVec.getLsbD_append]
  split
  · rfl
  · split
    · rw [if_pos (by omega)]
    · rw [if_neg (by omega), show i - 16 - 8 = i - 24 by omega]

@[simp] theorem opOf_word0 (op f : Byte) (h : Half) : opOf (word0 op f h) = op := by
  apply BitVec.eq_of_getLsbD_eq
  intro i hi
  rw [opOf, BitVec.getLsbD_extractLsb', getLsbD_word0, if_neg (by omega), if_neg (by omega)]
  simp [hi, show 24 + i - 24 = i by omega]

/-- The length of a packet that starts with this command word. -/
theorem packetLen_word0 (op f : Byte) (h : Half) : packetLen (opOf (word0 op f h)) = packetLen op := by
  rw [opOf_word0]

@[simp] theorem fOf_word0 (op f : Byte) (h : Half) : fOf (word0 op f h) = f := by
  apply BitVec.eq_of_getLsbD_eq
  intro i hi
  rw [fOf, BitVec.getLsbD_extractLsb', getLsbD_word0, if_neg (by omega), if_pos (by omega)]
  simp [hi, show 16 + i - 16 = i by omega]

@[simp] theorem hOf_word0 (op f : Byte) (h : Half) : hOf (word0 op f h) = h := by
  apply BitVec.eq_of_getLsbD_eq
  intro i hi
  rw [hOf, BitVec.getLsbD_extractLsb', getLsbD_word0, if_pos (by omega)]
  simp [hi]

/-- A command word is its three fields. -/
theorem word0_fields (w : Word) : word0 (opOf w) (fOf w) (hOf w) = w := by
  apply BitVec.eq_of_getLsbD_eq
  intro i hi
  rw [getLsbD_word0]
  split
  · simp [hOf, *]
  · split
    · simp [fOf, show i - 16 < 8 by omega, show 16 + (i - 16) = i by omega]
    · simp [opOf, show i - 24 < 8 by omega, show 24 + (i - 24) = i by omega]

/-- A `frame_num` word bit by bit. -/
theorem getLsbD_frameNumWord (n : Half) (i : Nat) :
    (frameNumWord n).getLsbD i = if i < 16 then n.getLsbD i else false := by
  show (0#16 ++ n).getLsbD i = _
  rw [BitVec.getLsbD_append]
  split <;> simp_all

@[simp] theorem frameNumOf_frameNumWord (n : Half) : frameNumOf (frameNumWord n) = n := by
  apply BitVec.eq_of_getLsbD_eq
  intro i hi
  simp [frameNumOf, getLsbD_frameNumWord, hi]

@[simp] theorem frameNumReservedClear_frameNumWord (n : Half) : frameNumReservedClear (frameNumWord n) = true := by
  simp only [frameNumReservedClear, beq_iff_eq]
  apply BitVec.eq_of_getLsbD_eq
  intro i hi
  simp [getLsbD_frameNumWord]

/-- A `frame_num` word with clear reserved bits is its `frame_num`. -/
theorem frameNumWord_frameNumOf (w : Word) (h : frameNumReservedClear w = true) : frameNumWord (frameNumOf w) = w := by
  simp only [frameNumReservedClear, beq_iff_eq] at h
  apply BitVec.eq_of_getLsbD_eq
  intro i hi
  rw [getLsbD_frameNumWord]
  split
  · simp [frameNumOf, *]
  · have := congrArg (fun v => v.getLsbD (i - 16)) h
    simp only [BitVec.getLsbD_extractLsb', BitVec.getLsbD_zero] at this
    rw [show 16 + (i - 16) = i by omega] at this
    simpa [show i - 16 < 16 by omega] using this.symm

/-! ### A port made idle -/

@[simp] theorem dropPartial_of_none {ws : List Word} (h : takePacket ws = none) : dropPartial ws = [] := by
  simp [dropPartial, h]

@[simp] theorem dropPartial_of_some {ws : List Word} {r : List Word × List Word} (h : takePacket ws = some r) :
    dropPartial ws = ws := by
  simp [dropPartial, h]

/-- Making a port idle drops all its words or none, and leaves no packet partly received. -/
theorem dropPartial_cases (ws : List Word) :
    takePacket ws = none ∧ dropPartial ws = [] ∨ (∃ r, takePacket ws = some r) ∧ dropPartial ws = ws := by
  cases h : takePacket ws <;> simp [h]

/-- What executes next on the port is the same. -/
@[simp] theorem takePacket_dropPartial (ws : List Word) : takePacket (dropPartial ws) = takePacket ws := by
  rcases dropPartial_cases ws with ⟨h, hd⟩ | ⟨_, hd⟩ <;> rw [hd]
  rw [h]; rfl

theorem dropPartial_suffix (ws : List Word) : dropPartial ws <:+ ws := by
  rcases dropPartial_cases ws with ⟨_, hd⟩ | ⟨_, hd⟩ <;> rw [hd]
  exact List.nil_suffix

/-- No two rows of the opcode table fit one word. -/
theorem opcodeTable_disjoint :
    opcodeTable.Pairwise (fun a b => (a.pattern ^^^ b.pattern) &&& a.mask &&& b.mask ≠ 0#32) := by
  decide

/-- Each row's pattern lies in its mask, its opcode is fixed, and its length is that of its opcode. -/
theorem opcodeTable_rows :
    ∀ r ∈ opcodeTable, r.pattern &&& ~~~r.mask = 0#32 ∧ opOf r.mask = 0xFF#8 ∧ r.words = packetLen (opOf r.pattern) := by
  decide

end Sys2Proof
end

