-- ==== Sys2Proof/Laws/Dpb.lean ====
section
/-! SUPPORT. Laws of the DPB's primitives: what `oldest`, `removeSlot`, `bump`, `gc`, `makeRoom`, `bumpAll`, `prevOf` and
`nextOf` do, once, in the relations of Safety.lean; and that the loops' turns suffice (log 26). -/

namespace Sys2Proof.Machine

theorem pocLt_iff (a b : Word) : pocLt a b = true ↔ a.toInt < b.toInt := by simp [pocLt]

/-! ### `Oldest` -/

/-- What the loop carries: the choice among the slots already seen. -/
def OldestSoFar (want : Bool) (pre : List Picture) : Option (Nat × Picture) → Prop
  | none => ∀ q ∈ pre, q.out ≠ want
  | some (i, p) => IsOldest want pre i p

/-- One slot more that is not a candidate. -/
theorem IsOldest.skip {want : Bool} {pre : List Picture} {i : Nat} {p x : Picture} (h : IsOldest want pre i p)
    (hx : x.out = want → p.poc.toInt ≤ x.poc.toInt) : IsOldest want (pre ++ [x]) i p := by
  obtain ⟨h1, h2, h3⟩ := h
  have hi : i < pre.length := (List.getElem?_eq_some_iff.1 h1).1
  refine ⟨by rw [List.getElem?_append_left hi, h1], h2, fun j q hj hq => ?_⟩
  rcases Nat.lt_or_ge j pre.length with hl | hl
  · rw [List.getElem?_append_left hl] at hj
    exact h3 j q hj hq
  · rw [List.getElem?_append_right hl] at hj
    obtain ⟨hjl, e⟩ := List.getElem?_eq_some_iff.1 hj
    simp at hjl e
    subst e
    exact ⟨hx hq, fun _ => by omega⟩

/-- One slot more that wins. -/
theorem IsOldest.take {want : Bool} {pre : List Picture} {x : Picture} (hx : x.out = want)
    (h : ∀ q ∈ pre, q.out = want → x.poc.toInt < q.poc.toInt) : IsOldest want (pre ++ [x]) pre.length x := by
  refine ⟨by simp, hx, fun j q hj hq => ?_⟩
  rcases Nat.lt_or_ge j pre.length with hl | hl
  · rw [List.getElem?_append_left hl] at hj
    have := h q (List.mem_of_getElem? hj) hq
    exact ⟨by omega, fun e => by omega⟩
  · rw [List.getElem?_append_right hl] at hj
    obtain ⟨hjl, e⟩ := List.getElem?_eq_some_iff.1 hj
    simp at hjl e
    subst e
    exact ⟨le_rfl, fun _ => by omega⟩

theorem oldestFrom_spec (want : Bool) (l pre : List Picture) (best : Option (Nat × Picture))
    (h : OldestSoFar want pre best) : OldestSoFar want (pre ++ l) (oldestFrom want l pre.length best) := by
  induction l generalizing pre best with
  | nil => simpa [oldestFrom] using h
  | cons x l ih =>
    have e : pre ++ x :: l = (pre ++ [x]) ++ l := by simp
    have next : ∀ b, OldestSoFar want (pre ++ [x]) b →
        OldestSoFar want (pre ++ x :: l) (oldestFrom want l (pre.length + 1) b) := by
      intro b hb
      have := ih (pre ++ [x]) b hb
      rwa [List.length_append, List.length_singleton, ← e] at this
    simp only [oldestFrom]
    split
    · rename_i hx
      apply next
      cases best with
      | none => intro q hq; rcases List.mem_append.1 hq with hq | hq
                · exact h q hq
                · simp at hq; subst hq; exact hx
      | some b => exact IsOldest.skip h fun e => absurd e hx
    · rename_i hx
      have hx : x.out = want := by simpa using hx
      cases best with
      | none => exact next _ (IsOldest.take hx fun q hq e => absurd e (h q hq))
      | some b =>
        obtain ⟨j, q⟩ := b
        simp only
        split
        · rename_i hlt
          rw [pocLt_iff] at hlt
          apply next
          refine IsOldest.take hx fun r hr hro => ?_
          obtain ⟨k, hk⟩ := List.mem_iff_getElem?.1 hr
          have := ((h : IsOldest want pre j q).2.2 k r hk hro).1
          omega
        · rename_i hlt
          rw [pocLt_iff] at hlt
          exact next _ (IsOldest.skip h fun _ => by omega)

/-- What `Oldest(want)` answers: the picture R164 asks for, or nothing when there is none. -/
theorem oldest_spec (want : Bool) (l : List Picture) :
    (∃ i p, oldest want l = some (i, p) ∧ IsOldest want l i p) ∨
    (oldest want l = none ∧ ∀ q ∈ l, q.out ≠ want) := by
  have h := oldestFrom_spec want l [] none (by simp [OldestSoFar])
  simp only [List.nil_append, List.length_nil] at h
  unfold oldest
  cases e : oldestFrom want l 0 none with
  | none => rw [e] at h; exact .inr ⟨rfl, h⟩
  | some b => rw [e] at h; exact .inl ⟨b.1, b.2, rfl, h⟩

/-- The choice is unique. -/
theorem IsOldest.unique {want : Bool} {l : List Picture} {i j : Nat} {p q : Picture} (h : IsOldest want l i p)
    (h' : IsOldest want l j q) : i = j ∧ p = q := by
  have a := h.2.2 j q h'.1 h'.2.1
  have b := h'.2.2 i p h.1 h.2.1
  have hij : i = j := by
    have := a.2 (by omega)
    have := b.2 (by omega)
    omega
  subst hij
  exact ⟨rfl, by simpa [h.1] using h'.1⟩

/-! ### `Remove` -/

/-- `removeSlot` is the `Remove(i)` of R162. -/
theorem removeSlot_removed (l : List Picture) (i : Nat) (hi : i < l.length) : Removed l i (removeSlot l i) := by
  have hl : l ≠ [] := by rintro rfl; simp at hi
  simp only [removeSlot, List.getLast?_eq_some_getLast hl]
  refine ⟨by simp; omega, fun j hj => ?_⟩
  simp only [List.length_dropLast, List.length_set] at hj
  rw [List.getElem?_dropLast]
  simp only [List.length_set, hj, if_true]
  by_cases hji : j = i
  · subst hji
    rw [if_pos rfl, List.getElem?_set_self (by omega), List.getLast_eq_getElem,
      List.getElem?_eq_getElem (by omega)]
  · rw [if_neg hji, List.getElem?_set_ne (by omega)]

/-- Removing a slot takes out exactly its picture. -/
theorem removeSlot_perm (l : List Picture) (i : Nat) (p : Picture) (h : l[i]? = some p) :
    List.Perm l (p :: removeSlot l i) := by
  obtain ⟨hi, e⟩ := List.getElem?_eq_some_iff.1 h
  have hl : l ≠ [] := by rintro rfl; simp at hi
  obtain ⟨m, z, rfl⟩ : ∃ m z, l = m ++ [z] := ⟨l.dropLast, l.getLast hl, (List.dropLast_append_getLast hl).symm⟩
  simp only [removeSlot, List.getLast?_append, List.getLast?_singleton, Option.some_or]
  rcases Nat.lt_or_ge i m.length with hm | hm
  · rw [List.set_append_left _ _ hm, List.dropLast_concat]
    rw [List.getElem?_append_left hm] at h
    have hp := List.getElem_cons_eraseIdx_perm hm
    have hs := List.set_perm_cons_eraseIdx hm z
    rw [List.getElem_append_left hm] at e
    subst e
    exact (List.perm_append_singleton _ _).trans
      ((hp.symm.cons z).trans ((List.Perm.swap _ _ _).trans (hs.symm.cons _)))
  · have : i = m.length := by simp at hi; omega
    subst this
    simp at e
    subst e
    rw [List.set_append_right _ _ (by omega)]
    simp only [Nat.sub_self, List.set_cons_zero, List.dropLast_concat]
    exact List.perm_append_singleton _ _

/-! ### `Bump` -/

/-- What `Bump()` does: a bump of R165, or nothing when every picture is already output. -/
theorem bump_spec (l : List Picture) :
    (∃ p l', bump l = some (p, l') ∧ Bumped l p l') ∨ (bump l = none ∧ AllOutput l) := by
  rcases oldest_spec false l with ⟨i, p, e, h⟩ | ⟨e, h⟩
  · left
    refine ⟨released p, if p.ref then l.set i (released p) else removeSlot l i, by simp [bump, e], i, p, h, rfl, ?_⟩
    have hi : i < l.length := (List.getElem?_eq_some_iff.1 h.1).1
    by_cases hr : p.ref = true
    · simp [hr]
    · simpa [hr] using removeSlot_removed l i hi
  · exact .inr ⟨by simp [bump, e], fun p hp => by simpa using h p hp⟩

/-- A list that `Remove(i)` leaves is unique. -/
theorem Removed.unique {l a b : List Picture} {i : Nat} (ha : Removed l i a) (hb : Removed l i b) : a = b := by
  apply List.ext_getElem?
  intro j
  have hlen : a.length = b.length := by have := ha.1; have := hb.1; omega
  rcases Nat.lt_or_ge j a.length with hj | hj
  · rw [ha.2 j hj, hb.2 j (by omega)]
  · rw [List.getElem?_eq_none hj, List.getElem?_eq_none (by omega)]

/-- A bump is unique. -/
theorem Bumped.unique {l a b : List Picture} {p q : Picture} (ha : Bumped l p a) (hb : Bumped l q b) :
    p = q ∧ a = b := by
  obtain ⟨i, x, hx, rfl, hl⟩ := ha
  obtain ⟨j, y, hy, rfl, hm⟩ := hb
  obtain ⟨rfl, rfl⟩ := hx.unique hy
  refine ⟨rfl, ?_⟩
  by_cases hr : x.ref = true
  · rw [if_pos hr] at hl hm
    rw [hl, hm]
  · rw [if_neg hr] at hl hm
    exact hl.unique hm

/-- A bump moves one picture from "not yet output" to the output. -/
theorem Bumped.perm {l l' : List Picture} {p : Picture} (h : Bumped l p l') :
    ∃ q, q.out = false ∧ p = { q with out := true } ∧ List.Perm (pending l) (q :: pending l') := by
  obtain ⟨i, q, hq, rfl, hl⟩ := h
  have hi : i < l.length := (List.getElem?_eq_some_iff.1 hq.1).1
  have hqi : l[i] = q := (List.getElem?_eq_some_iff.1 hq.1).2
  refine ⟨q, hq.2.1, rfl, ?_⟩
  by_cases hr : q.ref = true
  · rw [if_pos hr] at hl
    subst hl
    have hp := List.getElem_cons_eraseIdx_perm hi
    have hs := List.set_perm_cons_eraseIdx hi { q with out := true }
    rw [hqi] at hp
    have a := (hp.symm.filter fun p => !p.out)
    have b := (hs.filter fun p => !p.out)
    simp only [List.filter_cons, hq.2.1, Bool.not_false, if_true, Bool.not_true, Bool.false_eq_true, if_false] at a b
    exact a.trans (b.symm.cons q)
  · rw [if_neg hr] at hl
    have := hl.unique (removeSlot_removed l i hi)
    subst this
    have a := (removeSlot_perm l i q hq.1).filter fun p => !p.out
    simpa [pending, List.filter_cons, hq.2.1] using a

/-- Each bump leaves one picture fewer to output. -/
theorem Bumped.pending_length {l l' : List Picture} {p : Picture} (h : Bumped l p l') :
    (pending l').length + 1 = (pending l).length := by
  obtain ⟨q, -, -, hp⟩ := h.perm
  simpa using hp.length_eq.symm

theorem pending_length_le (l : List Picture) : (pending l).length ≤ l.length := List.length_filter_le _ _

theorem allOutput_iff_pending (l : List Picture) : AllOutput l ↔ pending l = [] := by
  simp [AllOutput, pending, List.filter_eq_nil_iff]

/-! ### The loops -/

/-- How the loop of `DPB_ADD` ends, in the words of R167 and R168; `length + 1` turns are enough (log 26). -/
theorem makeRoom_spec (late : List Picture → Bool) (max fuel : Nat) (l acc : List Picture)
    (hf : (pending l).length < fuel) :
    ∃ outs l' e, makeRoom late max fuel l acc = (e, l', acc ++ outs) ∧
      BumpsWhile (fun m => m.length = max ∧ late m = false) l outs l' ∧
      match e with
      | .room => l'.length ≠ max
      | .late => l'.length = max ∧ late l' = true
      | .exhausted => l'.length = max ∧ late l' = false ∧ AllOutput l' := by
  induction fuel generalizing l acc with
  | zero => omega
  | succ fuel ih =>
    simp only [makeRoom]
    by_cases hm : l.length = max
    · rw [if_neg (by simpa using hm)]
      cases hl : late l with
      | true => exact ⟨[], l, .late, by simp, .stop l, hm, hl⟩
      | false =>
        rw [if_neg (by simp)]
        rcases bump_spec l with ⟨p, l1, e, hb⟩ | ⟨e, ha⟩
        · rw [e]
          obtain ⟨outs, l', e', h1, h2, h3⟩ := ih l1 (acc ++ [p]) (by have := hb.pending_length; omega)
          exact ⟨p :: outs, l', e', by simpa using h1, .more ⟨hm, hl⟩ hb h2, h3⟩
        · rw [e]
          exact ⟨[], l, .exhausted, by simp, .stop l, hm, hl, ha⟩
    · rw [if_pos hm]
      exact ⟨[], l, .room, by simp, .stop l, hm⟩

/-- The loop of `DPB_FLUSH` bumps until nothing is left to output; `length` turns are enough (log 26). -/
theorem bumpAll_spec (fuel : Nat) (l : List Picture) (hf : (pending l).length ≤ fuel) :
    ∃ l', BumpsWhile (fun _ => True) l (bumpAll fuel l) l' ∧ AllOutput l' := by
  induction fuel generalizing l with
  | zero =>
    refine ⟨l, .stop l, (allOutput_iff_pending l).2 ?_⟩
    exact List.length_eq_zero_iff.1 (by omega)
  | succ fuel ih =>
    simp only [bumpAll]
    rcases bump_spec l with ⟨p, l1, e, hb⟩ | ⟨e, ha⟩
    · rw [e]
      obtain ⟨l', h1, h2⟩ := ih l1 (by have := hb.pending_length; omega)
      exact ⟨l', .more trivial hb h1, h2⟩
    · rw [e]
      exact ⟨l, .stop l, ha⟩

/-- A run of bumps outputs pictures that were not yet output, each once, and leaves the rest. -/
theorem BumpsWhile.perm {C : List Picture → Prop} {l outs l' : List Picture} (h : BumpsWhile C l outs l') :
    ∃ qs : List Picture, (∀ q ∈ qs, q.out = false) ∧ outs = qs.map released ∧
      List.Perm (pending l) (qs ++ pending l') := by
  induction h with
  | stop l => exact ⟨[], by simp, rfl, by simp⟩
  | more _ hb _ ih =>
    obtain ⟨qs, h1, rfl, h3⟩ := ih
    obtain ⟨q, hq, rfl, hp⟩ := hb.perm
    refine ⟨q :: qs, by simpa [hq] using h1, rfl, ?_⟩
    exact hp.trans (by simpa using h3.cons q)

/-! ### `GC` -/

theorem gcFrom_perm (fuel i : Nat) (l : List Picture) (hf : l.length ≤ i + fuel)
    (hpre : ∀ j p, j < i → l[j]? = some p → ¬(p.out ∧ ¬p.ref)) :
    List.Perm (gcFrom fuel i l) (l.filter fun p => !(p.out && !p.ref)) := by
  induction fuel generalizing i l with
  | zero =>
    simp only [gcFrom]
    rw [List.filter_eq_self.2]
    intro p hp
    obtain ⟨j, hj⟩ := List.mem_iff_getElem?.1 hp
    have := hpre j p (by have := (List.getElem?_eq_some_iff.1 hj).1; omega) hj
    cases ho : p.out <;> simp_all
  | succ fuel ih =>
    simp only [gcFrom]
    cases e : l[i]? with
    | none =>
      simp only
      rw [List.filter_eq_self.2]
      intro p hp
      obtain ⟨j, hj⟩ := List.mem_iff_getElem?.1 hp
      have h1 := (List.getElem?_eq_some_iff.1 hj).1
      have h2 := List.getElem?_eq_none_iff.1 e
      have := hpre j p (by omega) hj
      cases ho : p.out <;> simp_all
    | some p =>
      have hi := (List.getElem?_eq_some_iff.1 e).1
      simp only
      split
      · rename_i hp
        have hrem := removeSlot_removed l i hi
        have hperm := removeSlot_perm l i p e
        refine (ih i (removeSlot l i) (by have := hrem.1; omega) ?_).trans ?_
        · intro j q hj hq
          have hjl := (List.getElem?_eq_some_iff.1 hq).1
          rw [hrem.2 j hjl, if_neg (by omega)] at hq
          exact hpre j q hj hq
        · have := (hperm.filter fun p => !(p.out && !p.ref)).symm
          simpa [List.filter_cons, hp.1, hp.2] using this
      · rename_i hp
        refine ih (i + 1) l (by omega) fun j q hj hq => ?_
        rcases Nat.lt_or_ge j i with h | h
        · exact hpre j q h hq
        · have : j = i := by omega
          subst this
          rw [e] at hq
          cases hq
          exact hp

/-- The garbage-collection pass deletes exactly the garbage (R166). -/
theorem gc_perm (l : List Picture) : List.Perm (gc l) (l.filter fun p => !(p.out && !p.ref)) :=
  gcFrom_perm l.length 0 l (by omega) (by intro j p h; omega)

/-- The loop of `GC()` is the pass `Collects` describes, while its turns last. -/
theorem gcFrom_collects (fuel i : Nat) (l : List Picture) (hf : l.length ≤ i + fuel) : Collects i l (gcFrom fuel i l) := by
  induction fuel generalizing i l with
  | zero => exact .stop (by omega)
  | succ fuel ih =>
    simp only [gcFrom]
    cases e : l[i]? with
    | none => exact .stop (by simpa using e)
    | some p =>
      have hi : i < l.length := (List.getElem?_eq_some_iff.1 e).1
      simp only
      split
      · rename_i h
        have hr := removeSlot_removed l i hi
        exact .drop e h.1 (by simpa using h.2) hr (ih i _ (by have := hr.1; omega))
      · rename_i h
        refine .keep e ?_ (ih (i + 1) l (by omega))
        cases ho : p.out <;> cases hr : p.ref <;> simp_all

/-- `GC()` (R166), turn by turn; `length` turns are enough (log 26). -/
theorem gc_collects (l : List Picture) : Collects 0 l (gc l) := gcFrom_collects l.length 0 l (by omega)

theorem gcFrom_noGarbage (fuel i : Nat) (l : List Picture) (h : ∀ p ∈ l, ¬(p.out ∧ ¬p.ref)) :
    gcFrom fuel i l = l := by
  induction fuel generalizing i with
  | zero => rfl
  | succ fuel ih =>
    simp only [gcFrom]
    cases e : l[i]? with
    | none => rfl
    | some p =>
      simp only
      rw [if_neg (h p (List.mem_of_getElem? e)), ih]

/-- Without garbage the pass finds nothing. -/
theorem gc_noGarbage (l : List Picture) (h : ∀ p ∈ l, p.ref = false → p.out = false) : gc l = l :=
  gcFrom_noGarbage _ _ _ fun p hp ⟨ho, hr⟩ => by
    have := h p hp (by simpa using hr)
    rw [this] at ho
    cases ho

/-- After the pass there is no garbage. -/
theorem noGarbage_gc (l : List Picture) : ∀ p ∈ gc l, p.ref = false → p.out = false := by
  intro p hp hr
  have := (gc_perm l).mem_iff.1 hp
  simp only [List.mem_filter, hr] at this
  simpa using this.2

/-! ### Neighbours -/

/-- What the loop for `prev` carries: the choice among the slots already seen. -/
def PrevSoFar (q : Word) (pre : List Picture) : Option Picture → Prop
  | none => ∀ r ∈ pre, ¬ r.poc.toInt < q.toInt
  | some p => IsPrev q pre p

theorem IsPrev.skip {q : Word} {pre : List Picture} {p x : Picture} (h : IsPrev q pre p)
    (hx : x.poc.toInt < q.toInt → x.poc.toInt ≤ p.poc.toInt) : IsPrev q (pre ++ [x]) p := by
  obtain ⟨i, h1, h2, h3⟩ := h
  have hi : i < pre.length := (List.getElem?_eq_some_iff.1 h1).1
  refine ⟨i, by rw [List.getElem?_append_left hi, h1], h2, fun j r hj hr => ?_⟩
  rcases Nat.lt_or_ge j pre.length with hl | hl
  · rw [List.getElem?_append_left hl] at hj
    exact h3 j r hj hr
  · rw [List.getElem?_append_right hl] at hj
    obtain ⟨hjl, e⟩ := List.getElem?_eq_some_iff.1 hj
    simp at hjl e
    subst e
    exact ⟨hx hr, fun _ => by omega⟩

theorem IsPrev.take {q : Word} {pre : List Picture} {x : Picture} (hx : x.poc.toInt < q.toInt)
    (h : ∀ r ∈ pre, r.poc.toInt < q.toInt → r.poc.toInt < x.poc.toInt) : IsPrev q (pre ++ [x]) x := by
  refine ⟨pre.length, by simp, hx, fun j r hj hr => ?_⟩
  rcases Nat.lt_or_ge j pre.length with hl | hl
  · rw [List.getElem?_append_left hl] at hj
    have := h r (List.mem_of_getElem? hj) hr
    exact ⟨by omega, fun e => by omega⟩
  · rw [List.getElem?_append_right hl] at hj
    obtain ⟨hjl, e⟩ := List.getElem?_eq_some_iff.1 hj
    simp at hjl e
    subst e
    exact ⟨le_rfl, fun _ => by omega⟩

theorem prevOf_loop (q : Word) (l pre : List Picture) (best : Option Picture) (h : PrevSoFar q pre best) :
    PrevSoFar q (pre ++ l) (prevOf q l best) := by
  induction l generalizing pre best with
  | nil => simpa [prevOf] using h
  | cons x l ih =>
    have next : ∀ b, PrevSoFar q (pre ++ [x]) b → PrevSoFar q (pre ++ x :: l) (prevOf q l b) := by
      intro b hb
      simpa using ih (pre ++ [x]) b hb
    simp only [prevOf]
    cases best with
    | none =>
      split
      · rename_i hc
        exact next _ (IsPrev.take ((pocLt_iff _ _).1 hc.1) fun r hr e => absurd e (h r hr))
      · rename_i hc
        apply next
        intro r hr
        rcases List.mem_append.1 hr with hr | hr
        · exact h r hr
        · simp at hr
          subst hr
          simpa [pocLt_iff] using hc
    | some p =>
      simp only [Option.all_some, pocLt_iff]
      split
      · rename_i hc
        refine next _ (IsPrev.take hc.1 fun r hr e => ?_)
        obtain ⟨k, hk⟩ := List.mem_iff_getElem?.1 hr
        obtain ⟨i, -, -, h3⟩ := h
        have := (h3 k r hk e).1
        omega
      · rename_i hc
        exact next _ (IsPrev.skip h fun e => by
          by_contra hn
          exact hc ⟨e, by omega⟩)

/-- What the search for `prev` finds (R174). -/
theorem prevOf_spec (q : Word) (l : List Picture) :
    (∃ p, prevOf q l none = some p ∧ IsPrev q l p) ∨
    (prevOf q l none = none ∧ ∀ r ∈ l, ¬ r.poc.toInt < q.toInt) := by
  have h := prevOf_loop q l [] none (by simp [PrevSoFar])
  rw [List.nil_append] at h
  cases e : prevOf q l none with
  | none => rw [e] at h; exact .inr ⟨rfl, h⟩
  | some p => rw [e] at h; exact .inl ⟨p, rfl, h⟩

/-- What the loop for `next` carries: the choice among the slots already seen. -/
def NextSoFar (q : Word) (pre : List Picture) : Option Picture → Prop
  | none => ∀ r ∈ pre, ¬ q.toInt < r.poc.toInt
  | some p => IsNext q pre p

theorem IsNext.skip {q : Word} {pre : List Picture} {p x : Picture} (h : IsNext q pre p)
    (hx : q.toInt < x.poc.toInt → p.poc.toInt ≤ x.poc.toInt) : IsNext q (pre ++ [x]) p := by
  obtain ⟨i, h1, h2, h3⟩ := h
  have hi : i < pre.length := (List.getElem?_eq_some_iff.1 h1).1
  refine ⟨i, by rw [List.getElem?_append_left hi, h1], h2, fun j r hj hr => ?_⟩
  rcases Nat.lt_or_ge j pre.length with hl | hl
  · rw [List.getElem?_append_left hl] at hj
    exact h3 j r hj hr
  · rw [List.getElem?_append_right hl] at hj
    obtain ⟨hjl, e⟩ := List.getElem?_eq_some_iff.1 hj
    simp at hjl e
    subst e
    exact ⟨hx hr, fun _ => by omega⟩

theorem IsNext.take {q : Word} {pre : List Picture} {x : Picture} (hx : q.toInt < x.poc.toInt)
    (h : ∀ r ∈ pre, q.toInt < r.poc.toInt → x.poc.toInt < r.poc.toInt) : IsNext q (pre ++ [x]) x := by
  refine ⟨pre.length, by simp, hx, fun j r hj hr => ?_⟩
  rcases Nat.lt_or_ge j pre.length with hl | hl
  · rw [List.getElem?_append_left hl] at hj
    have := h r (List.mem_of_getElem? hj) hr
    exact ⟨by omega, fun e => by omega⟩
  · rw [List.getElem?_append_right hl] at hj
    obtain ⟨hjl, e⟩ := List.getElem?_eq_some_iff.1 hj
    simp at hjl e
    subst e
    exact ⟨le_rfl, fun _ => by omega⟩

theorem nextOf_loop (q : Word) (l pre : List Picture) (best : Option Picture) (h : NextSoFar q pre best) :
    NextSoFar q (pre ++ l) (nextOf q l best) := by
  induction l generalizing pre best with
  | nil => simpa [nextOf] using h
  | cons x l ih =>
    have next : ∀ b, NextSoFar q (pre ++ [x]) b → NextSoFar q (pre ++ x :: l) (nextOf q l b) := by
      intro b hb
      simpa using ih (pre ++ [x]) b hb
    simp only [nextOf]
    cases best with
    | none =>
      split
      · rename_i hc
        exact next _ (IsNext.take ((pocLt_iff _ _).1 hc.1) fun r hr e => absurd e (h r hr))
      · rename_i hc
        apply next
        intro r hr
        rcases List.mem_append.1 hr with hr | hr
        · exact h r hr
        · simp at hr
          subst hr
          simpa [pocLt_iff] using hc
    | some p =>
      simp only [Option.all_some, pocLt_iff]
      split
      · rename_i hc
        refine next _ (IsNext.take hc.1 fun r hr e => ?_)
        obtain ⟨k, hk⟩ := List.mem_iff_getElem?.1 hr
        obtain ⟨i, -, -, h3⟩ := h
        have := (h3 k r hk e).1
        omega
      · rename_i hc
        exact next _ (IsNext.skip h fun e => by
          by_contra hn
          exact hc ⟨e, by omega⟩)

/-- What the search for `next` finds (R174). -/
theorem nextOf_spec (q : Word) (l : List Picture) :
    (∃ p, nextOf q l none = some p ∧ IsNext q l p) ∨
    (nextOf q l none = none ∧ ∀ r ∈ l, ¬ q.toInt < r.poc.toInt) := by
  have h := nextOf_loop q l [] none (by simp [NextSoFar])
  rw [List.nil_append] at h
  cases e : nextOf q l none with
  | none => rw [e] at h; exact .inr ⟨rfl, h⟩
  | some p => rw [e] at h; exact .inl ⟨p, rfl, h⟩

end Sys2Proof.Machine
end

