-- ==== Sys2Proof/Laws/State.lean ====
section
/-! SUPPORT. Laws of State: what each operation that returns a state leaves in each field. All are true by unfolding; with them
no later proof unfolds a record update. -/

namespace Sys2Proof.Machine

/-! ### `State.respond` -/

@[simp] theorem State.respond_cfg (s : State) (p : Port) (r : Response) : (s.respond p r).cfg = s.cfg := rfl
@[simp] theorem State.respond_raw (s : State) (p : Port) (r : Response) : (s.respond p r).raw = s.raw := rfl
@[simp] theorem State.respond_nbits (s : State) (p : Port) (r : Response) : (s.respond p r).nbits = s.nbits := rfl
@[simp] theorem State.respond_sealed (s : State) (p : Port) (r : Response) : (s.respond p r).sealed = s.sealed := rfl
@[simp] theorem State.respond_emu (s : State) (p : Port) (r : Response) : (s.respond p r).emu = s.emu := rfl
@[simp] theorem State.respond_emuLen (s : State) (p : Port) (r : Response) : (s.respond p r).emuLen = s.emuLen := rfl
@[simp] theorem State.respond_rbuf (s : State) (p : Port) (r : Response) : (s.respond p r).rbuf = s.rbuf := rfl
@[simp] theorem State.respond_rlen (s : State) (p : Port) (r : Response) : (s.respond p r).rlen = s.rlen := rfl
@[simp] theorem State.respond_rpos (s : State) (p : Port) (r : Response) : (s.respond p r).rpos = s.rpos := rfl
@[simp] theorem State.respond_dpbInit (s : State) (p : Port) (r : Response) : (s.respond p r).dpbInit = s.dpbInit := rfl
@[simp] theorem State.respond_dpbMax (s : State) (p : Port) (r : Response) : (s.respond p r).dpbMax = s.dpbMax := rfl
@[simp] theorem State.respond_slots (s : State) (p : Port) (r : Response) : (s.respond p r).slots = s.slots := rfl
@[simp] theorem State.respond_refset (s : State) (p : Port) (r : Response) : (s.respond p r).refset = s.refset := rfl
@[simp] theorem State.respond_l0 (s : State) (p : Port) (r : Response) : (s.respond p r).l0 = s.l0 := rfl
@[simp] theorem State.respond_l1 (s : State) (p : Port) (r : Response) : (s.respond p r).l1 = s.l1 := rfl
@[simp] theorem State.respond_maxRef (s : State) (p : Port) (r : Response) : (s.respond p r).maxRef = s.maxRef := rfl
@[simp] theorem State.respond_maxL0 (s : State) (p : Port) (r : Response) : (s.respond p r).maxL0 = s.maxL0 := rfl
@[simp] theorem State.respond_maxL1 (s : State) (p : Port) (r : Response) : (s.respond p r).maxL1 = s.maxL1 := rfl
@[simp] theorem State.respond_ropState (s : State) (p : Port) (r : Response) : (s.respond p r).ropState = s.ropState := rfl
@[simp] theorem State.respond_roq (s : State) (p : Port) (r : Response) : (s.respond p r).roq = s.roq := rfl
@[simp] theorem State.respond_frameIdx (s : State) (p : Port) (r : Response) : (s.respond p r).frameIdx = s.frameIdx := rfl
@[simp] theorem State.respond_frameNumCtr (s : State) (p : Port) (r : Response) : (s.respond p r).frameNumCtr = s.frameNumCtr := rfl
@[simp] theorem State.respond_presIdx (s : State) (p : Port) (r : Response) : (s.respond p r).presIdx = s.presIdx := rfl
@[simp] theorem State.respond_seenFirst (s : State) (p : Port) (r : Response) : (s.respond p r).seenFirst = s.seenFirst := rfl
@[simp] theorem State.respond_keyPeriod (s : State) (p : Port) (r : Response) : (s.respond p r).keyPeriod = s.keyPeriod := rfl
@[simp] theorem State.respond_intraPeriod (s : State) (p : Port) (r : Response) : (s.respond p r).intraPeriod = s.intraPeriod := rfl
@[simp] theorem State.respond_outq (s : State) (p : Port) (r : Response) : (s.respond p r).outq = s.outq := rfl
@[simp] theorem State.respond_errlog (s : State) (p : Port) (r : Response) : (s.respond p r).errlog = s.errlog := rfl
@[simp] theorem State.respond_cWait (s : State) (p : Port) (r : Response) : (s.respond p r).cWait = s.cWait := rfl
@[simp] theorem State.respond_picout (s : State) (p : Port) (r : Response) : (s.respond p r).picout = s.picout := rfl
@[simp] theorem State.respond_byteout (s : State) (p : Port) (r : Response) : (s.respond p r).byteout = s.byteout := rfl
@[simp] theorem State.respond_inP (s : State) (p : Port) (r : Response) : (s.respond p r).inP = s.inP := rfl
@[simp] theorem State.respond_inC (s : State) (p : Port) (r : Response) : (s.respond p r).inC = s.inC := rfl
@[simp] theorem State.respond_respP (s : State) (p : Port) (r : Response) : (s.respond p r).respP = if p = .P then s.respP ++ [r] else s.respP := rfl
@[simp] theorem State.respond_respC (s : State) (p : Port) (r : Response) : (s.respond p r).respC = if p = .C then s.respC ++ [r] else s.respC := rfl
@[simp] theorem State.respond_port (s : State) (p : Port) (r : Response) : (s.respond p r).port = s.port := rfl
@[simp] theorem State.respond_grants (s : State) (p : Port) (r : Response) : (s.respond p r).grants = s.grants := rfl
@[simp] theorem State.respond_grantCount (s : State) (p : Port) (r : Response) : (s.respond p r).grantCount = s.grantCount := rfl

/-! ### `State.done` -/

@[simp] theorem State.done_cfg (s : State) (st : Status) (r0 r1 r2 r3 : Word) : (s.done st r0 r1 r2 r3).cfg = s.cfg := rfl
@[simp] theorem State.done_raw (s : State) (st : Status) (r0 r1 r2 r3 : Word) : (s.done st r0 r1 r2 r3).raw = s.raw := rfl
@[simp] theorem State.done_nbits (s : State) (st : Status) (r0 r1 r2 r3 : Word) : (s.done st r0 r1 r2 r3).nbits = s.nbits := rfl
@[simp] theorem State.done_sealed (s : State) (st : Status) (r0 r1 r2 r3 : Word) : (s.done st r0 r1 r2 r3).sealed = s.sealed := rfl
@[simp] theorem State.done_emu (s : State) (st : Status) (r0 r1 r2 r3 : Word) : (s.done st r0 r1 r2 r3).emu = s.emu := rfl
@[simp] theorem State.done_emuLen (s : State) (st : Status) (r0 r1 r2 r3 : Word) : (s.done st r0 r1 r2 r3).emuLen = s.emuLen := rfl
@[simp] theorem State.done_rbuf (s : State) (st : Status) (r0 r1 r2 r3 : Word) : (s.done st r0 r1 r2 r3).rbuf = s.rbuf := rfl
@[simp] theorem State.done_rlen (s : State) (st : Status) (r0 r1 r2 r3 : Word) : (s.done st r0 r1 r2 r3).rlen = s.rlen := rfl
@[simp] theorem State.done_rpos (s : State) (st : Status) (r0 r1 r2 r3 : Word) : (s.done st r0 r1 r2 r3).rpos = s.rpos := rfl
@[simp] theorem State.done_dpbInit (s : State) (st : Status) (r0 r1 r2 r3 : Word) : (s.done st r0 r1 r2 r3).dpbInit = s.dpbInit := rfl
@[simp] theorem State.done_dpbMax (s : State) (st : Status) (r0 r1 r2 r3 : Word) : (s.done st r0 r1 r2 r3).dpbMax = s.dpbMax := rfl
@[simp] theorem State.done_slots (s : State) (st : Status) (r0 r1 r2 r3 : Word) : (s.done st r0 r1 r2 r3).slots = s.slots := rfl
@[simp] theorem State.done_refset (s : State) (st : Status) (r0 r1 r2 r3 : Word) : (s.done st r0 r1 r2 r3).refset = s.refset := rfl
@[simp] theorem State.done_l0 (s : State) (st : Status) (r0 r1 r2 r3 : Word) : (s.done st r0 r1 r2 r3).l0 = s.l0 := rfl
@[simp] theorem State.done_l1 (s : State) (st : Status) (r0 r1 r2 r3 : Word) : (s.done st r0 r1 r2 r3).l1 = s.l1 := rfl
@[simp] theorem State.done_maxRef (s : State) (st : Status) (r0 r1 r2 r3 : Word) : (s.done st r0 r1 r2 r3).maxRef = s.maxRef := rfl
@[simp] theorem State.done_maxL0 (s : State) (st : Status) (r0 r1 r2 r3 : Word) : (s.done st r0 r1 r2 r3).maxL0 = s.maxL0 := rfl
@[simp] theorem State.done_maxL1 (s : State) (st : Status) (r0 r1 r2 r3 : Word) : (s.done st r0 r1 r2 r3).maxL1 = s.maxL1 := rfl
@[simp] theorem State.done_ropState (s : State) (st : Status) (r0 r1 r2 r3 : Word) : (s.done st r0 r1 r2 r3).ropState = s.ropState := rfl
@[simp] theorem State.done_roq (s : State) (st : Status) (r0 r1 r2 r3 : Word) : (s.done st r0 r1 r2 r3).roq = s.roq := rfl
@[simp] theorem State.done_frameIdx (s : State) (st : Status) (r0 r1 r2 r3 : Word) : (s.done st r0 r1 r2 r3).frameIdx = s.frameIdx := rfl
@[simp] theorem State.done_frameNumCtr (s : State) (st : Status) (r0 r1 r2 r3 : Word) : (s.done st r0 r1 r2 r3).frameNumCtr = s.frameNumCtr := rfl
@[simp] theorem State.done_presIdx (s : State) (st : Status) (r0 r1 r2 r3 : Word) : (s.done st r0 r1 r2 r3).presIdx = s.presIdx := rfl
@[simp] theorem State.done_seenFirst (s : State) (st : Status) (r0 r1 r2 r3 : Word) : (s.done st r0 r1 r2 r3).seenFirst = s.seenFirst := rfl
@[simp] theorem State.done_keyPeriod (s : State) (st : Status) (r0 r1 r2 r3 : Word) : (s.done st r0 r1 r2 r3).keyPeriod = s.keyPeriod := rfl
@[simp] theorem State.done_intraPeriod (s : State) (st : Status) (r0 r1 r2 r3 : Word) : (s.done st r0 r1 r2 r3).intraPeriod = s.intraPeriod := rfl
@[simp] theorem State.done_outq (s : State) (st : Status) (r0 r1 r2 r3 : Word) : (s.done st r0 r1 r2 r3).outq = s.outq := rfl
@[simp] theorem State.done_errlog (s : State) (st : Status) (r0 r1 r2 r3 : Word) : (s.done st r0 r1 r2 r3).errlog = s.errlog ||| st.errBits := rfl
@[simp] theorem State.done_cWait (s : State) (st : Status) (r0 r1 r2 r3 : Word) : (s.done st r0 r1 r2 r3).cWait = s.cWait := rfl
@[simp] theorem State.done_picout (s : State) (st : Status) (r0 r1 r2 r3 : Word) : (s.done st r0 r1 r2 r3).picout = s.picout := rfl
@[simp] theorem State.done_byteout (s : State) (st : Status) (r0 r1 r2 r3 : Word) : (s.done st r0 r1 r2 r3).byteout = s.byteout := rfl
@[simp] theorem State.done_inP (s : State) (st : Status) (r0 r1 r2 r3 : Word) : (s.done st r0 r1 r2 r3).inP = s.inP := rfl
@[simp] theorem State.done_inC (s : State) (st : Status) (r0 r1 r2 r3 : Word) : (s.done st r0 r1 r2 r3).inC = s.inC := rfl
@[simp] theorem State.done_respP (s : State) (st : Status) (r0 r1 r2 r3 : Word) : (s.done st r0 r1 r2 r3).respP = if s.port = .P then s.respP ++ [⟨st, r0, r1, r2, r3⟩] else s.respP := rfl
@[simp] theorem State.done_respC (s : State) (st : Status) (r0 r1 r2 r3 : Word) : (s.done st r0 r1 r2 r3).respC = if s.port = .C then s.respC ++ [⟨st, r0, r1, r2, r3⟩] else s.respC := rfl
@[simp] theorem State.done_port (s : State) (st : Status) (r0 r1 r2 r3 : Word) : (s.done st r0 r1 r2 r3).port = s.port := rfl
@[simp] theorem State.done_grants (s : State) (st : Status) (r0 r1 r2 r3 : Word) : (s.done st r0 r1 r2 r3).grants = s.grants := rfl
@[simp] theorem State.done_grantCount (s : State) (st : Status) (r0 r1 r2 r3 : Word) : (s.done st r0 r1 r2 r3).grantCount = s.grantCount := rfl

/-! ### `State.emit` -/

@[simp] theorem State.emit_cfg (s : State) (tag : BurstTag) (bs : List Byte) : (s.emit tag bs).cfg = s.cfg := rfl
@[simp] theorem State.emit_raw (s : State) (tag : BurstTag) (bs : List Byte) : (s.emit tag bs).raw = s.raw := rfl
@[simp] theorem State.emit_nbits (s : State) (tag : BurstTag) (bs : List Byte) : (s.emit tag bs).nbits = s.nbits := rfl
@[simp] theorem State.emit_sealed (s : State) (tag : BurstTag) (bs : List Byte) : (s.emit tag bs).sealed = s.sealed := rfl
@[simp] theorem State.emit_emu (s : State) (tag : BurstTag) (bs : List Byte) : (s.emit tag bs).emu = s.emu := rfl
@[simp] theorem State.emit_emuLen (s : State) (tag : BurstTag) (bs : List Byte) : (s.emit tag bs).emuLen = s.emuLen := rfl
@[simp] theorem State.emit_rbuf (s : State) (tag : BurstTag) (bs : List Byte) : (s.emit tag bs).rbuf = s.rbuf := rfl
@[simp] theorem State.emit_rlen (s : State) (tag : BurstTag) (bs : List Byte) : (s.emit tag bs).rlen = s.rlen := rfl
@[simp] theorem State.emit_rpos (s : State) (tag : BurstTag) (bs : List Byte) : (s.emit tag bs).rpos = s.rpos := rfl
@[simp] theorem State.emit_dpbInit (s : State) (tag : BurstTag) (bs : List Byte) : (s.emit tag bs).dpbInit = s.dpbInit := rfl
@[simp] theorem State.emit_dpbMax (s : State) (tag : BurstTag) (bs : List Byte) : (s.emit tag bs).dpbMax = s.dpbMax := rfl
@[simp] theorem State.emit_slots (s : State) (tag : BurstTag) (bs : List Byte) : (s.emit tag bs).slots = s.slots := rfl
@[simp] theorem State.emit_refset (s : State) (tag : BurstTag) (bs : List Byte) : (s.emit tag bs).refset = s.refset := rfl
@[simp] theorem State.emit_l0 (s : State) (tag : BurstTag) (bs : List Byte) : (s.emit tag bs).l0 = s.l0 := rfl
@[simp] theorem State.emit_l1 (s : State) (tag : BurstTag) (bs : List Byte) : (s.emit tag bs).l1 = s.l1 := rfl
@[simp] theorem State.emit_maxRef (s : State) (tag : BurstTag) (bs : List Byte) : (s.emit tag bs).maxRef = s.maxRef := rfl
@[simp] theorem State.emit_maxL0 (s : State) (tag : BurstTag) (bs : List Byte) : (s.emit tag bs).maxL0 = s.maxL0 := rfl
@[simp] theorem State.emit_maxL1 (s : State) (tag : BurstTag) (bs : List Byte) : (s.emit tag bs).maxL1 = s.maxL1 := rfl
@[simp] theorem State.emit_ropState (s : State) (tag : BurstTag) (bs : List Byte) : (s.emit tag bs).ropState = s.ropState := rfl
@[simp] theorem State.emit_roq (s : State) (tag : BurstTag) (bs : List Byte) : (s.emit tag bs).roq = s.roq := rfl
@[simp] theorem State.emit_frameIdx (s : State) (tag : BurstTag) (bs : List Byte) : (s.emit tag bs).frameIdx = s.frameIdx := rfl
@[simp] theorem State.emit_frameNumCtr (s : State) (tag : BurstTag) (bs : List Byte) : (s.emit tag bs).frameNumCtr = s.frameNumCtr := rfl
@[simp] theorem State.emit_presIdx (s : State) (tag : BurstTag) (bs : List Byte) : (s.emit tag bs).presIdx = s.presIdx := rfl
@[simp] theorem State.emit_seenFirst (s : State) (tag : BurstTag) (bs : List Byte) : (s.emit tag bs).seenFirst = s.seenFirst := rfl
@[simp] theorem State.emit_keyPeriod (s : State) (tag : BurstTag) (bs : List Byte) : (s.emit tag bs).keyPeriod = s.keyPeriod := rfl
@[simp] theorem State.emit_intraPeriod (s : State) (tag : BurstTag) (bs : List Byte) : (s.emit tag bs).intraPeriod = s.intraPeriod := rfl
@[simp] theorem State.emit_outq (s : State) (tag : BurstTag) (bs : List Byte) : (s.emit tag bs).outq = s.outq := rfl
@[simp] theorem State.emit_errlog (s : State) (tag : BurstTag) (bs : List Byte) : (s.emit tag bs).errlog = s.errlog := rfl
@[simp] theorem State.emit_cWait (s : State) (tag : BurstTag) (bs : List Byte) : (s.emit tag bs).cWait = s.cWait := rfl
@[simp] theorem State.emit_picout (s : State) (tag : BurstTag) (bs : List Byte) : (s.emit tag bs).picout = s.picout := rfl
@[simp] theorem State.emit_byteout (s : State) (tag : BurstTag) (bs : List Byte) : (s.emit tag bs).byteout = s.byteout ++ [⟨tag, bs⟩] := rfl
@[simp] theorem State.emit_inP (s : State) (tag : BurstTag) (bs : List Byte) : (s.emit tag bs).inP = s.inP := rfl
@[simp] theorem State.emit_inC (s : State) (tag : BurstTag) (bs : List Byte) : (s.emit tag bs).inC = s.inC := rfl
@[simp] theorem State.emit_respP (s : State) (tag : BurstTag) (bs : List Byte) : (s.emit tag bs).respP = s.respP := rfl
@[simp] theorem State.emit_respC (s : State) (tag : BurstTag) (bs : List Byte) : (s.emit tag bs).respC = s.respC := rfl
@[simp] theorem State.emit_port (s : State) (tag : BurstTag) (bs : List Byte) : (s.emit tag bs).port = s.port := rfl
@[simp] theorem State.emit_grants (s : State) (tag : BurstTag) (bs : List Byte) : (s.emit tag bs).grants = s.grants := rfl
@[simp] theorem State.emit_grantCount (s : State) (tag : BurstTag) (bs : List Byte) : (s.emit tag bs).grantCount = s.grantCount := rfl

/-! ### `State.putDpb` -/

@[simp] theorem State.putDpb_cfg (s : State) (l outs : List Picture) : (s.putDpb l outs).cfg = s.cfg := rfl
@[simp] theorem State.putDpb_raw (s : State) (l outs : List Picture) : (s.putDpb l outs).raw = s.raw := rfl
@[simp] theorem State.putDpb_nbits (s : State) (l outs : List Picture) : (s.putDpb l outs).nbits = s.nbits := rfl
@[simp] theorem State.putDpb_sealed (s : State) (l outs : List Picture) : (s.putDpb l outs).sealed = s.sealed := rfl
@[simp] theorem State.putDpb_emu (s : State) (l outs : List Picture) : (s.putDpb l outs).emu = s.emu := rfl
@[simp] theorem State.putDpb_emuLen (s : State) (l outs : List Picture) : (s.putDpb l outs).emuLen = s.emuLen := rfl
@[simp] theorem State.putDpb_rbuf (s : State) (l outs : List Picture) : (s.putDpb l outs).rbuf = s.rbuf := rfl
@[simp] theorem State.putDpb_rlen (s : State) (l outs : List Picture) : (s.putDpb l outs).rlen = s.rlen := rfl
@[simp] theorem State.putDpb_rpos (s : State) (l outs : List Picture) : (s.putDpb l outs).rpos = s.rpos := rfl
@[simp] theorem State.putDpb_dpbInit (s : State) (l outs : List Picture) : (s.putDpb l outs).dpbInit = s.dpbInit := rfl
@[simp] theorem State.putDpb_dpbMax (s : State) (l outs : List Picture) : (s.putDpb l outs).dpbMax = s.dpbMax := rfl
@[simp] theorem State.putDpb_slots (s : State) (l outs : List Picture) : (s.putDpb l outs).slots = l := rfl
@[simp] theorem State.putDpb_refset (s : State) (l outs : List Picture) : (s.putDpb l outs).refset = s.refset := rfl
@[simp] theorem State.putDpb_l0 (s : State) (l outs : List Picture) : (s.putDpb l outs).l0 = s.l0 := rfl
@[simp] theorem State.putDpb_l1 (s : State) (l outs : List Picture) : (s.putDpb l outs).l1 = s.l1 := rfl
@[simp] theorem State.putDpb_maxRef (s : State) (l outs : List Picture) : (s.putDpb l outs).maxRef = s.maxRef := rfl
@[simp] theorem State.putDpb_maxL0 (s : State) (l outs : List Picture) : (s.putDpb l outs).maxL0 = s.maxL0 := rfl
@[simp] theorem State.putDpb_maxL1 (s : State) (l outs : List Picture) : (s.putDpb l outs).maxL1 = s.maxL1 := rfl
@[simp] theorem State.putDpb_ropState (s : State) (l outs : List Picture) : (s.putDpb l outs).ropState = s.ropState := rfl
@[simp] theorem State.putDpb_roq (s : State) (l outs : List Picture) : (s.putDpb l outs).roq = s.roq := rfl
@[simp] theorem State.putDpb_frameIdx (s : State) (l outs : List Picture) : (s.putDpb l outs).frameIdx = s.frameIdx := rfl
@[simp] theorem State.putDpb_frameNumCtr (s : State) (l outs : List Picture) : (s.putDpb l outs).frameNumCtr = s.frameNumCtr := rfl
@[simp] theorem State.putDpb_presIdx (s : State) (l outs : List Picture) : (s.putDpb l outs).presIdx = s.presIdx := rfl
@[simp] theorem State.putDpb_seenFirst (s : State) (l outs : List Picture) : (s.putDpb l outs).seenFirst = s.seenFirst := rfl
@[simp] theorem State.putDpb_keyPeriod (s : State) (l outs : List Picture) : (s.putDpb l outs).keyPeriod = s.keyPeriod := rfl
@[simp] theorem State.putDpb_intraPeriod (s : State) (l outs : List Picture) : (s.putDpb l outs).intraPeriod = s.intraPeriod := rfl
@[simp] theorem State.putDpb_outq (s : State) (l outs : List Picture) : (s.putDpb l outs).outq = s.outq := rfl
@[simp] theorem State.putDpb_errlog (s : State) (l outs : List Picture) : (s.putDpb l outs).errlog = s.errlog := rfl
@[simp] theorem State.putDpb_cWait (s : State) (l outs : List Picture) : (s.putDpb l outs).cWait = s.cWait := rfl
@[simp] theorem State.putDpb_picout (s : State) (l outs : List Picture) : (s.putDpb l outs).picout = s.picout ++ outs := rfl
@[simp] theorem State.putDpb_byteout (s : State) (l outs : List Picture) : (s.putDpb l outs).byteout = s.byteout := rfl
@[simp] theorem State.putDpb_inP (s : State) (l outs : List Picture) : (s.putDpb l outs).inP = s.inP := rfl
@[simp] theorem State.putDpb_inC (s : State) (l outs : List Picture) : (s.putDpb l outs).inC = s.inC := rfl
@[simp] theorem State.putDpb_respP (s : State) (l outs : List Picture) : (s.putDpb l outs).respP = s.respP := rfl
@[simp] theorem State.putDpb_respC (s : State) (l outs : List Picture) : (s.putDpb l outs).respC = s.respC := rfl
@[simp] theorem State.putDpb_port (s : State) (l outs : List Picture) : (s.putDpb l outs).port = s.port := rfl
@[simp] theorem State.putDpb_grants (s : State) (l outs : List Picture) : (s.putDpb l outs).grants = s.grants := rfl
@[simp] theorem State.putDpb_grantCount (s : State) (l outs : List Picture) : (s.putDpb l outs).grantCount = s.grantCount := rfl

/-! ### `State.setInbox` -/

@[simp] theorem State.setInbox_cfg (s : State) (p : Port) (ws : List Word) : (s.setInbox p ws).cfg = s.cfg := rfl
@[simp] theorem State.setInbox_raw (s : State) (p : Port) (ws : List Word) : (s.setInbox p ws).raw = s.raw := rfl
@[simp] theorem State.setInbox_nbits (s : State) (p : Port) (ws : List Word) : (s.setInbox p ws).nbits = s.nbits := rfl
@[simp] theorem State.setInbox_sealed (s : State) (p : Port) (ws : List Word) : (s.setInbox p ws).sealed = s.sealed := rfl
@[simp] theorem State.setInbox_emu (s : State) (p : Port) (ws : List Word) : (s.setInbox p ws).emu = s.emu := rfl
@[simp] theorem State.setInbox_emuLen (s : State) (p : Port) (ws : List Word) : (s.setInbox p ws).emuLen = s.emuLen := rfl
@[simp] theorem State.setInbox_rbuf (s : State) (p : Port) (ws : List Word) : (s.setInbox p ws).rbuf = s.rbuf := rfl
@[simp] theorem State.setInbox_rlen (s : State) (p : Port) (ws : List Word) : (s.setInbox p ws).rlen = s.rlen := rfl
@[simp] theorem State.setInbox_rpos (s : State) (p : Port) (ws : List Word) : (s.setInbox p ws).rpos = s.rpos := rfl
@[simp] theorem State.setInbox_dpbInit (s : State) (p : Port) (ws : List Word) : (s.setInbox p ws).dpbInit = s.dpbInit := rfl
@[simp] theorem State.setInbox_dpbMax (s : State) (p : Port) (ws : List Word) : (s.setInbox p ws).dpbMax = s.dpbMax := rfl
@[simp] theorem State.setInbox_slots (s : State) (p : Port) (ws : List Word) : (s.setInbox p ws).slots = s.slots := rfl
@[simp] theorem State.setInbox_refset (s : State) (p : Port) (ws : List Word) : (s.setInbox p ws).refset = s.refset := rfl
@[simp] theorem State.setInbox_l0 (s : State) (p : Port) (ws : List Word) : (s.setInbox p ws).l0 = s.l0 := rfl
@[simp] theorem State.setInbox_l1 (s : State) (p : Port) (ws : List Word) : (s.setInbox p ws).l1 = s.l1 := rfl
@[simp] theorem State.setInbox_maxRef (s : State) (p : Port) (ws : List Word) : (s.setInbox p ws).maxRef = s.maxRef := rfl
@[simp] theorem State.setInbox_maxL0 (s : State) (p : Port) (ws : List Word) : (s.setInbox p ws).maxL0 = s.maxL0 := rfl
@[simp] theorem State.setInbox_maxL1 (s : State) (p : Port) (ws : List Word) : (s.setInbox p ws).maxL1 = s.maxL1 := rfl
@[simp] theorem State.setInbox_ropState (s : State) (p : Port) (ws : List Word) : (s.setInbox p ws).ropState = s.ropState := rfl
@[simp] theorem State.setInbox_roq (s : State) (p : Port) (ws : List Word) : (s.setInbox p ws).roq = s.roq := rfl
@[simp] theorem State.setInbox_frameIdx (s : State) (p : Port) (ws : List Word) : (s.setInbox p ws).frameIdx = s.frameIdx := rfl
@[simp] theorem State.setInbox_frameNumCtr (s : State) (p : Port) (ws : List Word) : (s.setInbox p ws).frameNumCtr = s.frameNumCtr := rfl
@[simp] theorem State.setInbox_presIdx (s : State) (p : Port) (ws : List Word) : (s.setInbox p ws).presIdx = s.presIdx := rfl
@[simp] theorem State.setInbox_seenFirst (s : State) (p : Port) (ws : List Word) : (s.setInbox p ws).seenFirst = s.seenFirst := rfl
@[simp] theorem State.setInbox_keyPeriod (s : State) (p : Port) (ws : List Word) : (s.setInbox p ws).keyPeriod = s.keyPeriod := rfl
@[simp] theorem State.setInbox_intraPeriod (s : State) (p : Port) (ws : List Word) : (s.setInbox p ws).intraPeriod = s.intraPeriod := rfl
@[simp] theorem State.setInbox_outq (s : State) (p : Port) (ws : List Word) : (s.setInbox p ws).outq = s.outq := rfl
@[simp] theorem State.setInbox_errlog (s : State) (p : Port) (ws : List Word) : (s.setInbox p ws).errlog = s.errlog := rfl
@[simp] theorem State.setInbox_cWait (s : State) (p : Port) (ws : List Word) : (s.setInbox p ws).cWait = s.cWait := rfl
@[simp] theorem State.setInbox_picout (s : State) (p : Port) (ws : List Word) : (s.setInbox p ws).picout = s.picout := rfl
@[simp] theorem State.setInbox_byteout (s : State) (p : Port) (ws : List Word) : (s.setInbox p ws).byteout = s.byteout := rfl
@[simp] theorem State.setInbox_inP (s : State) (p : Port) (ws : List Word) : (s.setInbox p ws).inP = if p = .P then ws else s.inP := rfl
@[simp] theorem State.setInbox_inC (s : State) (p : Port) (ws : List Word) : (s.setInbox p ws).inC = if p = .C then ws else s.inC := rfl
@[simp] theorem State.setInbox_respP (s : State) (p : Port) (ws : List Word) : (s.setInbox p ws).respP = s.respP := rfl
@[simp] theorem State.setInbox_respC (s : State) (p : Port) (ws : List Word) : (s.setInbox p ws).respC = s.respC := rfl
@[simp] theorem State.setInbox_port (s : State) (p : Port) (ws : List Word) : (s.setInbox p ws).port = s.port := rfl
@[simp] theorem State.setInbox_grants (s : State) (p : Port) (ws : List Word) : (s.setInbox p ws).grants = s.grants := rfl
@[simp] theorem State.setInbox_grantCount (s : State) (p : Port) (ws : List Word) : (s.setInbox p ws).grantCount = s.grantCount := rfl

/-! ### `takeGrant` -/

@[simp] theorem takeGrant_cfg (s : State) : (takeGrant s).cfg = s.cfg := rfl
@[simp] theorem takeGrant_raw (s : State) : (takeGrant s).raw = s.raw := rfl
@[simp] theorem takeGrant_nbits (s : State) : (takeGrant s).nbits = s.nbits := rfl
@[simp] theorem takeGrant_sealed (s : State) : (takeGrant s).sealed = s.sealed := rfl
@[simp] theorem takeGrant_emu (s : State) : (takeGrant s).emu = s.emu := rfl
@[simp] theorem takeGrant_emuLen (s : State) : (takeGrant s).emuLen = s.emuLen := rfl
@[simp] theorem takeGrant_rbuf (s : State) : (takeGrant s).rbuf = s.rbuf := rfl
@[simp] theorem takeGrant_rlen (s : State) : (takeGrant s).rlen = s.rlen := rfl
@[simp] theorem takeGrant_rpos (s : State) : (takeGrant s).rpos = s.rpos := rfl
@[simp] theorem takeGrant_dpbInit (s : State) : (takeGrant s).dpbInit = s.dpbInit := rfl
@[simp] theorem takeGrant_dpbMax (s : State) : (takeGrant s).dpbMax = s.dpbMax := rfl
@[simp] theorem takeGrant_slots (s : State) : (takeGrant s).slots = s.slots := rfl
@[simp] theorem takeGrant_refset (s : State) : (takeGrant s).refset = s.refset := rfl
@[simp] theorem takeGrant_l0 (s : State) : (takeGrant s).l0 = s.l0 := rfl
@[simp] theorem takeGrant_l1 (s : State) : (takeGrant s).l1 = s.l1 := rfl
@[simp] theorem takeGrant_maxRef (s : State) : (takeGrant s).maxRef = s.maxRef := rfl
@[simp] theorem takeGrant_maxL0 (s : State) : (takeGrant s).maxL0 = s.maxL0 := rfl
@[simp] theorem takeGrant_maxL1 (s : State) : (takeGrant s).maxL1 = s.maxL1 := rfl
@[simp] theorem takeGrant_ropState (s : State) : (takeGrant s).ropState = s.ropState := rfl
@[simp] theorem takeGrant_roq (s : State) : (takeGrant s).roq = s.roq := rfl
@[simp] theorem takeGrant_frameIdx (s : State) : (takeGrant s).frameIdx = s.frameIdx := rfl
@[simp] theorem takeGrant_frameNumCtr (s : State) : (takeGrant s).frameNumCtr = s.frameNumCtr := rfl
@[simp] theorem takeGrant_presIdx (s : State) : (takeGrant s).presIdx = s.presIdx := rfl
@[simp] theorem takeGrant_seenFirst (s : State) : (takeGrant s).seenFirst = s.seenFirst := rfl
@[simp] theorem takeGrant_keyPeriod (s : State) : (takeGrant s).keyPeriod = s.keyPeriod := rfl
@[simp] theorem takeGrant_intraPeriod (s : State) : (takeGrant s).intraPeriod = s.intraPeriod := rfl
@[simp] theorem takeGrant_outq (s : State) : (takeGrant s).outq = s.outq := rfl
@[simp] theorem takeGrant_errlog (s : State) : (takeGrant s).errlog = s.errlog := rfl
@[simp] theorem takeGrant_cWait (s : State) : (takeGrant s).cWait = s.cWait := rfl
@[simp] theorem takeGrant_picout (s : State) : (takeGrant s).picout = s.picout := rfl
@[simp] theorem takeGrant_byteout (s : State) : (takeGrant s).byteout = s.byteout := rfl
@[simp] theorem takeGrant_inP (s : State) : (takeGrant s).inP = s.inP := rfl
@[simp] theorem takeGrant_inC (s : State) : (takeGrant s).inC = s.inC := rfl
@[simp] theorem takeGrant_respP (s : State) : (takeGrant s).respP = s.respP := rfl
@[simp] theorem takeGrant_respC (s : State) : (takeGrant s).respC = s.respC := rfl
@[simp] theorem takeGrant_port (s : State) : (takeGrant s).port = s.port := rfl
@[simp] theorem takeGrant_grants (s : State) : (takeGrant s).grants = (decisions s).tail := rfl
@[simp] theorem takeGrant_grantCount (s : State) :
    (takeGrant s).grantCount = if s.grants = [] then s.grantCount + 1 else s.grantCount := rfl

/-! ### `startPacket` -/

@[simp] theorem startPacket_cfg (s : State) (p : Port) (ws : List Word) : (startPacket s p ws).cfg = s.cfg := rfl
@[simp] theorem startPacket_raw (s : State) (p : Port) (ws : List Word) : (startPacket s p ws).raw = s.raw := rfl
@[simp] theorem startPacket_nbits (s : State) (p : Port) (ws : List Word) : (startPacket s p ws).nbits = s.nbits := rfl
@[simp] theorem startPacket_sealed (s : State) (p : Port) (ws : List Word) : (startPacket s p ws).sealed = s.sealed := rfl
@[simp] theorem startPacket_emu (s : State) (p : Port) (ws : List Word) : (startPacket s p ws).emu = s.emu := rfl
@[simp] theorem startPacket_emuLen (s : State) (p : Port) (ws : List Word) : (startPacket s p ws).emuLen = s.emuLen := rfl
@[simp] theorem startPacket_rbuf (s : State) (p : Port) (ws : List Word) : (startPacket s p ws).rbuf = s.rbuf := rfl
@[simp] theorem startPacket_rlen (s : State) (p : Port) (ws : List Word) : (startPacket s p ws).rlen = s.rlen := rfl
@[simp] theorem startPacket_rpos (s : State) (p : Port) (ws : List Word) : (startPacket s p ws).rpos = s.rpos := rfl
@[simp] theorem startPacket_dpbInit (s : State) (p : Port) (ws : List Word) : (startPacket s p ws).dpbInit = s.dpbInit := rfl
@[simp] theorem startPacket_dpbMax (s : State) (p : Port) (ws : List Word) : (startPacket s p ws).dpbMax = s.dpbMax := rfl
@[simp] theorem startPacket_slots (s : State) (p : Port) (ws : List Word) : (startPacket s p ws).slots = s.slots := rfl
@[simp] theorem startPacket_refset (s : State) (p : Port) (ws : List Word) : (startPacket s p ws).refset = s.refset := rfl
@[simp] theorem startPacket_l0 (s : State) (p : Port) (ws : List Word) : (startPacket s p ws).l0 = s.l0 := rfl
@[simp] theorem startPacket_l1 (s : State) (p : Port) (ws : List Word) : (startPacket s p ws).l1 = s.l1 := rfl
@[simp] theorem startPacket_maxRef (s : State) (p : Port) (ws : List Word) : (startPacket s p ws).maxRef = s.maxRef := rfl
@[simp] theorem startPacket_maxL0 (s : State) (p : Port) (ws : List Word) : (startPacket s p ws).maxL0 = s.maxL0 := rfl
@[simp] theorem startPacket_maxL1 (s : State) (p : Port) (ws : List Word) : (startPacket s p ws).maxL1 = s.maxL1 := rfl
@[simp] theorem startPacket_ropState (s : State) (p : Port) (ws : List Word) : (startPacket s p ws).ropState = s.ropState := rfl
@[simp] theorem startPacket_roq (s : State) (p : Port) (ws : List Word) : (startPacket s p ws).roq = s.roq := rfl
@[simp] theorem startPacket_frameIdx (s : State) (p : Port) (ws : List Word) : (startPacket s p ws).frameIdx = s.frameIdx := rfl
@[simp] theorem startPacket_frameNumCtr (s : State) (p : Port) (ws : List Word) : (startPacket s p ws).frameNumCtr = s.frameNumCtr := rfl
@[simp] theorem startPacket_presIdx (s : State) (p : Port) (ws : List Word) : (startPacket s p ws).presIdx = s.presIdx := rfl
@[simp] theorem startPacket_seenFirst (s : State) (p : Port) (ws : List Word) : (startPacket s p ws).seenFirst = s.seenFirst := rfl
@[simp] theorem startPacket_keyPeriod (s : State) (p : Port) (ws : List Word) : (startPacket s p ws).keyPeriod = s.keyPeriod := rfl
@[simp] theorem startPacket_intraPeriod (s : State) (p : Port) (ws : List Word) : (startPacket s p ws).intraPeriod = s.intraPeriod := rfl
@[simp] theorem startPacket_outq (s : State) (p : Port) (ws : List Word) : (startPacket s p ws).outq = s.outq := rfl
@[simp] theorem startPacket_errlog (s : State) (p : Port) (ws : List Word) : (startPacket s p ws).errlog = s.errlog := rfl
@[simp] theorem startPacket_cWait (s : State) (p : Port) (ws : List Word) : (startPacket s p ws).cWait = s.cWait := rfl
@[simp] theorem startPacket_picout (s : State) (p : Port) (ws : List Word) : (startPacket s p ws).picout = s.picout := rfl
@[simp] theorem startPacket_byteout (s : State) (p : Port) (ws : List Word) : (startPacket s p ws).byteout = s.byteout := rfl
@[simp] theorem startPacket_inP (s : State) (p : Port) (ws : List Word) : (startPacket s p ws).inP = if p = .P then ws else s.inP := rfl
@[simp] theorem startPacket_inC (s : State) (p : Port) (ws : List Word) : (startPacket s p ws).inC = if p = .C then ws else s.inC := rfl
@[simp] theorem startPacket_respP (s : State) (p : Port) (ws : List Word) : (startPacket s p ws).respP = s.respP := rfl
@[simp] theorem startPacket_respC (s : State) (p : Port) (ws : List Word) : (startPacket s p ws).respC = s.respC := rfl
@[simp] theorem startPacket_port (s : State) (p : Port) (ws : List Word) : (startPacket s p ws).port = p := rfl
@[simp] theorem startPacket_grants (s : State) (p : Port) (ws : List Word) : (startPacket s p ws).grants = s.grants := rfl
@[simp] theorem startPacket_grantCount (s : State) (p : Port) (ws : List Word) : (startPacket s p ws).grantCount = s.grantCount := rfl

end Sys2Proof.Machine
end

