-- ==== Sys2Proof/Laws/Endings.lean ====
section
/-! SUPPORT. Laws of the shared operations that open and end commands: each says once everything the operation can do. -/

namespace Sys2Proof.Machine

/-! ### Ending a command -/

/-- Ending with a non-failure adds the response and nothing else. -/
theorem done_eq_answered (s : State) (st : Status) (r0 r1 r2 r3 : Word) (h : st.isFailure = false) :
    s.done st r0 r1 r2 r3 = answered s st r0 r1 r2 r3 := by
  have he : st.errBits = 0#32 := by simp [Status.errBits, h]
  cases hp : s.port <;> simp [State.done, State.respond, answered, he, hp]

/-- Failing adds the response and sets the status's bit of `errlog`. -/
theorem fail_eq_failed (s : State) (st : Status) (h : st.isFailure = true) : s.fail st = failed s st := by
  cases hp : s.port <;>
    simp [State.fail, State.done, State.respond, failed, answered, hp, Status.errBits, h, BitVec.twoPow]

/-! ### The port test -/

@[simp] theorem onProducer_of_P {s : State} (h : s.port = .P) (body : State) : onProducer s body = body := by
  simp [onProducer, h]

@[simp] theorem onProducer_of_C {s : State} (h : s.port = .C) (body : State) : onProducer s body = s.fail .ePort := by
  simp [onProducer, h]

@[simp] theorem onConsumer_of_C {s : State} (h : s.port = .C) (body : State) : onConsumer s body = body := by
  simp [onConsumer, h]

@[simp] theorem onConsumer_of_P {s : State} (h : s.port = .P) (body : State) : onConsumer s body = s.fail .ePort := by
  simp [onConsumer, h]

/-- The DPB's opening, once initialised and on port P. -/
@[simp] theorem onDpb_of_init {s : State} (hp : s.port = .P) (hi : s.dpbInit = true) (body : State) :
    onDpb s body = body := by
  simp [onDpb, hp, hi]

/-- The DPB's opening before `DPB_INIT`. -/
theorem onDpb_of_not_init {s : State} (hp : s.port = .P) (hi : s.dpbInit = false) (body : State) :
    onDpb s body = s.fail .eNotInit := by
  simp [onDpb, hp, hi]

/-! ### The flags byte -/

/-- The fields of a flags byte built from its parts. -/
theorem flags_of_parts (t : PicType) : ∀ i k o r : Bool,
    let f : Byte := 0#2 ++ t.code ++ BitVec.ofBool i ++ BitVec.ofBool k ++ BitVec.ofBool o ++ BitVec.ofBool r
    flagsRef f = r ∧ flagsOut f = o ∧ flagsSkip f = k ∧ flagsIdr f = i ∧ flagsType f = some t ∧ flagsIllegal f = false := by
  cases t <;> decide

@[simp] theorem flagsRef_flagsByte (p : Picture) : flagsRef (flagsByte p) = p.ref :=
  (flags_of_parts p.type p.idr p.skip p.out p.ref).1

@[simp] theorem flagsOut_flagsByte (p : Picture) : flagsOut (flagsByte p) = p.out :=
  (flags_of_parts p.type p.idr p.skip p.out p.ref).2.1

@[simp] theorem flagsSkip_flagsByte (p : Picture) : flagsSkip (flagsByte p) = p.skip :=
  (flags_of_parts p.type p.idr p.skip p.out p.ref).2.2.1

@[simp] theorem flagsIdr_flagsByte (p : Picture) : flagsIdr (flagsByte p) = p.idr :=
  (flags_of_parts p.type p.idr p.skip p.out p.ref).2.2.2.1

@[simp] theorem flagsType_flagsByte (p : Picture) : flagsType (flagsByte p) = some p.type :=
  (flags_of_parts p.type p.idr p.skip p.out p.ref).2.2.2.2.1

@[simp] theorem flagsIllegal_flagsByte (p : Picture) : flagsIllegal (flagsByte p) = false :=
  (flags_of_parts p.type p.idr p.skip p.out p.ref).2.2.2.2.2

/-- The operands made from a picture record assemble to that record. -/
@[simp] theorem pictureOf_flagsByte (p : Picture) :
    pictureOf (flagsByte p) p.type p.surf p.poc p.frameNum = p := by
  simp [pictureOf]

/-- The opening of a command whose operand `F` is that of a picture record, on port P. -/
@[simp] theorem withFlags_flagsByte {s : State} (hp : s.port = .P) (p : Picture) (body : PicType → State) :
    withFlags (flagsByte p) s body = body p.type := by
  simp [withFlags, hp]

/-- The opening on port C, reserved bits clear. -/
theorem withFlags_of_C {s : State} (hp : s.port = .C) (f : Byte) (hf : flagsReservedClear f = true)
    (body : PicType → State) : withFlags f s body = s.fail .ePort := by
  have : flagsIllegal f = false := by
    simp only [flagsReservedClear, beq_iff_eq] at hf
    simp [flagsIllegal, hf]
  simp [withFlags, hp, this]

/-! ### The writer's and the reader's common ends -/

/-- What writing a field does when the writer is not sealed and the field fits: the field's bits, and nothing else of the
buffer. -/
theorem putField_ok {s : State} (hs : s.sealed = false) (n v : Nat) (hn : s.nbits + n ≤ 8 * s.cfg.bswCapBytes)
    (hw : Memory.wf s.raw) :
    ∃ m, FieldWritten s.raw m s.nbits n v ∧
      putField n v s =
        answered { s with raw := m, nbits := s.nbits + n } .stOk (u32 n) (u32 (s.nbits + n)) := by
  refine ⟨bitWrite s.raw s.nbits n v, ⟨bitAt_bitWrite hw _ _ _, fun a ha => read_bitWrite hw _ _ _ _ ha,
    wf_bitWrite hw _ _ _⟩, ?_⟩
  rw [putField, if_neg (by simp [hs]), if_neg (by omega), done_eq_answered _ _ _ _ _ _ rfl]

/-- Writing a field on a sealed writer. -/
theorem putField_sealed {s : State} (hs : s.sealed = true) (n v : Nat) : putField n v s = failed s .eSealed := by
  rw [putField, if_pos hs, fail_eq_failed _ _ rfl]

/-- Writing a field that does not fit. -/
theorem putField_full {s : State} (hs : s.sealed = false) (n v : Nat) (hn : 8 * s.cfg.bswCapBytes < s.nbits + n) :
    putField n v s = failed s .eNoSpace := by
  rw [putField, if_neg (by simp [hs]), if_pos hn, fail_eq_failed _ _ rfl]

end Sys2Proof.Machine
end

