-- ==== Sys2Proof/Laws/Fetch.lean ====
section
/-! SUPPORT. Laws of the arbiter: a round lets both ports move, there is always a next decision, and using one up leaves the
rest as they are. -/

namespace Sys2Proof.Machine

/-- A round lets each port move. -/
theorem mem_arbiterRound (n : Nat) (p : Port) : p ∈ arbiterRound n := by
  cases p <;> simp [arbiterRound]

theorem arbiterRound_ne_nil (n : Nat) : arbiterRound n ≠ [] :=
  List.ne_nil_of_mem (mem_arbiterRound n .C)

@[simp] theorem decisions_of_nil {s : State} (h : s.grants = []) : decisions s = arbiterRound s.grantCount := by
  simp [decisions, h]

@[simp] theorem decisions_of_ne_nil {s : State} (h : s.grants ≠ []) : decisions s = s.grants := by
  simp [decisions, h]

/-- The decisions are read from the two fields of the model's own, and from nothing else. -/
theorem decisions_congr {s t : State} (hg : t.grants = s.grants) (hc : t.grantCount = s.grantCount) :
    decisions t = decisions s := by
  unfold decisions; rw [hg, hc]

/-- There is always a next decision. -/
theorem decisions_ne_nil (s : State) : decisions s ≠ [] := by
  by_cases h : s.grants = []
  · rw [decisions_of_nil h]; exact arbiterRound_ne_nil _
  · rwa [decisions_of_ne_nil h]

/-- The port that moves is the head of the decisions. -/
theorem decisions_eq_cons (s : State) : decisions s = granted s :: (takeGrant s).grants := by
  obtain ⟨p, l, h⟩ := List.exists_cons_of_ne_nil (decisions_ne_nil s)
  simp [granted, h]

/-- A decision already made names the port that moves. -/
@[simp] theorem granted_of_grants {s : State} {p : Port} {l : List Port} (h : s.grants = p :: l) : granted s = p := by
  simp [granted, decisions, h]

/-- A decision already made is used up by itself. -/
theorem takeGrant_of_grants {s : State} {p : Port} {l : List Port} (h : s.grants = p :: l) :
    takeGrant s = { s with grants := l } := by
  simp [takeGrant, decisions, h]

/-- The decisions after one is used up: the rest of them, or the next round. -/
theorem decisions_takeGrant (s : State) :
    decisions (takeGrant s) =
      if (decisions s).tail = [] then arbiterRound (takeGrant s).grantCount else (decisions s).tail := rfl

end Sys2Proof.Machine
end

