-- ==== Sys2Proof/Laws/PerInstr.lean ====
section
/-! SUPPORT. A law of every instruction as syntax, one lemma per constructor: its packet is as long as its opcode says
(30_encoding R81, R90). -/

namespace Sys2Proof.Laws.PacketLength

/-- The packet of `i` is not empty, and its first word announces exactly its length. -/
def Statement (i : Instr) : Prop :=
  ∃ w0 ps, encode i = w0 :: ps ∧ packetLen (opOf w0) = (encode i).length

theorem nop : Statement (.nop) := ⟨_, _, rfl, packetLen_word0 _ _ _⟩

theorem sreset : Statement (.sreset) := ⟨_, _, rfl, packetLen_word0 _ _ _⟩

theorem csrr (a : Half) : Statement (.csrr a) := ⟨_, _, rfl, packetLen_word0 _ _ _⟩

theorem csrw (a : Half) (v : Word) : Statement (.csrw a v) := ⟨_, _, rfl, packetLen_word0 _ _ _⟩

theorem bswClear : Statement (.bswClear) := ⟨_, _, rfl, packetLen_word0 _ _ _⟩

theorem putBits (n : Byte) (v : Word) : Statement (.putBits n v) := ⟨_, _, rfl, packetLen_word0 _ _ _⟩

theorem putUe (v : Word) : Statement (.putUe v) := ⟨_, _, rfl, packetLen_word0 _ _ _⟩

theorem putSe (v : Word) : Statement (.putSe v) := ⟨_, _, rfl, packetLen_word0 _ _ _⟩

theorem align (b : Bool) : Statement (.align b) := ⟨_, _, rfl, packetLen_word0 _ _ _⟩

theorem nalHdr (r : BitVec 2) (u : BitVec 5) : Statement (.nalHdr r u) := ⟨_, _, rfl, packetLen_word0 _ _ _⟩

theorem rbspTrail : Statement (.rbspTrail) := ⟨_, _, rfl, packetLen_word0 _ _ _⟩

theorem emitRaw (l : Half) : Statement (.emitRaw l) := ⟨_, _, rfl, packetLen_word0 _ _ _⟩

theorem emitEpb (l : Half) : Statement (.emitEpb l) := ⟨_, _, rfl, packetLen_word0 _ _ _⟩

theorem bsrClear : Statement (.bsrClear) := ⟨_, _, rfl, packetLen_word0 _ _ _⟩

theorem bsrPush (b : Byte) : Statement (.bsrPush b) := ⟨_, _, rfl, packetLen_word0 _ _ _⟩

theorem bsrLoad (b : Bool) : Statement (.bsrLoad b) := ⟨_, _, rfl, packetLen_word0 _ _ _⟩

theorem bsrUnesc : Statement (.bsrUnesc) := ⟨_, _, rfl, packetLen_word0 _ _ _⟩

theorem getBits (n : Byte) : Statement (.getBits n) := ⟨_, _, rfl, packetLen_word0 _ _ _⟩

theorem getUe : Statement (.getUe) := ⟨_, _, rfl, packetLen_word0 _ _ _⟩

theorem getSe : Statement (.getSe) := ⟨_, _, rfl, packetLen_word0 _ _ _⟩

theorem dpbInit (c : Byte) : Statement (.dpbInit c) := ⟨_, _, rfl, packetLen_word0 _ _ _⟩

theorem dpbAdd (f : Byte) (s : Half) (p : Word) (n : Half) : Statement (.dpbAdd f s p n) := ⟨_, _, rfl, packetLen_word0 _ _ _⟩

theorem dpbBump : Statement (.dpbBump) := ⟨_, _, rfl, packetLen_word0 _ _ _⟩

theorem dpbFlush : Statement (.dpbFlush) := ⟨_, _, rfl, packetLen_word0 _ _ _⟩

theorem dpbOldest (b : Bool) : Statement (.dpbOldest b) := ⟨_, _, rfl, packetLen_word0 _ _ _⟩

theorem dpbNeigh (p : Word) : Statement (.dpbNeigh p) := ⟨_, _, rfl, packetLen_word0 _ _ _⟩

theorem rplUpdate (f : Byte) (s : Half) (p : Word) (n : Half) : Statement (.rplUpdate f s p n) := ⟨_, _, rfl, packetLen_word0 _ _ _⟩

theorem rplInit (f : Byte) : Statement (.rplInit f) := ⟨_, _, rfl, packetLen_word0 _ _ _⟩

theorem rplRead (w : BitVec 2) (i : Half) : Statement (.rplRead w i) := ⟨_, _, rfl, packetLen_word0 _ _ _⟩

theorem ropEnq (b : Bool) (s : Half) : Statement (.ropEnq b s) := ⟨_, _, rfl, packetLen_word0 _ _ _⟩

theorem ropSubmit : Statement (.ropSubmit) := ⟨_, _, rfl, packetLen_word0 _ _ _⟩

theorem outqPush (f : Byte) (s : Half) (p : Word) (n : Half) (b : Word) : Statement (.outqPush f s p n b) := ⟨_, _, rfl, packetLen_word0 _ _ _⟩

theorem outqPeek : Statement (.outqPeek) := ⟨_, _, rfl, packetLen_word0 _ _ _⟩

theorem outqPop : Statement (.outqPop) := ⟨_, _, rfl, packetLen_word0 _ _ _⟩

theorem outqWait : Statement (.outqWait) := ⟨_, _, rfl, packetLen_word0 _ _ _⟩

end Sys2Proof.Laws.PacketLength
end

