-- ==== Sys2Proof/Tests/Slice0.lean ====
section
/-! SUPPORT. The model's own tests. Expected words and values are those of 95_test_vectors to 98_test_vectors_system (named in
each comment), 30_encoding R86 and R91, or worked out by hand from the rules. At the end, a state and operands that meet the
hypotheses of each obligation that has any. -/

namespace Sys2Proof.Tests
open Sys2Proof Sys2Proof.Machine

/-! ### Well-formedness: each check refuses an ill-formed command -/

theorem test_wf_dpbAdd : (Instr.dpbAdd 0x40#8 0#16 0#32 0#16).wf = false := by decide
theorem test_wf_rplUpdate : (Instr.rplUpdate 0x80#8 0#16 0#32 0#16).wf = false := by decide
theorem test_wf_rplInit : (Instr.rplInit 0xC0#8).wf = false := by decide
theorem test_wf_outqPush : (Instr.outqPush 0x7F#8 0#16 0#32 0#16 0#32).wf = false := by decide
theorem test_wf_accepts_every_clear_flags_byte : (Instr.rplInit 0x3F#8).wf = true := by decide

/-! ### Decoding, every constructor (30_encoding R86, R91; the packets of the vectors) -/

theorem test_decode_sys :
    decode [0x00000000#32] = .ok .nop ∧ decode [0x01000000#32] = .ok .sreset ∧
    decode [0x02000064#32] = .ok (.csrr 0x0064#16) ∧
    decode [0b00000011000000000000000001100000#32, 0x0000001E#32] = .ok (.csrw 0x0060#16 30#32) := by decide

theorem test_decode_writer :
    decode [0x10000000#32] = .ok .bswClear ∧
    decode [0b00010001000011000000000000000000#32, 0x00000ABC#32] = .ok (.putBits 12#8 0xABC#32) ∧
    decode [0x12000000#32, 0x0000007E#32] = .ok (.putUe 126#32) ∧
    decode [0x13000000#32, 0xFFFFFFFD#32] = .ok (.putSe 0xFFFFFFFD#32) ∧
    decode [0x14010000#32] = .ok (.align true) ∧
    decode [0b00010101011001110000000000000000#32] = .ok (.nalHdr 3#2 7#5) ∧
    decode [0x16000000#32] = .ok .rbspTrail ∧ decode [0x1700FFFF#32] = .ok (.emitRaw 0xFFFF#16) ∧
    decode [0x18000005#32] = .ok (.emitEpb 5#16) := by decide

theorem test_decode_reader :
    decode [0x20000000#32] = .ok .bsrClear ∧
    decode [0b00100001101010110000000000000000#32] = .ok (.bsrPush 0xAB#8) ∧
    decode [0x22010000#32] = .ok (.bsrLoad true) ∧ decode [0x22000000#32] = .ok (.bsrLoad false) ∧
    decode [0x23000000#32] = .ok .bsrUnesc ∧ decode [0x24180000#32] = .ok (.getBits 24#8) ∧
    decode [0x25000000#32] = .ok .getUe ∧ decode [0x26000000#32] = .ok .getSe := by decide

theorem test_decode_dpb :
    decode [0x40020000#32] = .ok (.dpbInit 2#8) ∧
    decode [0b01000001000100010000000000001011#32, 0x00000002#32, 0x00000001#32] = .ok (.dpbAdd 0x11#8 0x000B#16 2#32 1#16) ∧
    decode [0x42000000#32] = .ok .dpbBump ∧ decode [0x43000000#32] = .ok .dpbFlush ∧
    decode [0x44010000#32] = .ok (.dpbOldest true) ∧
    decode [0x45000000#32, 0xFFFFFFFF#32] = .ok (.dpbNeigh 0xFFFFFFFF#32) := by decide

theorem test_decode_rpl :
    decode [0x50110041#32, 0x00000002#32, 0x00000001#32] = .ok (.rplUpdate 0x11#8 0x0041#16 2#32 1#16) ∧
    decode [0x51090000#32] = .ok (.rplInit 0x09#8) ∧
    decode [0b01010010000000010000000000000001#32] = .ok (.rplRead 1#2 1#16) := by decide

theorem test_decode_rop :
    decode [0b01100000000000010000000000100001#32] = .ok (.ropEnq true 0x0021#16) ∧
    decode [0x61000000#32] = .ok .ropSubmit ∧
    decode [0x62090020#32, 0x00000000#32, 0x00000000#32, 0xB0000001#32]
      = .ok (.outqPush 0x09#8 0x0020#16 0#32 0#16 0xB0000001#32) ∧
    decode [0x63000000#32] = .ok .outqPeek ∧ decode [0x64000000#32] = .ok .outqPop ∧
    decode [0x65000000#32] = .ok .outqWait := by decide

/-- T80, T14, T76, R91: reserved bits, an unassigned opcode, a packet cut short. -/
theorem test_decode_rejects :
    decode [0x00010000#32] = .error (.reservedBits "NOP") ∧ decode [0x00000001#32] = .error (.reservedBits "NOP") ∧
    decode [0x15E70000#32] = .error (.reservedBits "NAL_HDR") ∧
    decode [0x62090020#32, 0#32, 0x00010000#32, 1#32] = .error (.reservedBits "OUTQ_PUSH") ∧
    decode [0xFF000000#32] = .error (.unassigned 0xFF#8) ∧
    decode [0x62090020#32, 0#32, 0#32] = .error .incomplete := by decide

/-- The opcode table numbers word 1 from bit 32 on (`spec/opcode_table.json`). -/
theorem test_decodeTableWord :
    decodeTableWord 64 0x0000004211080000 = some (.putBits 8#8 66#32) ∧
    decodeTableWord 96 0x000000010000000241110011 = some (.dpbAdd 0x11#8 0x0011#16 2#32 1#16) ∧
    decodeTableWord 32 0x00010000 = none := by decide

/-! ### One step on a small state -/

/-- The state a command ends in. -/
def result (i : Instr) (s : State) : State :=
  match exec i s with
  | .next t => t
  | _ => s

/-- The last response on the issuing port. -/
def answer (i : Instr) (s : State) : Option Response := ((result i s).responses s.port).getLast?

/-- A response without result words. -/
def plain (st : Status) : Option Response := some ⟨st, 0#32, 0#32, 0#32, 0#32⟩

/-- A writer that holds the bytes `bs`, then `k` bits of value `v`. -/
def writer (bs : List Byte) (k v : Nat) : State :=
  { State.reset with raw := bitWrite (Memory.ofBytes bs) (8 * bs.length) k v, nbits := 8 * bs.length + k }

/-- The writer of T17 after step 2: the byte `67`, sealed. -/
def sealedWriter : State :=
  { writer [0x67#8] 0 0 with emu := [(3, 0x01#8), (4, 0x67#8)], emuLen := 5, sealed := true }

/-- A reader that holds the bytes `bs`, at bit `k`. -/
def reader (bs : List Byte) (k : Nat) : State :=
  { State.reset with rbuf := Memory.ofBytes bs, rlen := bs.length, rpos := k }

/-- A picture record, its type and flags given as `F`. -/
def pic (f : Byte) (surf : Half) (poc : Word) (n : Half) : Picture := pictureOf f ((flagsType f).getD .I) surf poc n

/-- A DPB of capacity `max` that holds `l`. -/
def dpb (max : Nat) (l : List Picture) : State := { State.reset with dpbInit := true, dpbMax := max, slots := l }

/-- `DPB_ADD` of a record. -/
def add (p : Picture) : Instr := .dpbAdd (flagsByte p) p.surf p.poc p.frameNum

/-- An output queue with the first two entries of T6. -/
def queued : State :=
  { State.reset with outq := [⟨pic 0x09#8 0x20#16 0#32 0#16, 0xB0000001#32, true, true⟩,
      ⟨pic 0x11#8 0x21#16 2#32 1#16, 0xB0000002#32, true, false⟩] }

/-- The same, seen by a command on port C. -/
def onPortC (s : State) : State := { s with port := .C }

/-- T80 step 1, T76 step 24. -/
theorem test_nop_both_ports : answer .nop State.reset = plain .stOk ∧ answer .nop (onPortC State.reset) = plain .stOk := by
  decide

/-- T82 steps 31, 33; R301: the history is kept. -/
theorem test_sreset : let s := { sealedWriter with picout := [pic 0x0B#8 0#16 0#32 0#16], errlog := 0x40#32 }
    (result .sreset s).nbits = 0 ∧ (result .sreset s).sealed = false ∧ (result .sreset s).errlog = 0#32 ∧
    (result .sreset s).picout = s.picout := by decide

/-- 45_system R236, 70_reset_and_hazards R300: a held wait ends with `ST_NO_DATA` on port C; the first word of a `CSRW` on port C
is dropped. -/
theorem test_sreset_ports : let s := { State.reset with cWait := true, inP := [0x61000000#32], inC := [0x03000060#32] }
    (result .sreset s).respC = [⟨.stNoData, 0#32, 0#32, 0#32, 0#32⟩] ∧ (result .sreset s).cWait = false ∧
    (result .sreset s).inP = [0x61000000#32] ∧ (result .sreset s).inC = [] := by decide

/-- T17 step 3, T80 step 5. -/
theorem test_csrr : answer (.csrr 0x0011#16) sealedWriter = some ⟨.stOk, 3#32, 0#32, 0#32, 0#32⟩ ∧
    answer (.csrr 0x0002#16) State.reset = plain .eInvalidParam := by decide

/-- T80 steps 13, 14, 15. -/
theorem test_csrw : answer (.csrw 0x0062#16 1#32) State.reset = plain .eUnsupported ∧
    answer (.csrw 0x0060#16 30#32) State.reset = some ⟨.stOk, 30#32, 0#32, 0#32, 0#32⟩ ∧
    csrValue .ropLog2mfn (result (.csrw 0x0060#16 30#32) State.reset) = 5#32 := by decide

/-- R238: `RPL_MAXREF` is not lowered below the live entries. -/
theorem test_csrw_busy : let s := { State.reset with maxRef := 2, refset := [⟨1#16, 2#32, 3#16⟩, ⟨0#16, 0#32, 4#16⟩] }
    answer (.csrw 0x0050#16 1#32) s = plain .eBusy ∧ (result (.csrw 0x0050#16 17#32) s).maxRef = 2 := by decide

/-- T17 steps 14 to 16. -/
theorem test_bswClear : (result .bswClear sealedWriter).sealed = false ∧ (result .bswClear sealedWriter).emuLen = 0 := by decide

/-- T10 steps 1 and 7 (`BF` then `DEADBEEF`), T10 step 6. -/
theorem test_putBits : Memory.bytes (result (.putBits 32#8 0xDEADBEEF#32) (writer [0xBF#8] 0 0)).raw 5
      = [0xBF#8, 0xDE#8, 0xAD#8, 0xBE#8, 0xEF#8] ∧
    answer (.putBits 4#8 16#32) State.reset = plain .eInvalidParam := by decide

/-- T11 step 3: a field across a byte boundary. -/
theorem test_putBits_across_bytes : let t := result (.putBits 9#8 0x101#32) (writer [0xD5#8] 0 0)
    Memory.bytes t.raw 3 = [0xD5#8, 0x80#8, 0x80#8] ∧ t.nbits = 17 := by decide

/-- T12, the largest value and the refused one. -/
theorem test_putUe : Memory.bytes (result (.putUe 0xFFFFFFFE#32) State.reset).raw 8
      = [0x00#8, 0x00#8, 0x00#8, 0x01#8, 0xFF#8, 0xFF#8, 0xFF#8, 0xFE#8] ∧
    (result (.putUe 0xFFFFFFFE#32) State.reset).nbits = 63 ∧
    answer (.putUe 0xFFFFFFFF#32) State.reset = plain .eEgRange := by decide

/-- T13: -3 is `00111`, -2^31 is refused. -/
theorem test_putSe : Memory.bytes (result (.putSe 0xFFFFFFFD#32) State.reset).raw 1 = [0x38#8] ∧
    answer (.putSe 0x80000000#32) State.reset = plain .eEgRange := by decide

/-- T16, k = 3; T17 step 7. -/
theorem test_align : Memory.bytes (result (.align true) (writer [] 3 0)).raw 1 = [0x1F#8] ∧
    answer (.align false) sealedWriter = plain .eSealed := by decide

/-- T14, second to last legal row. -/
theorem test_nalHdr : Memory.bytes (result (.nalHdr 3#2 31#5) State.reset).raw 1 = [0x7F#8] := by decide

/-- T15: a whole byte on an aligned writer, and k = 5. -/
theorem test_rbspTrail : Memory.bytes (result .rbspTrail State.reset).raw 1 = [0x80#8] ∧
    Memory.bytes (result .rbspTrail (writer [] 5 31)).raw 1 = [0xFC#8] := by decide

/-- T19 steps 6 and 7. -/
theorem test_emitRaw : answer (.emitRaw 0#16) (writer [0xA0#8] 0 0) = plain .eBufSmall ∧
    (result (.emitRaw 1#16) (writer [0xA0#8] 0 0)).byteout = [⟨.raw, [0xA0#8]⟩] := by decide

/-- P1 step 9. -/
theorem test_emitEpb : let t := result (.emitEpb 0xFFFF#16) (writer [0x67#8, 0x42#8, 0x00#8, 0x00#8, 0x03#8, 0xF9#8, 0xE0#8] 0 0)
    t.byteout = [⟨.epb, [0x00#8, 0x00#8, 0x00#8, 0x01#8, 0x67#8, 0x42#8, 0x00#8, 0x00#8, 0x03#8, 0x03#8, 0xF9#8, 0xE0#8]⟩] ∧
    t.sealed = true ∧ t.emuLen = 12 := by decide

/-- T18, the rows of five zeros and of `01 00 00 02 00 00 00 03`. -/
theorem test_epb : epb [0x00#8, 0x00#8, 0x00#8, 0x00#8, 0x00#8]
      = [0x00#8, 0x00#8, 0x00#8, 0x01#8, 0x00#8, 0x00#8, 0x03#8, 0x00#8, 0x00#8, 0x03#8, 0x00#8] ∧
    epb [0x01#8, 0x00#8, 0x00#8, 0x02#8, 0x00#8, 0x00#8, 0x00#8, 0x03#8]
      = [0x00#8, 0x00#8, 0x00#8, 0x01#8, 0x01#8, 0x00#8, 0x00#8, 0x03#8, 0x02#8, 0x00#8, 0x00#8, 0x03#8, 0x00#8, 0x03#8] := by
  decide

/-- T26 step 11. -/
theorem test_bsrClear : (result .bsrClear (reader [0xAB#8, 0xCD#8] 16)).rlen = 0 ∧
    (result .bsrClear (reader [0xAB#8, 0xCD#8] 16)).rpos = 0 := by decide

/-- T26 step 9; a full reader. -/
theorem test_bsrPush : Memory.bytes (result (.bsrPush 0xCD#8) (reader [0xAB#8] 0)).rbuf 2 = [0xAB#8, 0xCD#8] ∧
    answer (.bsrPush 1#8) { State.reset with rlen := 1540 } = plain .eNoSpace := by decide

/-- T17 step 13, T90 step 11. -/
theorem test_bsrLoad : Memory.bytes (result (.bsrLoad true) sealedWriter).rbuf 5 = [0x00#8, 0x00#8, 0x00#8, 0x01#8, 0x67#8] ∧
    answer (.bsrLoad true) (writer [] 3 5) = plain .eInvalidParam := by decide

/-- T30: the zero count that passes 2, and the 3-byte start code. -/
theorem test_bsrUnesc : let t := result .bsrUnesc (reader [0x00#8, 0x00#8, 0x00#8, 0x01#8, 0x00#8, 0x00#8, 0x00#8, 0x03#8] 9)
    t.rlen = 4 ∧ t.rpos = 0 ∧ Memory.bytes t.rbuf 4 = [0x00#8, 0x00#8, 0x00#8, 0x03#8] ∧
    answer .bsrUnesc (reader [0x00#8, 0x00#8, 0x01#8, 0x40#8] 0) = plain .eInvalidParam := by decide

/-- T25 steps 3 and 4. -/
theorem test_getBits :
    answer (.getBits 32#8) (reader [0xDE#8, 0xAD#8, 0xBE#8, 0xEF#8, 0x01#8] 0) = some ⟨.stOk, 0xDEADBEEF#32, 32#32, 0#32, 0#32⟩ ∧
    answer (.getBits 9#8) (reader [0xDE#8, 0xAD#8, 0xBE#8, 0xEF#8, 0x01#8] 32) = plain .eUnderrun := by decide

/-- T27, malformed and extreme codes. -/
theorem test_getUe : answer .getUe (reader [0x00#8, 0x00#8, 0x00#8, 0x00#8, 0x80#8] 0) = plain .eEgRange ∧
    answer .getUe (reader [0x08#8] 0) = plain .eUnderrun ∧
    answer .getUe (reader [0x00#8, 0x00#8, 0x00#8, 0x01#8, 0xFF#8, 0xFF#8, 0xFF#8, 0xFE#8] 0)
      = some ⟨.stOk, 0xFFFFFFFE#32, 63#32, 0#32, 0#32⟩ := by decide

/-- T27 steps 5 (`00111` at bit 16) and the row of 2^31 - 1. -/
theorem test_getSe : answer .getSe (reader [0x40#8, 0x60#8, 0x38#8, 0x80#8] 16) = some ⟨.stOk, 0xFFFFFFFD#32, 5#32, 0#32, 0#32⟩ ∧
    answer .getSe (reader [0x00#8, 0x00#8, 0x00#8, 0x01#8, 0xFF#8, 0xFF#8, 0xFF#8, 0xFC#8] 0)
      = some ⟨.stOk, 0x7FFFFFFF#32, 63#32, 0#32, 0#32⟩ := by decide

/-- T40 step 2; capacity 17 of 16 slots. -/
theorem test_dpbInit : answer (.dpbInit 2#8) State.reset = some ⟨.stOk, 2#32, 1#32, 0#32, 0#32⟩ ∧
    answer (.dpbInit 17#8) State.reset = plain .eInvalidParam := by decide

/-- T42 step 8 (conflict C1: the older, A, leaves and C takes its slot). -/
theorem test_dpbAdd_two_slot :
    let s := dpb 2 [pic 0x09#8 0xA#16 0#32 0#16, pic 0x11#8 0xB#16 2#32 1#16]
    let t := result (.dpbAdd 0x11#8 0xC#16 4#32 2#16) s
    t.slots = [pic 0x11#8 0xC#16 4#32 2#16, pic 0x11#8 0xB#16 2#32 1#16] ∧ t.picout = [pic 0x0B#8 0xA#16 0#32 0#16] := by decide

/-- T48 step 7: I0 is bumped and kept, b1 is bumped and removed. -/
theorem test_dpbAdd_general :
    let s := dpb 3 [pic 0x09#8 0x10#16 0#32 0#16, pic 0x11#8 0x13#16 6#32 1#16, pic 0x20#8 0x11#16 2#32 2#16]
    let t := result (.dpbAdd 0x11#8 0x16#16 12#32 2#16) s
    t.slots = [pic 0x0B#8 0x10#16 0#32 0#16, pic 0x11#8 0x13#16 6#32 1#16, pic 0x11#8 0x16#16 12#32 2#16] ∧
    t.picout = [pic 0x0B#8 0x10#16 0#32 0#16, pic 0x22#8 0x11#16 2#32 2#16] := by decide

/-- T52 step 6: the last live entry moves into the removed slot. -/
theorem test_dpbBump :
    let s := dpb 4 [pic 0x20#8 0xA#16 0#32 0#16, pic 0x20#8 0xB#16 2#32 1#16, pic 0x20#8 0xC#16 4#32 2#16, pic 0x20#8 0xD#16 6#32 3#16]
    (result .dpbBump s).slots = [pic 0x20#8 0xD#16 6#32 3#16, pic 0x20#8 0xB#16 2#32 1#16, pic 0x20#8 0xC#16 4#32 2#16] ∧
    answer .dpbBump s = some ⟨.stOk, 0#32, 0#32, 0x8022000A#32, 0#32⟩ := by decide

/-- T54 step 8: -2 before 2^31 - 1. -/
theorem test_dpbFlush :
    let s := dpb 3 [pic 0x20#8 0xB#16 0x7FFFFFFF#32 1#16, pic 0x20#8 0xA#16 0xFFFFFFFE#32 0#16]
    (result .dpbFlush s).slots = [] ∧
    (result .dpbFlush s).picout.map (·.surf) = [0xA#16, 0xB#16] ∧ answer .dpbFlush s = some ⟨.stOk, 2#32, 0#32, 0#32, 0#32⟩ := by
  decide

/-- T45 step 11; no match (T43 step 11). -/
theorem test_dpbOldest :
    answer (.dpbOldest true) (dpb 2 [pic 0x13#8 0xA#16 4#32 0#16, pic 0x13#8 0xD#16 6#32 3#16])
      = some ⟨.stOk, 4#32, 0#32, 0x8013000A#32, 0#32⟩ ∧
    answer (.dpbOldest true) (dpb 2 [pic 0x11#8 0xA#16 4#32 0#16]) = plain .stOk := by decide

/-- T43 step 12 and T47 step 2. -/
theorem test_dpbNeigh : let s := dpb 2 [pic 0x11#8 0xC#16 4#32 2#16, pic 0x11#8 0xB#16 2#32 1#16]
    answer (.dpbNeigh 3#32) s = some ⟨.stOk, 2#32, 0x8011000B#32, 4#32, 0x8011000C#32⟩ ∧
    answer (.dpbNeigh 0xFFFFFFFF#32) s = some ⟨.stOk, 0#32, 0#32, 2#32, 0x8011000B#32⟩ := by decide

/-- P4 steps 16 and 32. -/
theorem test_rplUpdate : let s := { State.reset with refset := [⟨0#16, 0#32, 0x40#16⟩] }
    (result (.rplUpdate 0x11#8 0x41#16 2#32 1#16) s).refset = [⟨1#16, 2#32, 0x41#16⟩] ∧
    answer (.rplUpdate 0x09#8 0x43#16 0#32 0#16) s = some ⟨.stOk, 1#32, 1#32, 0#32, 0#32⟩ := by decide

/-- P4 step 14; a B picture (43_reflist R194). -/
theorem test_rplInit : let s := { State.reset with refset := [⟨0#16, 0#32, 0x40#16⟩] }
    answer (.rplInit 0x11#8) s = some ⟨.stOk, 1#32, 0#32, 0#32, 0#32⟩ ∧ answer (.rplInit 0x20#8) s = plain .eUnsupported := by decide

/-- P4 step 21; T90 step 16. -/
theorem test_rplRead : answer (.rplRead 1#2 0#16) { State.reset with l0 := [⟨1#16, 2#32, 0x41#16⟩] }
      = some ⟨.stOk, 2#32, 1#32, 0x80000041#32, 0#32⟩ ∧
    answer (.rplRead 3#2 5#16) State.reset = plain .eInvalidParam := by decide

/-- P4 step 29: the period has elapsed. -/
theorem test_ropEnq_key_period :
    answer (.ropEnq false 0x43#16)
      { State.reset with seenFirst := true, keyPeriod := 3#32, frameIdx := 3#32, frameNumCtr := 3#32, presIdx := 3#32 }
      = some ⟨.stOk, 0#32, 0#32, 0x80090043#32, 1#32⟩ := by decide

/-- T75: the picture of `pres_idx` 32767. -/
theorem test_ropEnq_poc_wrap :
    let s := { State.reset with seenFirst := true, frameIdx := 32767#32, frameNumCtr := 15#32, presIdx := 32767#32 }
    (result (.ropEnq false 1#16) s).roq.map (·.poc) = [0xFFFE#32] ∧ (result (.ropEnq false 1#16) s).frameNumCtr = 0#32 := by decide

/-- T5 step 4. -/
theorem test_ropSubmit :
    let s := { State.reset with ropState := .dumpFrames, roq := [pic 0x09#8 0x21#16 0#32 0#16], seenFirst := true }
    answer .ropSubmit s = some ⟨.stOk, 0#32, 0#32, 0x80090021#32, 0#32⟩ ∧ (result .ropSubmit s).ropState = .waitFrames := by decide

/-- T76 step 5: an I picture that is no IDR picture has `sync`. -/
theorem test_outqPush : (result (.outqPush 0x01#8 0x22#16 4#32 2#16 0xB0000003#32) State.reset).outq
      = [⟨pic 0x01#8 0x22#16 4#32 2#16, 0xB0000003#32, true, true⟩] ∧
    answer (.outqPush 0x30#8 0#16 0#32 0#16 0#32) State.reset = plain .eInvalidParam := by decide

/-- T6 step 4. -/
theorem test_outqPeek : answer .outqPeek (onPortC queued) = some ⟨.stOk, 0#32, 0#32, 0x83090020#32, 0xB0000001#32⟩ := by decide

/-- T6 step 5 and T76 step 2. -/
theorem test_outqPop : answer .outqPop (onPortC queued) = some ⟨.stOk, 1#32, 0#32, 0#32, 0#32⟩ ∧
    answer .outqPop (onPortC State.reset) = plain .stNoData := by decide

/-- T76 steps 7 and 17; on an empty queue it is held. -/
theorem test_outqWait : answer .outqWait (onPortC queued) = some ⟨.stOk, 0#32, 0#32, 0x83090020#32, 0xB0000001#32⟩ ∧
    answer .outqWait queued = plain .ePort ∧ answer .outqWait (onPortC State.reset) = none ∧
    (result .outqWait (onPortC State.reset)).cWait = true := by decide

/-! ### Steps -/

/-- The state after one step, if it is a next state. -/
def stepped (s : State) : State :=
  match step s with
  | .next t => t
  | _ => s

/-- The very next step runs the command presented, on the port that may issue it. -/
theorem test_withFetchWord :
    (stepped (State.reset.withFetchWord 64 0x0000004211080000)).nbits = 8 ∧
    (stepped (State.reset.withFetchWord 32 0x65000000)).cWait = true := by decide

/-- T90 step 2: the encoding is tested before the port. T83 on port C. -/
theorem test_step_illegal :
    (stepped { State.reset with inC := [0x14020000#32], grants := [.C] }).errlog = 0x400#32 ∧
    (stepped { State.reset with inC := [0x66000000#32, 5#32], grants := [.C] }).inC = [5#32] := by decide

/-- A held wait ends once an entry is there (44_reorder_output R222). -/
theorem test_step_ends_wait :
    (stepped { queued with cWait := true, grants := [.C] }).respC = [⟨.stOk, 0#32, 0#32, 0x83090020#32, 0xB0000001#32⟩] ∧
    (stepped { State.reset with cWait := true, grants := [.C] }).cWait = true := by decide

/-! ### Witnesses: what meets the hypotheses of each obligation -/

/-- A state in which every unit holds something. -/
def busy : State :=
  { State.reset with
    raw := [(0, 0x67#8)], nbits := 8
    rbuf := [(0, 0xA0#8)], rlen := 1, rpos := 3
    dpbInit := true, dpbMax := 3, slots := [pic 0x0B#8 0x10#16 0#32 0#16, pic 0x20#8 0x11#16 2#32 1#16]
    refset := [⟨0#16, 0#32, 0x10#16⟩], l0 := [⟨0#16, 0#32, 0x10#16⟩]
    ropState := .dumpFrames, roq := [pic 0x09#8 0x12#16 0#32 0#16]
    frameIdx := 1#32, frameNumCtr := 1#32, presIdx := 1#32, seenFirst := true
    outq := [⟨pic 0x11#8 0x10#16 2#32 1#16, 7#32, true, false⟩]
    errlog := 0x40#32
    picout := [pic 0x0B#8 0x10#16 0#32 0#16]
    inP := [0x16000000#32], inC := [0x64000000#32], grants := [.P] }

theorem bitAt_of_empty (p : Nat) : bitAt [] p = false := by simp [bitAt, Memory.read]

theorem busy_writer : WriterInv busy where
  rawWf := by decide
  emuWf := by decide
  nbitsLe := by decide
  rawZero p hp := by
    have : 0 ≠ p / 8 := by change 8 ≤ p at hp; omega
    simp [busy, bitAt, Memory.read, this]
  emuLenLe := by decide
  emuZero _ _ := rfl
  unsealed _ := rfl
  isSealed h := by cases h

theorem busy_reader : ReaderInv busy where
  rbufWf := by decide
  rlenLe := by decide
  rposLe := by decide
  rbufZero i hi := by
    have : 0 ≠ i := by change 1 ≤ i at hi; omega
    simp [busy, Memory.read, this]

theorem busy_dpb : DpbInv busy where
  uninit := by decide
  inited := by decide
  slotsLe := by decide
  noGarbage := by decide
  twoSlot := by decide

theorem busy_rpl : RplInv busy where
  refsetLe := by decide
  maxRefPos := by decide
  maxRefLe := by decide
  maxL0Le := by decide
  maxL1Le := by decide
  l0Le := by decide
  l1Nil := by decide

theorem busy_rop : RopInv busy where
  dumping := by decide
  roqLe := by decide
  roqMade p hp := by
    obtain rfl : p = pic 0x09#8 0x12#16 0#32 0#16 := by simpa [busy] using hp
    exact ⟨by decide, by decide, by decide, by decide, by decide, by decide, by decide⟩
  seen := by decide
  frameNumCtrLt := by decide
  outqLe := by decide
  outqFlags := by decide

theorem busy_inv : BlockInv busy where
  params := by decide
  writer := busy_writer
  reader := busy_reader
  dpb := busy_dpb
  rpl := busy_rpl
  rop := busy_rop
  errlog := by decide
  picout := by decide

/-- A sealed writer that meets the writer's invariants. -/
theorem sealedWriter_inv : WriterInv sealedWriter where
  rawWf := by decide
  emuWf := by decide
  nbitsLe := by decide
  rawZero p hp := by
    have e : sealedWriter.raw = [(0, 0x67#8)] := by decide
    have : 0 ≠ p / 8 := by change 8 ≤ p at hp; omega
    rw [e]
    simp [bitAt, Memory.read, this]
  emuLenLe := by decide
  emuZero i hi := by
    have : 3 ≠ i ∧ 4 ≠ i := by change 5 ≤ i at hi; omega
    simp [sealedWriter, Memory.read, this]
  unsealed h := by cases h
  isSealed := by decide

theorem witness_EncodeThenDecode : (Instr.outqPush 0x3F#8 0xFFFF#16 0xFFFFFFFF#32 0xFFFF#16 0#32).wf = true := by decide

theorem witness_AcceptedPacket : decode [0x52010001#32, 9#32] = .ok (.rplRead 1#2 1#16) := by decide

/-- A word that fits a row, with operands at their ends, and one that fits none. -/
theorem witness_DecoderAgrees :
    (∃ r ∈ opcodeTable, r.fits 0x5203FFFF#32 = true) ∧ ¬ ∃ r ∈ opcodeTable, r.fits 0x5204FFFF#32 = true := by decide

/-- An unassigned opcode waits on each port. -/
theorem witness_Unassigned :
    let s := { State.reset with inP := [0x04000000#32, 5#32], inC := [0xFF000000#32], grants := [.P] }
    let s' := { s with grants := [.C] }
    (holds s (granted s) = false ∧ s.inbox (granted s) = [0x04000000#32, 5#32] ∧ opOf 0x04000000#32 ∉ assignedOpcodes) ∧
    holds s' (granted s') = false ∧ s'.inbox (granted s') = [0xFF000000#32] ∧ opOf 0xFF000000#32 ∉ assignedOpcodes := by decide

/-- A reserved bit of word 0, and one of a `frame_num` word. -/
theorem witness_ReservedBits :
    let s := { State.reset with inP := [0x62090020#32, 0#32, 0x00010000#32, 1#32], grants := [.P] }
    let s' := { s with inP := [0x15800000#32] }
    (holds s (granted s) = false ∧ s.inbox (granted s) = 0x62090020#32 :: [0#32, 0x00010000#32, 1#32] ++ [] ∧
      (∃ r ∈ opcodeTable, opOf 0x62090020#32 = opOf r.pattern ∧ 3 + 1 = r.words ∧ r.fits 0x62090020#32 = true) ∧
      opOf 0x62090020#32 ∈ frameNumOpcodes ∧ (0x00010000#32).extractLsb' 16 16 ≠ 0#16) ∧
    s'.inbox (granted s') = 0x15800000#32 :: [] ++ [] ∧
      ∃ r ∈ opcodeTable, opOf 0x15800000#32 = opOf r.pattern ∧ 0 + 1 = r.words ∧ r.fits 0x15800000#32 = false := by decide

theorem witness_FlagsByte :
    ((0x2F#8).extractLsb' 6 2 = 0#2 ∧ (0x2F#8).extractLsb' 4 2 ≠ 3#2) ∧
    (0x00#8).extractLsb' 6 2 = 0#2 ∧ (0x00#8).extractLsb' 4 2 ≠ 3#2 := by decide

theorem witness_StepRuns : holds busy (granted busy) = false ∧ decode (busy.inbox (granted busy)) = .ok .rbspTrail := by decide

theorem witness_ReadyAndWaiting :
    (busy.cWait = false ∧ decode busy.inP = .ok .rbspTrail ∧ decode busy.inC = .ok .outqPop) ∧
    (let s := { busy with inP := [0x11080000#32] }
     holds s (granted s) = false ∧ takePacket (s.inbox (granted s)) = none) ∧
    (let s := { busy with outq := [], cWait := true, grants := [.C] }
     granted s = .C ∧ s.cWait = true ∧ s.outq = []) ∧
    let s := { busy with cWait := true, grants := [.C] }
    granted s = .C ∧ s.cWait = true ∧ s.outq = busy.outq := by decide

/-- A held wait that ends two steps on, after a move of port P, and one that ends at once. -/
theorem witness_HeldWaitEnds :
    (let s := { busy with cWait := true, grants := [.P, .C] }
     s.cWait = true ∧ (granted (after 1 s) = .C ∧ ∀ j, j < 1 → granted (after j s) ≠ .C) ∧
       (∀ j, j ≤ 1 → (after j s).outq ≠ []) ∧ (after 2 s).respC = [⟨.stOk, 2#32, 1#32, 0x81110010#32, 7#32⟩]) ∧
    let s := { busy with cWait := true, grants := [.C] }
    s.cWait = true ∧ granted (after 0 s) = .C ∧ ∀ j, j ≤ 0 → (after j s).outq ≠ [] := by decide

/-- A step that executes a command, and one that executes an `SRESET`. -/
theorem witness_HistoriesOnlyGrow :
    (∃ t, step busy = .next t) ∧
    let s := { busy with inP := [0x01000000#32], inC := [0x11080000#32] }
    (∃ t, step s = .next t) ∧ granted s = .P ∧ decode s.inP = .ok .sreset ∧ takePacket s.inC = none := by
  exact ⟨⟨_, rfl⟩, ⟨_, rfl⟩, by decide, by decide, by decide⟩

theorem witness_StatusNumbers :
    0x10 ≤ Status.eInvalidParam.code.toNat ∧ 0x10 ≤ Status.eDpbExhausted.code.toNat ∧ Status.stFalse.code.toNat < 0x10 := by decide

/-- One command, on the port that may not and on the port that may issue it. -/
theorem witness_PortPermissions :
    (Instr.csrw 0x0060#16 1#32).wf = true ∧ permitted (.csrw 0x0060#16 1#32) (onPortC busy).port = false ∧
    permitted (.csrw 0x0060#16 1#32) busy.port = true ∧
    ∃ t r, exec (.csrw 0x0060#16 1#32) busy = .next t ∧ AnswersWith busy t r := by
  exact ⟨by decide, by decide, by decide, _, ⟨.stOk, 1#32, 0#32, 0#32, 0#32⟩, rfl, by unfold AnswersWith; decide⟩

/-- A command that answers, and an `OUTQ_WAIT` that is held. -/
theorem witness_OnlyTheListedStatuses :
    Instr.getUe.wf = true ∧ BlockInv busy ∧ (∃ t, exec .getUe busy = .next t) ∧
    ∃ t, exec .outqWait (onPortC { busy with outq := [] }) = .next t :=
  ⟨by decide, busy_inv, ⟨_, rfl⟩, ⟨_, rfl⟩⟩

/-- A plain failure, and the one with partial effects (T50 step 5). -/
theorem witness_FailureChangesNothingElse :
    (∃ t r, exec .getSe busy = .next t ∧ AnswersWith busy t r ∧ r.status.isFailure = true) ∧
    let s := dpb 1 [pic 0x11#8 0xA#16 0#32 0#16]
    ∃ t r, exec (add (pic 0x11#8 0xD#16 6#32 3#16)) s = .next t ∧ AnswersWith s t r ∧ r.status = .eDpbExhausted := by
  refine ⟨⟨_, ⟨.eUnderrun, 0#32, 0#32, 0#32, 0#32⟩, rfl, ?_, rfl⟩, _, ⟨.eDpbExhausted, 0#32, 0#32, 0#32, 0#32⟩, rfl, ?_, rfl⟩ <;>
    unfold AnswersWith <;> decide

theorem witness_OneResponse : Instr.outqPop ≠ .sreset ∧ (∃ t, exec .outqPop busy = .next t) ∧
    ∃ t, exec .outqWait (onPortC State.reset) = .next t :=
  ⟨by decide, ⟨_, rfl⟩, ⟨_, rfl⟩⟩

/-- The command writes one part, and another part is not its. -/
theorem witness_CommandsWriteOnlyTheirParts :
    (∃ t, exec (.bsrPush 1#8) busy = .next t) ∧ Part.rpos ∉ mayWrite (.bsrPush 1#8) := ⟨⟨_, rfl⟩, by decide⟩

/-- Legal parameters at the ends of their ranges. -/
theorem witness_Params : Params.default.Ok ∧
    ({ Params.default with bswCapBytes := 8, bsrCapBytes := 16, dpbSlots := 2, rplSlots := 1, roqDepth := 1, outqDepth := 1,
                           pocStep := 1, pocBits := 4 } : Params).Ok ∧
    ({ Params.default with pocBits := 31 } : Params).Ok := by decide

theorem witness_EveryStepKeepsTheInvariants : BlockInv busy ∧ ∃ t, step busy = .next t := ⟨busy_inv, _, rfl⟩

/-- Port P, with canonical buffers: what most command statements ask for. -/
theorem witness_port_P :
    busy.port = .P ∧ Memory.wf busy.raw ∧ Memory.wf busy.rbuf ∧ busy.rpos ≤ 8 * busy.rlen ∧ State.reset.port = .P := by decide

/-- A register of the map and an address between two of them; a row of the reset column. -/
theorem witness_CsrReads : (∃ e ∈ csrView, e.1 = 0x0070#16) ∧ 0x0002#16 ∉ csrView.map (·.1) ∧ 0xFFFF#16 ∉ csrView.map (·.1) ∧
    (0x0063#16, 4#32) ∈ csrAtReset Params.default := by
  refine ⟨⟨(0x0070#16, fun s => u32 s.outq.length), ?_, rfl⟩, by decide, by decide, by decide⟩
  simp [csrView]

/-- Values on both sides of each bound of `CSRW` (16 slots; two live entries). -/
theorem witness_CsrWrites :
    let s := { busy with refset := [⟨0#16, 0#32, 0#16⟩, ⟨1#16, 0#32, 0#16⟩] }
    s.port = .P ∧ (0#32).toNat < 1 ∧ s.cfg.rplSlots < (17#32).toNat ∧
    (1 ≤ (1#32).toNat ∧ (1#32).toNat ≤ s.cfg.rplSlots ∧ (1#32).toNat < s.refset.length) ∧
    (1 ≤ (2#32).toNat ∧ s.refset.length ≤ (2#32).toNat) ∧ (16#32).toNat ≤ s.cfg.rplSlots ∧
    (1#32 : Word) ≠ 0#32 ∧ 0x0063#16 ∉ [0x0050#16, 0x0051#16, 0x0052#16, 0x0060#16, 0x0061#16, 0x0062#16] := by decide

/-- The three cases of appending a field: sealed, one bit too many, an exact fit. -/
theorem witness_AppendsField : sealedWriter.sealed = true ∧
    (let s := { busy with nbits := 8192 }
     s.sealed = false ∧ 8 * s.cfg.bswCapBytes < s.nbits + 1 ∧ s.nbits + 0 ≤ 8 * s.cfg.bswCapBytes) ∧
    busy.sealed = false ∧ busy.nbits + 32 ≤ 8 * busy.cfg.bswCapBytes := by decide

/-- Widths and values on both sides of each bound of `PUT_BITS`. -/
theorem witness_PutBits : 32 < (33#8).toNat ∧
    ((0#8).toNat ≤ 32 ∧ 2 ^ (0#8).toNat ≤ (1#32).toNat) ∧ ((4#8).toNat ≤ 32 ∧ 2 ^ (4#8).toNat ≤ (16#32).toNat) ∧
    ((0#8).toNat ≤ 32 ∧ (0#32).toNat < 2 ^ (0#8).toNat) ∧ (32#8).toNat ≤ 32 ∧ (0xFFFFFFFF#32).toNat < 2 ^ (32#8).toNat := by decide

theorem witness_PutUeAndPutSe : (0xFFFFFFFE#32 : Word) ≠ 0xFFFFFFFF#32 ∧ (0x80000000#32).toInt = -2 ^ 31 ∧
    (0x80000001#32).toInt ≠ -2 ^ 31 ∧ (0x7FFFFFFF#32).toInt ≠ -2 ^ 31 := by decide

theorem witness_SealedWriterIsFrozen : sealedWriter.sealed = true ∧ (∃ t, exec (.putUe 0#32) sealedWriter = .next t) ∧
    Instr.putUe 0#32 ≠ .bswClear ∧ Instr.putUe 0#32 ≠ .sreset ∧ Part.raw ∈ mayWrite (.putUe 0#32) :=
  ⟨by decide, ⟨_, rfl⟩, by decide, by decide, by decide⟩

/-- `EMIT_RAW`: unaligned, one byte too many, an exact fit. -/
theorem witness_EmitRaw : (writer [] 3 5).nbits % 8 ≠ 0 ∧ busy.nbits % 8 = 0 ∧ (0#16).toNat < busy.nbits / 8 ∧
    busy.nbits / 8 ≤ (1#16).toNat := by decide

/-- `EMIT_EPB`, unsealed and sealed, the limit one below the length and at it. -/
theorem witness_EmitEpb : WriterInv busy ∧ busy.port = .P ∧ busy.sealed = false ∧ busy.nbits % 8 = 0 ∧
    (4#16).toNat < (epb (Memory.bytes busy.raw (busy.nbits / 8))).length ∧
    (epb (Memory.bytes busy.raw (busy.nbits / 8))).length ≤ (5#16).toNat ∧
    WriterInv sealedWriter ∧ sealedWriter.port = .P ∧
    (4#16).toNat < (Memory.bytes sealedWriter.emu sealedWriter.emuLen).length ∧
    (Memory.bytes sealedWriter.emu sealedWriter.emuLen).length ≤ (5#16).toNat :=
  ⟨busy_writer, by decide, by decide, by decide, by decide, by decide, sealedWriter_inv, by decide, by decide, by decide⟩

/-- The unaligned, unsealed writer of `EMIT_EPB`'s first clause. -/
theorem witness_EmitEpb_unaligned : WriterInv { State.reset with nbits := 3 } ∧ State.reset.sealed = false ∧ 3 % 8 ≠ 0 := by
  refine ⟨⟨by decide, by decide, by decide, fun p _ => bitAt_of_empty p, by decide, fun _ _ => rfl, fun _ => rfl, fun h => ?_⟩,
    by decide, by decide⟩
  cases h

theorem witness_EscapedForm : ((epb [0#8, 0#8, 3#8]).drop 4)[0]? = some 0x00#8 ∧ ((epb [0#8, 0#8, 3#8]).drop 4)[1]? = some 0x00#8 ∧
    ((epb [0#8, 0#8, 3#8]).drop 4)[2]? = some 0x03#8 ∧ ((epb [0#8, 0#8, 4#8]).drop 4)[2]? = some 0x04#8 := by decide

theorem witness_EscapedLength : 1 ≤ [0#8].length ∧ (List.replicate 1024 0#8).length ≤ Params.default.bswCapBytes :=
  ⟨by decide, by rw [List.length_replicate]; decide⟩

/-- `PUT_UE 126` and `PUT_SE -63` write the same 13 bits; a reader that holds them. -/
theorem witness_ExpGolombRoundTrip :
    (let s := State.reset
     let s' := result (.putUe 126#32) s
     let t := { State.reset with rbuf := s'.raw, rlen := 2 }
     s.port = .P ∧ Memory.wf s.raw ∧ t.port = .P ∧
     s'.responses s.port = s.responses s.port ++ [⟨.stOk, 13#32, 13#32, 0#32, 0#32⟩] ∧
     (∀ k, k < s'.nbits - s.nbits → bitAt t.rbuf (t.rpos + k) = bitAt s'.raw (s.nbits + k)) ∧
     t.rpos + (s'.nbits - s.nbits) ≤ 8 * t.rlen) ∧
    (result (.putSe 0xFFFFFFC1#32) State.reset).raw = (result (.putUe 126#32) State.reset).raw := by decide

/-- A `PUT_BITS` of 32 bits, and a reader that holds them; reads of 0, 32 and of 9 and 23 bits. -/
theorem witness_FieldRoundTripAndSplit :
    let s' := result (.putBits 32#8 0xDEADBEEF#32) State.reset
    let t := { State.reset with rbuf := s'.raw, rlen := 4 }
    s'.responses .P = State.reset.responses .P ++ [⟨.stOk, 32#32, 32#32, 0#32, 0#32⟩] ∧
    (∀ k, k < 32 → bitAt t.rbuf (t.rpos + k) = bitAt s'.raw (State.reset.nbits + k)) ∧ t.rpos + 32 ≤ 8 * t.rlen ∧
    (32#8).toNat = (9#8).toNat + (23#8).toNat ∧ (32#8).toNat = (0#8).toNat + (32#8).toNat ∧ t.port = .P := by decide

theorem witness_EscapedUnitLoopsBack : BlockInv busy ∧ busy.port = .P ∧ busy.sealed = false ∧ busy.nbits % 8 = 0 ∧
    (epb (Memory.bytes busy.raw (busy.nbits / 8))).length ≤ (5#16).toNat :=
  ⟨busy_inv, by decide, by decide, by decide, by decide⟩

/-- A full reader and one with room for one byte. -/
theorem witness_BsrPush : { busy with rlen := 1540 }.rlen = busy.cfg.bsrCapBytes ∧ { busy with rlen := 1539 }.rlen ≠ busy.cfg.bsrCapBytes := by
  decide

/-- Each case of `BSR_LOAD`: unaligned, unsealed, either source with room, and a reader too small by one. -/
theorem witness_BsrLoad : (writer [] 3 5).nbits % 8 ≠ 0 ∧ busy.sealed = false ∧
    (busy.nbits % 8 = 0 ∧ (Memory.bytes busy.raw (busy.nbits / 8)).length ≤ busy.cfg.bsrCapBytes) ∧
    (sealedWriter.sealed = true ∧ (Memory.bytes sealedWriter.emu sealedWriter.emuLen).length ≤ sealedWriter.cfg.bsrCapBytes) ∧
    let s := { sealedWriter with cfg := { Params.default with bsrCapBytes := 4 } }
    s.cfg.bsrCapBytes < (Memory.bytes s.emu s.emuLen).length := by decide

/-- Each case of `BSR_UNESC`: too short, no start code, the start code alone. -/
theorem witness_BsrUnesc : ReaderInv busy ∧ busy.rlen < 4 ∧
    Memory.bytes (reader [0#8, 0#8, 1#8, 0x40#8] 0).rbuf 4 ≠ [0x00#8, 0x00#8, 0x00#8, 0x01#8] ∧
    (let s := reader [0#8, 0#8, 0#8, 1#8] 0
     ReaderInv s ∧ s.port = .P ∧ 4 ≤ s.rlen ∧ Memory.bytes s.rbuf 4 = [0x00#8, 0x00#8, 0x00#8, 0x01#8]) := by
  refine ⟨busy_reader, by decide, by decide, ⟨by decide, by decide, by decide, fun i hi => ?_⟩, by decide, by decide, by decide⟩
  have : 3 ≠ i := by change 4 ≤ i at hi; omega
  simp [reader, Memory.ofBytes, Memory.ofBytesAt, Memory.read, this]

/-- Each case of `GET_BITS`, at the end of the reader. -/
theorem witness_GetBits : 32 < (33#8).toNat ∧
    ((6#8).toNat ≤ 32 ∧ 8 * busy.rlen < busy.rpos + (6#8).toNat) ∧ (5#8).toNat ≤ 32 ∧ busy.rpos + (5#8).toNat ≤ 8 * busy.rlen := by
  decide

/-- Each case of `GET_UE` and `GET_SE`: 32 zeros, zeros to the end, a suffix cut short by one bit, a whole word. -/
theorem witness_GetExpGolomb :
    (let s := reader [0#8, 0#8, 0#8, 0#8, 0x80#8] 0
     s.rpos + 32 ≤ 8 * s.rlen ∧ ∀ k, k < 32 → bitAt s.rbuf (s.rpos + k) = false) ∧
    (let s := reader [0#8, 0#8, 0#8, 0#8] 1
     8 * s.rlen < s.rpos + 32 ∧ ∀ k, k < 31 → bitAt s.rbuf (s.rpos + k) = false) ∧
    (let s := reader [0x08#8] 0
     s.rpos + 4 < 8 * s.rlen ∧ ((∀ k, k < 4 → bitAt s.rbuf (s.rpos + k) = false) ∧ bitAt s.rbuf (s.rpos + 4) = true) ∧
       8 * s.rlen < s.rpos + (2 * 4 + 1)) ∧
    let s := reader [0x38#8] 0
    ((∀ k, k < 2 → bitAt s.rbuf (s.rpos + k) = false) ∧ bitAt s.rbuf (s.rpos + 2) = true) ∧ s.rpos + (2 * 2 + 1) ≤ 8 * s.rlen ∧
      3 < 2 ^ 2 ∧ ∀ j, j < 2 → (3 : Nat).testBit j = bitAt s.rbuf (s.rpos + 2 * 2 - j) := by decide

/-- Capacities on both sides of the bounds; the refused flags bytes; an uninitialised DPB. -/
theorem witness_DpbInitAndChecks : (0#8).toNat = 0 ∧ State.reset.cfg.dpbSlots < (17#8).toNat ∧
    ((16#8).toNat ≠ 0 ∧ (16#8).toNat ≤ State.reset.cfg.dpbSlots) ∧
    ((0x31#8).extractLsb' 6 2 = 0#2 ∧ (0x31#8).extractLsb' 4 2 = 3#2) ∧ (0x13#8).getLsbD 1 = true ∧
    ((0x11#8).extractLsb' 4 2 ≠ 3#2 ∧ (0x11#8).getLsbD 1 = false) ∧ State.reset.dpbInit = false ∧ State.reset.port = .P := by decide

/-- A full buffer that a bump frees, one that none frees, and one with room. -/
theorem witness_DpbAddReference :
    (busy.port = .P ∧ busy.dpbInit = true ∧ busy.dpbMax ≠ 2) ∧
    ((pic 0x11#8 1#16 8#32 2#16).ref = true ∧ (pic 0x11#8 1#16 8#32 2#16).out = false) ∧
    Freeable 1 [pic 0x20#8 0xA#16 0#32 0#16] ∧ ¬ Freeable 1 [pic 0x11#8 0xA#16 0#32 0#16] ∧ Freeable 3 (gc busy.slots) := by
  unfold Freeable
  decide

/-- A skipped picture, and one that is not; a full buffer with a smaller non-reference picture. -/
theorem witness_DpbAddNonReference :
    ((pic 0x24#8 1#16 8#32 2#16).ref = false ∧ (pic 0x24#8 1#16 8#32 2#16).skip = true) ∧
    ((pic 0x20#8 1#16 8#32 2#16).ref = false ∧ (pic 0x20#8 1#16 8#32 2#16).skip = false ∧ (pic 0x20#8 1#16 8#32 2#16).out = false) ∧
    Freeable 1 (gc [pic 0x20#8 0xA#16 0#32 0#16]) ∧ (gc [pic 0x20#8 0xA#16 0#32 0#16]).length = 1 ∧
    HasSmallerNonRef (pic 0x20#8 1#16 8#32 2#16) (gc [pic 0x20#8 0xA#16 0#32 0#16]) ∧
    ¬ Freeable 1 (gc [pic 0x11#8 0xA#16 0#32 0#16]) := by
  unfold Freeable HasSmallerNonRef
  decide

/-- The 2-slot policy: a tie (T46), the older in slot 1 (T45), an older picture already output, and room for one. -/
theorem witness_DpbAddTwoSlot :
    let a := pic 0x11#8 0xA#16 2#32 0#16
    let b := pic 0x11#8 0xB#16 2#32 1#16
    let c := pic 0x13#8 0xC#16 0#32 1#16
    (dpb 2 [a, b]).port = .P ∧ (dpb 2 [a, b]).dpbMax = 2 ∧ (dpb 2 [a, b]).slots.length ≤ 2 ∧ (dpb 2 [a]).slots.length < 2 ∧
    ¬ b.poc.toInt < a.poc.toInt ∧ a.out = false ∧ c.poc.toInt < a.poc.toInt ∧ c.out = true := by decide

/-- A picture is left to output, and none is. -/
theorem witness_DpbBump : ¬ AllOutput busy.slots ∧ AllOutput [pic 0x0B#8 0x10#16 0#32 0#16] := by
  unfold AllOutput
  decide

/-- A match and none, for both values of `want`. -/
theorem witness_DpbOldest : (∃ p ∈ busy.slots, p.out = true) ∧ (∃ p ∈ busy.slots, p.out = false) ∧
    (∀ p ∈ [pic 0x0B#8 0x10#16 0#32 0#16], p.out ≠ false) ∧ ∀ p ∈ State.reset.slots, p.out ≠ true := by decide

/-- An add that buffers, one that drops (`r1 = 2`), and a bump. -/
theorem witness_PicturesLeaveExactlyOnce :
    (∃ t, exec (add (pic 0x11#8 1#16 8#32 2#16)) busy = .next t ∧ AnswersWith busy t ⟨.stOk, 0#32, 0#32, 0#32, 0#32⟩) ∧
    (∃ t, exec (add (pic 0x24#8 1#16 8#32 2#16)) busy = .next t ∧ AnswersWith busy t ⟨.stOk, 0#32, 2#32, 0#32, 0#32⟩) ∧
    ∃ t, exec .dpbBump busy = .next t := by
  refine ⟨⟨_, rfl, ?_⟩, ⟨_, rfl, ?_⟩, _, rfl⟩ <;> unfold AnswersWith <;> decide

/-- A full set, one with room, and the refused and ignored flags bytes. -/
theorem witness_RplUpdate : busy.port = .P ∧ 1 ≤ busy.maxRef ∧ busy.refset.length = busy.maxRef ∧
    State.reset.refset.length ≠ State.reset.maxRef ∧
    ((0x30#8).extractLsb' 6 2 = 0#2 ∧ (0x30#8).extractLsb' 4 2 = 3#2) ∧
    ((pic 0x19#8 0#16 0#32 0#16).idr = true ∧ (pic 0x19#8 0#16 0#32 0#16).type ≠ .I) ∧
    ((pic 0x20#8 0#16 0#32 0#16).idr = false ∧ (pic 0x20#8 0#16 0#32 0#16).type = .B) ∧
    ((pic 0x09#8 0#16 0#32 0#16).idr = true ∧ (pic 0x09#8 0#16 0#32 0#16).type = .I) ∧
    (pic 0x11#8 0#16 0#32 0#16).idr = false ∧ (pic 0x11#8 0#16 0#32 0#16).type ≠ .B := by decide

/-- The last entry of a list and the index after it, in each list. -/
theorem witness_RplInitAndRead : busy.port = .P ∧ busy.refset[(0#16).toNat]? = some ⟨0#16, 0#32, 0x10#16⟩ ∧
    busy.l0.length ≤ (1#16).toNat ∧ busy.l1.length ≤ (0#16).toNat ∧
    ((0x20#8).extractLsb' 4 2 = 2#2 ∧ (0x11#8).extractLsb' 4 2 = 1#2 ∧ (0x09#8).extractLsb' 4 2 = 0#2) := by decide

/-- A full queue; and, on a queue with room, a picture that the period makes an IDR picture and one that is not. -/
theorem witness_RopEnq :
    ({ busy with cfg := { Params.default with roqDepth := 1 } }.roq.length = 1) ∧
    (let s := { busy with keyPeriod := 1#32 }
     let p := pic 0x09#8 5#16 0#32 0#16
     s.roq.length ≠ s.cfg.roqDepth ∧
     (true = true ↔ s.seenFirst = false ∨ false = true ∨ s.keyPeriod ≠ 0#32 ∧ s.keyPeriod.toNat ≤ s.frameIdx.toNat) ∧
     p.poc.toNat = ((0#32).toNat * s.cfg.pocStep) % 2 ^ s.cfg.pocBits % 2 ^ 32 ∧
     p.frameNum.toNat = (0#32).toNat % 2 ^ log2mfn s.keyPeriod ∧ p.type = .I ∧ p.ref = true ∧ p.out = false ∧ p.skip = false ∧
     p.idr = true ∧ p.surf = 5#16) ∧
    let s := { busy with keyPeriod := 2#32 }
    let p := pic 0x11#8 5#16 2#32 1#16
    (false = true ↔ s.seenFirst = false ∨ false = true ∨ s.keyPeriod ≠ 0#32 ∧ s.keyPeriod.toNat ≤ s.frameIdx.toNat) ∧
     p.poc.toNat = (s.presIdx.toNat * s.cfg.pocStep) % 2 ^ s.cfg.pocBits % 2 ^ 32 ∧
     p.frameNum.toNat = s.frameNumCtr.toNat % 2 ^ log2mfn s.keyPeriod ∧
     ¬ (s.intraPeriod ≠ 0#32 ∧ s.frameIdx.toNat % s.intraPeriod.toNat = 0) ∧ p.type = .P ∧ p.ref = true ∧ p.out = false ∧
     p.skip = false ∧ p.idr = false ∧ p.surf = 5#16 := by decide

/-- Both states of the machine, with the last picture of the queue. -/
theorem witness_RopSubmit : State.reset.ropState = .waitFrames ∧ busy.ropState = .dumpFrames ∧
    busy.roq = [pic 0x09#8 0x12#16 0#32 0#16] := by decide

/-- A full queue and one with room, and a type of each `sync`. -/
theorem witness_OutqPush : (let s := { busy with cfg := { Params.default with outqDepth := 1 } }
     s.outq.length = s.cfg.outqDepth) ∧ busy.outq.length ≠ busy.cfg.outqDepth ∧
    (true = true ↔ (pic 0x01#8 0#16 0#32 0#16).type = .I) ∧ (false = true ↔ (pic 0x20#8 0#16 0#32 0#16).type = .I) ∧
    (0x30#8).extractLsb' 4 2 = 3#2 := by decide

theorem witness_OutqPeekPopAndWait : State.reset.outq = [] ∧ (onPortC State.reset).port = .C ∧
    busy.outq = [⟨pic 0x11#8 0x10#16 2#32 1#16, 7#32, true, false⟩] := by decide

theorem witness_FrontOfTheOutputQueueIsStable : (∃ t, exec .outqPeek busy = .next t) ∧ Instr.outqPeek ≠ .outqPop ∧
    Instr.outqPeek ≠ .sreset := ⟨⟨_, rfl⟩, by decide, by decide⟩

end Sys2Proof.Tests
end

section
/-! PROOFS. Packets the decoder rejects (30_encoding R81, R87, R88): what the masks of the opcode table say of the decoder's
checks, and what a step does with a packet that fails them. -/

namespace Sys2Proof

/-! ### Command words by fields -/

@[simp] theorem opOf_and (a b : Word) : opOf (a &&& b) = opOf a &&& opOf b := BitVec.extractLsb'_and

@[simp] theorem fOf_and (a b : Word) : fOf (a &&& b) = fOf a &&& fOf b := BitVec.extractLsb'_and

@[simp] theorem hOf_and (a b : Word) : hOf (a &&& b) = hOf a &&& hOf b := BitVec.extractLsb'_and

/-- Two command words are equal when their three fields are. -/
theorem word_eq_iff_fields (a b : Word) : a = b ↔ opOf a = opOf b ∧ fOf a = fOf b ∧ hOf a = hOf b := by
  refine ⟨fun h => by simp [h], fun ⟨hop, hf, hh⟩ => ?_⟩
  rw [← word0_fields a, ← word0_fields b, hop, hf, hh]

/-! ### What a table row says of the reserved bits -/

/-- The bits a row reserves are 0: in `f` and `h` those of its mask, and bits 31:16 of a `frame_num` word (R83, R87). -/
def OpRow.reservedClear (r : OpRow) (f : Byte) (h : Half) (w2 : Word) : Bool :=
  f &&& fOf r.mask == 0#8 && h &&& hOf r.mask == 0#16 &&
    (!Machine.frameNumOpcodes.contains (opOf r.pattern) || frameNumReservedClear w2)

/-- No bit of `f` or `h` is fixed to 1. -/
theorem opcodeTable_short_operands_zero : ∀ r ∈ opcodeTable, fOf r.pattern = 0#8 ∧ hOf r.pattern = 0#16 := by
  decide

/-- A word with a row's opcode fits the row exactly when the masked bits of `f` and `h` are 0. -/
theorem fits_iff_of_opOf_eq {r : OpRow} (hr : r ∈ opcodeTable) {w0 : Word} (hop : opOf w0 = opOf r.pattern) :
    r.fits w0 = true ↔ fOf w0 &&& fOf r.mask = 0#8 ∧ hOf w0 &&& hOf r.mask = 0#16 := by
  obtain ⟨-, hmask, -⟩ := opcodeTable_rows r hr
  obtain ⟨hf, hh⟩ := opcodeTable_short_operands_zero r hr
  have hall : opOf r.pattern &&& 0xFF#8 = opOf r.pattern := BitVec.and_allOnes
  rw [OpRow.fits, beq_iff_eq, word_eq_iff_fields]
  simp [hmask, hf, hh, hop, hall]

/-! ### The checks of the decoder, as masks -/

theorem extract_bitOperand_reserved : ∀ f : Byte, (f.extractLsb' 1 7 == 0#7) = (f &&& 0xFE#8 == 0#8) := by decide

theorem extract_nalHdr_reserved : ∀ f : Byte, (f.extractLsb' 7 1 == 0#1) = (f &&& 0x80#8 == 0#8) := by decide

theorem extract_rplRead_reserved : ∀ f : Byte, (f.extractLsb' 2 6 == 0#6) = (f &&& 0xFC#8 == 0#8) := by decide

theorem flagsReservedClear_eq_mask : ∀ f : Byte, flagsReservedClear f = (f &&& 0xC0#8 == 0#8) := by decide

/-- The decoder's one check for a row's opcode is that the row's reserved bits are 0. -/
theorem decodeFields_eq_checked {r : OpRow} (hr : r ∈ opcodeTable) (f : Byte) (h : Half) (w1 w2 w3 : Word) :
    ∃ i, decodeFields (opOf r.pattern) f h w1 w2 w3 = checked r.mnemonic (r.reservedClear f h w2) i := by
  have hff : f &&& 0xFF#8 = f := BitVec.and_allOnes
  have hhh : h &&& 0xFFFF#16 = h := BitVec.and_allOnes
  fin_cases hr
  -- Row by row the decoder's arm is a check of the row's name; what is left is that its condition is the row's mask.
  all_goals
    refine ⟨_, Eq.trans (b := checked _ _ _) rfl (congrArg (checked _ · _) ?_)⟩
    simp [OpRow.reservedClear, Machine.frameNumOpcodes, opOf, fOf, hOf, hff, hhh, extract_bitOperand_reserved,
      extract_nalHdr_reserved, extract_rplRead_reserved, flagsReservedClear_eq_mask]

/-! ### Packets the decoder rejects -/

theorem packetLen_of_unassigned : ∀ op : Byte, op ∉ Machine.assignedOpcodes → packetLen op = 1 := by decide

/-- An opcode outside the map is rejected whatever the operands (R88). -/
theorem decodeFields_of_unassigned {op : Byte} (hop : op ∉ Machine.assignedOpcodes) (f : Byte) (h : Half)
    (w1 w2 w3 : Word) : decodeFields op f h w1 w2 w3 = .error (.unassigned op) := by
  unfold decodeFields
  split
  case h_36 => rfl
  all_goals exact absurd (by decide) hop

/-- Once a packet is complete, decoding it is decoding its fields. -/
theorem decode_cons_of_le {w0 : Word} {ps : List Word} (hlen : packetLen (opOf w0) ≤ ps.length + 1) :
    decode (w0 :: ps) =
      decodeFields (opOf w0) (fOf w0) (hOf w0) (ps.getD 0 0#32) (ps.getD 1 0#32) (ps.getD 2 0#32) :=
  if_neg (by omega)

/-- A complete packet with a reserved bit set is rejected for it (R87). -/
theorem decode_of_reserved {r : OpRow} (hr : r ∈ opcodeTable) {w0 : Word} {ps : List Word}
    (hop : opOf w0 = opOf r.pattern) (hlen : ps.length + 1 = r.words)
    (hres : r.reservedClear (fOf w0) (hOf w0) (ps.getD 1 0#32) = false) :
    decode (w0 :: ps) = .error (.reservedBits r.mnemonic) := by
  obtain ⟨-, -, hwords⟩ := opcodeTable_rows r hr
  rw [decode_cons_of_le (by rw [hop, hlen, hwords]), hop]
  obtain ⟨i, hi⟩ := decodeFields_eq_checked hr (fOf w0) (hOf w0) (ps.getD 0 0#32) (ps.getD 1 0#32) (ps.getD 2 0#32)
  rw [hi, hres, checked, if_neg Bool.false_ne_true]

/-- A row's reserved bits are not clear when word 0 does not fit the row, or a bit of 31:16 of the `frame_num` word is 1. -/
theorem reservedClear_eq_false {r : OpRow} (hr : r ∈ opcodeTable) {w0 w2 : Word} (hop : opOf w0 = opOf r.pattern)
    (hbad : r.fits w0 = false ∨ (opOf w0 ∈ Machine.frameNumOpcodes ∧ w2.extractLsb' 16 16 ≠ 0#16)) :
    r.reservedClear (fOf w0) (hOf w0) w2 = false := by
  by_contra hclear
  simp only [OpRow.reservedClear, Bool.not_eq_false, Bool.and_eq_true, beq_iff_eq, Bool.or_eq_true,
    Bool.not_eq_true', List.contains_eq_mem, decide_eq_false_iff_not] at hclear
  obtain ⟨hshort, hframe⟩ := hclear
  rcases hbad with hfit | ⟨hmem, hw2⟩
  · simp [(fits_iff_of_opOf_eq hr hop).2 hshort] at hfit
  · rcases hframe with hnot | hw2clear
    · exact hnot (hop ▸ hmem)
    · exact hw2 (by simpa [frameNumReservedClear] using hw2clear)

/-- A packet of the length its opcode gives is cut from what follows it (R81). -/
theorem takePacket_append {w0 : Word} {ps : List Word} (hlen : packetLen (opOf w0) = ps.length + 1) (rest : List Word) :
    takePacket (w0 :: ps ++ rest) = some (w0 :: ps, rest) := by
  simp [takePacket, hlen]

end Sys2Proof

namespace Sys2Proof.Machine

theorem rejectPacket_eq_failed (s : State) : rejectPacket s = failed s .eIllegal := fail_eq_failed s .eIllegal rfl

/-- A step that finds a packet the decoder rejects consumes its words and fails with `E_ILLEGAL`. -/
theorem step_of_rejected {s : State} {w0 : Word} {ps rest : List Word} {e : DecodeError}
    (hheld : holds s (granted s) = false) (hwords : s.inbox (granted s) = w0 :: ps ++ rest)
    (hlen : packetLen (opOf w0) = ps.length + 1) (hdec : decode (w0 :: ps) = .error e) :
    step s = .next (failed (startPacket (takeGrant s) (granted s) rest) .eIllegal) := by
  have hmove : moveOf s (granted s) = .run (w0 :: ps) rest := by
    simp only [moveOf, hheld, hwords, takePacket_append hlen, Bool.false_eq_true, if_false]
  simp [step, hmove, runPacket, hdec, rejectPacket_eq_failed]

/-- Settles O5: such a packet is one word long, and the decoder rejects its opcode. -/
theorem unassignedOpcodesAreIllegal : Obligations.UnassignedOpcodesAreIllegal := by
  intro s w0 rest hheld hwords hop
  have hlen : packetLen (opOf w0) = 1 := packetLen_of_unassigned _ hop
  have hdec : decode [w0] = .error (.unassigned (opOf w0)) := by
    rw [decode_cons_of_le hlen.le, decodeFields_of_unassigned hop]
  exact step_of_rejected (ps := []) hheld hwords hlen hdec

/-- Settles O6: the decoder's check of a row is that its reserved bits are clear, and the row gives the length. -/
theorem reservedBitsAreIllegal : Obligations.ReservedBitsAreIllegal := by
  intro s w0 ps rest r hheld hwords hr hop hlen hbad
  obtain ⟨-, -, hrow⟩ := opcodeTable_rows r hr
  have hpacket : packetLen (opOf w0) = ps.length + 1 := by rw [hop, hlen, hrow]
  exact step_of_rejected hheld hwords hpacket (decode_of_reserved hr hop hlen (reservedClear_eq_false hr hop hbad))

end Sys2Proof.Machine
end

section
/-! PROOFS. The bitstream writer's commands, and the clear of the reader (40_bitstream_writer, 41_bitstream_reader R141): what
each does on port P, in terms of `putField` and of the endings `answered` and `failed`. -/

namespace Sys2Proof.Machine

/-! ### Commands that open with the port test -/

/-- A command that opens with `onProducer` fails with `E_PORT` on port C. -/
theorem producerCommand_of_onProducer {i : Instr} {packet : List Word} (henc : encode i = packet)
    (hexec : ∀ s : State, ∃ body, exec i s = .next (onProducer s body)) : ProducerCommand i packet := by
  refine ⟨henc, fun _ s hp => ?_⟩
  obtain ⟨body, hbody⟩ := hexec s
  rw [hbody, onProducer_of_C hp, fail_eq_failed _ _ rfl]

/-- Settles O25: the cleared buffers are the empty ones. -/
theorem clearsEmptyTheBuffers : Obligations.ClearsEmptyTheBuffers := by
  refine ⟨producerCommand_of_onProducer rfl fun _ => ⟨_, rfl⟩, producerCommand_of_onProducer rfl fun _ => ⟨_, rfl⟩,
    fun s hp => ⟨⟨[], [], fun _ => rfl, fun _ => rfl, Memory.wf_nil, Memory.wf_nil, ?_⟩,
      [], fun _ => rfl, Memory.wf_nil, ?_⟩⟩
  · rw [exec, execBswClear, onProducer_of_P hp, done_eq_answered _ _ _ _ _ _ rfl]
  · rw [exec, execBsrClear, onProducer_of_P hp, done_eq_answered _ _ _ _ _ _ rfl]

/-! ### Commands that append one field -/

/-- A command that comes down to `putField` appends that field (R111, R112). -/
theorem appendsField_of_putField {i : Instr} {s : State} {n v : Nat} (hw : Memory.wf s.raw)
    (hexec : exec i s = .next (putField n v s)) : AppendsField i s n v := by
  refine ⟨fun hs => ?_, fun hs hfull => ?_, fun hs hfits => ?_⟩
  · rw [hexec, putField_sealed hs]
  · rw [hexec, putField_full hs n v hfull]
  · obtain ⟨m, hm, hput⟩ := putField_ok hs n v hfits hw
    exact ⟨m, hm, by rw [hexec, hput]⟩

/-- `PUT_BITS` on port P: legal operands are a width up to 32 and a value that fits it. -/
theorem exec_putBits_of_P {s : State} (hp : s.port = .P) (width : Byte) (value : Word) :
    exec (.putBits width value) s =
      .next (if width.toNat ≤ 32 ∧ value.toNat < 2 ^ width.toNat then putField width.toNat value.toNat s
        else failed s .eInvalidParam) := by
  rw [exec, execPutBits, onProducer_of_P hp, Config.valueWidth, fail_eq_failed _ _ rfl]
  by_cases hwide : 32 < width.toNat
  · rw [if_pos hwide, if_neg (by omega)]
  · rw [if_neg hwide]
    by_cases hfits : value.toNat < 2 ^ width.toNat
    · rw [if_neg (by omega), if_pos ⟨by omega, hfits⟩]
    · -- every value fits 32 bits, so here the width is smaller
      have hne : width.toNat ≠ 32 := fun h => hfits (by rw [h]; exact value.isLt)
      rw [if_pos (by omega), if_neg (fun h => hfits h.2)]

/-- Settles O26: each clause picks a branch of `exec_putBits_of_P`. -/
theorem putBits : Obligations.PutBits := by
  refine ⟨fun width value => producerCommand_of_onProducer rfl fun _ => ⟨_, rfl⟩,
    fun s width value hp hw => ⟨fun hwide => ?_, fun _ hlong => ?_, fun hwidth hfits => ?_⟩⟩
  · rw [exec_putBits_of_P hp, if_neg (by omega)]
  · rw [exec_putBits_of_P hp, if_neg (by omega)]
  · exact appendsField_of_putField hw (by rw [exec_putBits_of_P hp, if_pos ⟨hwidth, hfits⟩])

/-! ### Exp-Golomb codes -/

/-- A command that comes down to `putCode k` appends `k + 1` in twice its length less one bits; the length is at most 32 as
long as `k + 1` fits a word (R115). -/
theorem appendsField_of_putCode {i : Instr} {s : State} {k : Nat} (hw : Memory.wf s.raw) (hk : k + 1 < 2 ^ 32)
    (hexec : exec i s = .next (putCode k s)) :
    ∃ L, 1 ≤ L ∧ L ≤ 32 ∧ 2 ^ (L - 1) ≤ k + 1 ∧ k + 1 < 2 ^ L ∧ AppendsField i s (2 * L - 1) (k + 1) := by
  obtain ⟨hpos, hlow, hhigh⟩ := bitLength_bounds (k + 1) (by omega)
  have hlen : bitLength (k + 1) - 1 < 32 := (Nat.pow_lt_pow_iff_right (by decide)).1 (hlow.trans_lt hk)
  exact ⟨bitLength (k + 1), hpos, by omega, hlow, hhigh, appendsField_of_putField hw hexec⟩

/-- Settles O27: every other value is below `2^32 - 1`, so its code is at most 32 bits long. -/
theorem putUe : Obligations.PutUe := by
  refine ⟨fun value => producerCommand_of_onProducer rfl fun _ => ⟨_, rfl⟩,
    fun s value hp hw => ⟨fun hmax => ?_, fun hne => ?_⟩⟩
  · rw [exec, execPutUe, onProducer_of_P hp, if_pos hmax, fail_eq_failed _ _ rfl]
  · have hcode : value.toNat + 1 < 2 ^ 32 := by bv_omega
    exact appendsField_of_putCode hw hcode (by rw [exec, execPutUe, onProducer_of_P hp, if_neg hne])

/-- No case of the mapping of `PUT_SE` is negative, so nothing is truncated (R116). -/
theorem natCast_seToUe (v : Int) : (seToUe v : Int) = if v ≤ 0 then -2 * v else 2 * v - 1 := by
  unfold seToUe
  split_ifs <;> omega

/-- Settles O28: the mapped value of every other operand is below `2^32 - 1`. -/
theorem putSe : Obligations.PutSe := by
  refine ⟨fun value => producerCommand_of_onProducer rfl fun _ => ⟨_, rfl⟩,
    fun s value hp hw => ⟨fun hmin => ?_, fun hne => ?_⟩⟩
  · rw [exec, execPutSe, onProducer_of_P hp, if_pos hmin, fail_eq_failed _ _ rfl]
  · have hmap := natCast_seToUe value.toInt
    have hcode : seToUe value.toInt + 1 < 2 ^ 32 := by
      have hlow : -2 ^ 31 ≤ value.toInt := BitVec.le_toInt value
      have hhigh : value.toInt < 2 ^ 31 := BitVec.toInt_lt
      split_ifs at hmap <;> omega
    obtain ⟨L, hL⟩ := appendsField_of_putCode (i := .putSe value) hw hcode
      (by rw [exec, execPutSe, onProducer_of_P hp, if_neg hne])
    exact ⟨_, L, hmap, hL⟩

/-! ### Alignment, header and trailing bits -/

/-- The header's byte is the operand byte of its command word. -/
theorem encode_nalHdr (refIdc : BitVec 2) (unitType : BitVec 5) :
    encode (.nalHdr refIdc unitType) = [0x15#8 ++ 0#1 ++ refIdc ++ unitType ++ 0#16] := by
  revert refIdc unitType
  decide

/-- Settles O29: the field of `ALIGN` is the gap to the next boundary, that of `RBSP_TRAIL` a whole byte when there is none. -/
theorem alignHeaderAndTrail : Obligations.AlignHeaderAndTrail := by
  refine ⟨⟨producerCommand_of_onProducer rfl fun _ => ⟨_, rfl⟩, producerCommand_of_onProducer rfl fun _ => ⟨_, rfl⟩⟩,
    fun refIdc unitType => producerCommand_of_onProducer (encode_nalHdr refIdc unitType) fun _ => ⟨_, rfl⟩,
    producerCommand_of_onProducer rfl fun _ => ⟨_, rfl⟩,
    fun s hp hw => ⟨fun fill hcap => ?_, fun refIdc unitType => ?_, ?_⟩⟩
  · refine ⟨(8 - s.nbits % 8) % 8, by omega, by omega, by omega, appendsField_of_putField hw ?_⟩
    rw [exec, execAlign, onProducer_of_P hp]
  · refine appendsField_of_putField hw ?_
    rw [exec, execNalHdr, onProducer_of_P hp]
    rfl
  · refine ⟨8 - s.nbits % 8, by omega, by omega, by omega, appendsField_of_putField hw ?_⟩
    rw [exec, execRbspTrail, onProducer_of_P hp]

/-! ### Emission -/

/-- Settles O31: the burst is the buffer's first `nbits / 8` bytes. -/
theorem emitRaw : Obligations.EmitRaw := by
  refine ⟨fun limit => producerCommand_of_onProducer rfl fun _ => ⟨_, rfl⟩,
    fun s limit hp => ⟨fun hodd => ?_, fun haligned hsmall => ?_, fun haligned hroom => ?_⟩⟩
  · rw [exec, execEmitRaw, onProducer_of_P hp, if_pos hodd, fail_eq_failed _ _ rfl]
  · rw [exec, execEmitRaw, onProducer_of_P hp, if_neg (by omega), if_pos hsmall, fail_eq_failed _ _ rfl]
  · refine ⟨Memory.bytes s.raw (s.nbits / 8), Memory.length_bytes _ _, fun i hi => ?_, ?_⟩
    · exact Memory.getD_bytes _ _ _ (by simpa using hi)
    · rw [exec, execEmitRaw, onProducer_of_P hp, if_neg (by omega), if_neg (by omega),
        done_eq_answered _ _ _ _ _ _ rfl, State.emit, Memory.length_bytes]

/-- An unsealed writer's emulation buffer is all zero, so the buffer derived from `e` differs from it in `e`'s bytes only. -/
theorem holdsBytes_ofBytes_of_unsealed {s : State} (hinv : WriterInv s) (hs : s.sealed = false) (e : List Byte) :
    HoldsBytes (Memory.ofBytes e) e (Memory.read s.emu) := by
  refine ⟨fun i => ?_, Memory.wf_ofBytes e⟩
  rw [Memory.read_ofBytes]
  split_ifs with hi
  · rfl
  · rw [hinv.emuZero i (by simp [hinv.unsealed hs]), List.getD_eq_default _ _ (by omega)]

theorem sendEpb_eq_answered (e : List Byte) (s : State) :
    sendEpb e s = answered { s with byteout := s.byteout ++ [⟨.epb, e⟩] } .stOk (u32 e.length) := by
  rw [sendEpb, done_eq_answered _ _ _ _ _ _ rfl, State.emit]

/-- The sealing emission: a refusal comes before any change of the writer (R121). -/
theorem exec_emitEpb_of_unsealed {s : State} (hp : s.port = .P) (hs : s.sealed = false) (haligned : s.nbits % 8 = 0)
    (limit : Half) {e : List Byte} (he : e = epb (Memory.bytes s.raw (s.nbits / 8))) :
    exec (.emitEpb limit) s =
      .next (if limit.toNat < e.length then failed s .eBufSmall else sendEpb e (sealWith e s)) := by
  subst he
  rw [exec, execEmitEpb, onProducer_of_P hp, if_neg (by simp [hs]), if_neg (by omega), fail_eq_failed _ .eBufSmall rfl]

/-- The emission after it: the cached bytes, whatever `raw` holds (R121). -/
theorem exec_emitEpb_of_sealed {s : State} (hp : s.port = .P) (hs : s.sealed = true)
    (limit : Half) {e : List Byte} (he : e = Memory.bytes s.emu s.emuLen) :
    exec (.emitEpb limit) s = .next (if limit.toNat < e.length then failed s .eBufSmall else sendEpb e s) := by
  subst he
  rw [exec, execEmitEpb, onProducer_of_P hp, if_pos hs, fail_eq_failed _ .eBufSmall rfl]

/-- Settles O32: the first emission seals with the derived form, a later one finds it in `emu`. -/
theorem emitEpb : Obligations.EmitEpb := by
  refine ⟨fun limit => producerCommand_of_onProducer rfl fun _ => ⟨_, rfl⟩, fun s limit hp hinv =>
    ⟨fun hs hodd => ?_, fun hs haligned e he => ⟨fun hsmall => ?_, fun hroom => ?_⟩,
      fun hs e he => ⟨fun hsmall => ?_, fun hroom => ?_⟩⟩⟩
  · rw [exec, execEmitEpb, onProducer_of_P hp, if_neg (by simp [hs]), if_pos hodd, fail_eq_failed _ _ rfl]
  · rw [exec_emitEpb_of_unsealed hp hs haligned limit he, if_pos hsmall]
  · refine ⟨Memory.ofBytes e, holdsBytes_ofBytes_of_unsealed hinv hs e, ?_⟩
    rw [exec_emitEpb_of_unsealed hp hs haligned limit he, if_neg (by omega), sendEpb_eq_answered, sealWith]
  · rw [exec_emitEpb_of_sealed hp hs limit he, if_pos hsmall]
  · rw [exec_emitEpb_of_sealed hp hs limit he, if_neg (by omega), sendEpb_eq_answered]

end Sys2Proof.Machine
end

section
/-! PROOFS. The bitstream reader's `BSR_PUSH`, `BSR_UNESC` and `GET_BITS` (41_bitstream_reader R143 to R145): what each does on
port P, the new buffer told by its bytes and the value read by its bits. -/

namespace Sys2Proof.Machine

/-! ### `BSR_PUSH` -/

/-- Settles O40: the byte is written at `rlen`, which the canonical form of the buffer lets every read see. -/
theorem bsrPush : Obligations.BsrPush := by
  refine ⟨fun byte => producerCommand_of_onProducer rfl fun _ => ⟨_, rfl⟩,
    fun s byte hp hw => ⟨fun hfull => ?_, fun hroom => ?_⟩⟩
  · rw [exec, execBsrPush, onProducer_of_P hp, if_pos hfull, fail_eq_failed _ _ rfl]
  · refine ⟨Memory.write s.rbuf s.rlen byte, Memory.read_write hw s.rlen byte, Memory.wf_write hw s.rlen byte, ?_⟩
    rw [exec, execBsrPush, onProducer_of_P hp, if_neg hroom, done_eq_answered _ _ _ _ _ _ rfl]

/-! ### `BSR_UNESC` -/

/-- A buffer made of `bs` agrees beyond `bs` with any `old` contents that are zero there. -/
theorem holdsBytes_ofBytes {bs : List Byte} {old : Nat → Byte} (hzero : ∀ i, bs.length ≤ i → old i = 0#8) :
    HoldsBytes (Memory.ofBytes bs) bs old := by
  refine ⟨fun i => ?_, Memory.wf_ofBytes bs⟩
  rw [Memory.read_ofBytes]
  split_ifs with hi
  · rfl
  · have hbeyond : bs.length ≤ i := by omega
    rw [hzero i hbeyond, List.getD_eq_default _ _ hbeyond]

theorem loadReader_eq_answered (b : List Byte) (s : State) :
    loadReader b s =
      answered { s with rbuf := Memory.ofBytes b, rlen := b.length, rpos := 0 } .stOk (u32 b.length) := by
  rw [loadReader, done_eq_answered _ _ _ _ _ _ rfl]

/-- The buffer with the bytes up to `rlen` cleared is zero everywhere: beyond `rlen` it was already (R37). -/
theorem ReaderInv.cleared_eq_zero {s : State} (hinv : ReaderInv s) (i : Nat) :
    (if i < s.rlen then 0#8 else Memory.read s.rbuf i) = 0#8 := by
  split_ifs with hi
  · rfl
  · exact hinv.rbufZero i (by omega)

/-- Settles O42: the reader is loaded with what the removal leaves, and the bytes beyond it are zero. -/
theorem bsrUnesc : Obligations.BsrUnesc := by
  refine ⟨producerCommand_of_onProducer rfl fun _ => ⟨_, rfl⟩,
    fun s hp hinv => ⟨fun hbad => ?_, fun hlen hstart u hu => ?_⟩⟩
  · rw [exec, execBsrUnesc, onProducer_of_P hp, startCode, if_pos hbad, fail_eq_failed _ _ rfl]
  · subst hu
    have hgood : ¬ (s.rlen < 4 ∨ Memory.bytes s.rbuf 4 ≠ startCode) := by
      rintro (hshort | hne)
      · omega
      · exact hne hstart
    refine ⟨Memory.ofBytes (unesc (Memory.bytes s.rbuf s.rlen)), holdsBytes_ofBytes fun i _ => hinv.cleared_eq_zero i, ?_⟩
    rw [exec, execBsrUnesc, onProducer_of_P hp, if_neg hgood, loadReader_eq_answered]

/-! ### `GET_BITS` -/

/-- The value of a field, as a word, holds the field's bits, zero-extended. -/
theorem readsAs_bitRead (m : Memory) (p n : Nat) : ReadsAs m p n (u32 (bitRead m p n)) := by
  intro j hj
  rw [u32, BitVec.getLsbD_ofNat, testBit_bitRead, decide_eq_true hj, Bool.true_and]

/-- `GET_BITS` on port P, the test of the bits left in terms of the position after the read. -/
theorem exec_getBits_of_P {s : State} (hp : s.port = .P) (hpos : s.rpos ≤ 8 * s.rlen) (width : Byte) :
    exec (.getBits width) s =
      .next (if 32 < width.toNat then failed s .eInvalidParam
        else if 8 * s.rlen < s.rpos + width.toNat then failed s .eUnderrun
        else answered { s with rpos := s.rpos + width.toNat } .stOk (u32 (bitRead s.rbuf s.rpos width.toNat))
          (u32 width.toNat)) := by
  have havail : avail s < width.toNat ↔ 8 * s.rlen < s.rpos + width.toNat := by
    rw [avail]
    omega
  rw [exec, execGetBits, onProducer_of_P hp, Config.valueWidth, fail_eq_failed _ .eInvalidParam rfl,
    fail_eq_failed _ .eUnderrun rfl, done_eq_answered _ _ _ _ _ _ rfl]
  simp only [havail]

/-- Settles O43: each clause picks a branch of `exec_getBits_of_P`. -/
theorem getBits : Obligations.GetBits := by
  refine ⟨fun width => producerCommand_of_onProducer rfl fun _ => ⟨_, rfl⟩,
    fun s width hp hpos => ⟨fun hwide => ?_, fun hwidth hshort => ?_, fun hwidth hfits => ?_⟩⟩
  · rw [exec_getBits_of_P hp hpos, if_pos hwide]
  · rw [exec_getBits_of_P hp hpos, if_neg (by omega), if_pos hshort]
  · exact ⟨_, readsAs_bitRead s.rbuf s.rpos width.toNat,
      by rw [exec_getBits_of_P hp hpos, if_neg (by omega), if_neg (by omega)]⟩

end Sys2Proof.Machine
end

section
/-! PROOFS. The decoded picture buffer (42_dpb): what each command does on port P, in the relations `IsOldest`, `Bumped`,
`BumpsWhile`, `Collects` of the buffer's slots; when the loop of `DPB_ADD` finds room. -/

namespace Sys2Proof.Machine

/-! ### The checks before a command (R160, R161) -/

/-- A command that opens with `onDpb` fails with `E_NOT_INIT` before the first `DPB_INIT`. -/
theorem exec_eq_failed_of_not_init {i : Instr} {s body : State} (hexec : exec i s = .next (onDpb s body))
    (hp : s.port = .P) (hi : s.dpbInit = false) : exec i s = .next (failed s .eNotInit) := by
  rw [hexec, onDpb_of_not_init hp hi, fail_eq_failed _ _ rfl]

/-- The one coding type `F` cannot name is 3 (R82). -/
theorem flagsType_eq_none_iff : ∀ f : Byte, flagsType f = none ↔ f.extractLsb' 4 2 = 3#2 := by decide

/-- `DPB_ADD` on port P: the type and the `out` flag are refused before the buffer is looked at (R161). -/
theorem exec_dpbAdd_refusals_of_P {s : State} (hp : s.port = .P) {f : Byte} (hf : f.extractLsb' 6 2 = 0#2) (surf n : Half)
    (poc : Word) :
    (f.extractLsb' 4 2 = 3#2 ∨ f.getLsbD 1 = true → exec (.dpbAdd f surf poc n) s = .next (failed s .eInvalidParam)) ∧
    (f.extractLsb' 4 2 ≠ 3#2 → f.getLsbD 1 = false → s.dpbInit = false →
      exec (.dpbAdd f surf poc n) s = .next (failed s .eNotInit)) := by
  have hlegal : flagsIllegal f = false := by simp [flagsIllegal, hf]
  rw [exec, execDpbAdd, withFlags, hlegal, if_neg Bool.false_ne_true, onProducer_of_P hp, ne_eq,
    ← flagsType_eq_none_iff, fail_eq_failed _ .eInvalidParam rfl, fail_eq_failed _ .eNotInit rfl]
  cases flagsType f with
  | none => simp
  | some t => constructor <;> simp +contextual [flagsOut]

/-- `DPB_ADD` of a picture not yet output chooses by the policy and by `ref` (R167, R168, R170). -/
theorem exec_dpbAdd_of_init {s : State} (hp : s.port = .P) (hi : s.dpbInit = true) {inc : Picture}
    (ho : inc.out = false) :
    exec (.dpbAdd (flagsByte inc) inc.surf inc.poc inc.frameNum) s =
      .next (if s.dpbMax = 2 then addTwoSlot inc s
        else if inc.ref = true then addReference inc s else addNonReference inc s) := by
  simp [exec, execDpbAdd, hp, hi, ho, dpbTwo]

/-- `DPB_ADD` on port C fails with `E_PORT`. -/
theorem producerCommand_dpbAdd (f : Byte) (surf n : Half) (poc : Word) :
    ProducerCommand (.dpbAdd f surf poc n) [0x41#8 ++ f ++ surf, poc, 0x0000#16 ++ n] := by
  refine ⟨rfl, fun hwf s hp => ?_⟩
  rw [exec, execDpbAdd, withFlags_of_C hp f hwf, fail_eq_failed _ _ rfl]

/-- Settles O45: the checks are those of `execDpbInit`, `exec_dpbAdd_refusals_of_P` and `onDpb`. -/
theorem dpbInitAndChecks : Obligations.DpbInitAndChecks := by
  refine ⟨fun cap => producerCommand_of_onProducer rfl fun _ => ⟨_, rfl⟩, fun s cap hp => ⟨fun hbad => ?_, fun hpos hle => ?_⟩,
    fun s f surf n poc hp hf => exec_dpbAdd_refusals_of_P hp hf surf n poc, fun s want poc hp hi => ?_⟩
  · rw [exec, execDpbInit, onProducer_of_P hp, if_pos hbad, fail_eq_failed _ _ rfl]
  · have htwo : cap.toNat = 2 ↔ cap = 2#8 := BitVec.toNat_inj (y := 2#8)
    rw [exec, execDpbInit, onProducer_of_P hp, if_neg (by omega), done_eq_answered _ _ _ _ _ _ rfl, u32,
      BitVec.ofNat_toNat, if_congr htwo rfl rfl]
  · exact ⟨exec_eq_failed_of_not_init rfl hp hi, exec_eq_failed_of_not_init rfl hp hi,
      exec_eq_failed_of_not_init rfl hp hi, exec_eq_failed_of_not_init rfl hp hi⟩

/-! ### Runs of bumps -/

/-- A bump outputs one of the pictures held, which stays, as output, only if it is a reference picture. -/
theorem Bumped.perm_slots {l l' : List Picture} {p : Picture} (h : Bumped l p l') :
    ∃ q rest, p = released q ∧ List.Perm l (q :: rest) ∧ List.Perm l' (if q.ref then released q :: rest else rest) := by
  obtain ⟨i, q, ⟨hget, -, -⟩, rfl, hl'⟩ := h
  obtain ⟨hi, rfl⟩ := List.getElem?_eq_some_iff.1 hget
  refine ⟨l[i], l.eraseIdx i, rfl, (List.getElem_cons_eraseIdx_perm hi).symm, ?_⟩
  split_ifs at hl' ⊢ with hr
  · subst hl'
    exact List.set_perm_cons_eraseIdx hi _
  · obtain rfl := hl'.unique (removeSlot_removed l i hi)
    exact ((removeSlot_perm l i _ hget).symm.trans (List.getElem_cons_eraseIdx_perm hi).symm).cons_inv

theorem BumpsWhile.mono {C D : List Picture → Prop} (hCD : ∀ m, C m → D m) {l outs l' : List Picture}
    (h : BumpsWhile C l outs l') : BumpsWhile D l outs l' := by
  induction h with
  | stop l => exact .stop l
  | more hc hb _ ih => exact .more (hCD _ hc) hb ih

/-- No picture a bump leaves to output has a smaller `poc` than the one it outputs. -/
theorem Bumped.poc_le_pending {l l' : List Picture} {p : Picture} (h : Bumped l p l') :
    ∀ q ∈ pending l', p.poc.toInt ≤ q.poc.toInt := by
  intro q hq
  obtain ⟨x, -, -, hperm⟩ := h.perm
  obtain ⟨i, y, ⟨-, -, hleast⟩, rfl, -⟩ := h
  have hmem : q ∈ pending l := hperm.mem_iff.2 (List.mem_cons_of_mem x hq)
  obtain ⟨hql, hout⟩ := List.mem_filter.1 hmem
  obtain ⟨j, hj⟩ := List.mem_iff_getElem?.1 hql
  exact (hleast j q hj (by simpa using hout)).1

/-- A run of bumps outputs in ascending `poc` (R172). -/
theorem BumpsWhile.pairwise_poc_le {C : List Picture → Prop} {l outs l' : List Picture} (h : BumpsWhile C l outs l') :
    outs.Pairwise fun p q => p.poc.toInt ≤ q.poc.toInt := by
  induction h with
  | stop l => exact .nil
  | more _ hb hrun ih =>
    refine .cons (fun q hq => ?_) ih
    obtain ⟨qs, -, rfl, hperm⟩ := hrun.perm
    obtain ⟨x, hx, rfl⟩ := List.mem_map.1 hq
    exact hb.poc_le_pending x (hperm.mem_iff.2 (List.mem_append_left _ hx))

/-! ### When the loop of `DPB_ADD` finds room -/

/-- Every picture that is no reference picture is left to output, as after `GC()` (R166). -/
def NoGarbage (l : List Picture) : Prop := ∀ p ∈ l, p.ref = false → p.out = false

/-- A bump of a full buffer without garbage leaves none, and can still be freed exactly when it could before: either it has
removed a picture, or the pictures that are no reference pictures are the same ones. -/
theorem Bumped.keeps_noGarbage_freeable {max : Nat} {l l' : List Picture} {p : Picture} (h : Bumped l p l')
    (hfull : l.length = max) (hl : NoGarbage l) : NoGarbage l' ∧ (Freeable max l' ↔ Freeable max l) := by
  obtain ⟨q, rest, -, hbefore, hafter⟩ := h.perm_slots
  have hlen := hbefore.length_eq
  have hlen' := hafter.length_eq
  simp only [NoGarbage, Freeable, hbefore.mem_iff, hafter.mem_iff] at hl ⊢
  cases hr : q.ref with
  | true =>
    simp only [hr, if_true, List.length_cons] at hlen hlen' ⊢
    have hsame : l'.length = l.length := by omega
    refine ⟨List.forall_mem_cons.2 ⟨by simp [released, hr], fun x hx => hl x (List.mem_cons_of_mem q hx)⟩, ?_⟩
    simp [hsame, released, hr]
  | false =>
    simp only [hr, Bool.false_eq_true, if_false, List.length_cons] at hlen hlen' ⊢
    exact ⟨fun x hx => hl x (List.mem_cons_of_mem q hx),
      iff_of_true (.inl (by omega)) (.inr ⟨q, List.mem_cons_self, hr⟩)⟩

theorem BumpsWhile.keeps_noGarbage_freeable {C : List Picture → Prop} {max : Nat} (hC : ∀ m, C m → m.length = max)
    {l outs l' : List Picture} (h : BumpsWhile C l outs l') (hl : NoGarbage l) :
    NoGarbage l' ∧ (Freeable max l' ↔ Freeable max l) := by
  induction h with
  | stop l => exact ⟨hl, .rfl⟩
  | more hc hb _ ih =>
    obtain ⟨hl₁, hfree₁⟩ := hb.keeps_noGarbage_freeable (hC _ hc) hl
    obtain ⟨hl', hfree'⟩ := ih hl₁
    exact ⟨hl', hfree'.trans hfree₁⟩

/-- A full buffer without garbage and with nothing left to output holds reference pictures only. -/
theorem not_freeable_of_allOutput {max : Nat} {l : List Picture} (hl : NoGarbage l) (hfull : l.length = max)
    (hall : AllOutput l) : ¬ Freeable max l := by
  rintro (hlen | ⟨p, hp, hr⟩)
  · exact hlen hfull
  · exact absurd (hall p hp) (by simp [hl p hp hr])

/-- The three ends of the loop after `GC()`, the one of R169 exactly when the collected buffer cannot be freed. The search
`late` is one that succeeds only on a buffer with a picture that is no reference picture. -/
theorem makeRoom_gc_cases {late : List Picture → Bool} (hlate : ∀ m, late m = true → ∃ p ∈ m, p.ref = false) (max : Nat)
    (l : List Picture) :
    ∃ outs l' e, makeRoom late max ((gc l).length + 1) (gc l) [] = (e, l', outs) ∧
      BumpsWhile (fun m => m.length = max ∧ late m = false) (gc l) outs l' ∧
      (e = .room ∧ Freeable max (gc l) ∧ l'.length ≠ max ∨
       e = .late ∧ Freeable max (gc l) ∧ l'.length = max ∧ late l' = true ∨
       e = .exhausted ∧ ¬ Freeable max (gc l) ∧ l'.length = max ∧ AllOutput l') := by
  obtain ⟨outs, l', e, hrun, hbumps, hend⟩ := makeRoom_spec late max ((gc l).length + 1) (gc l) []
    (Nat.lt_succ_of_le (pending_length_le _))
  obtain ⟨hclean, hfree⟩ := hbumps.keeps_noGarbage_freeable (fun _ h => h.1) (noGarbage_gc l)
  refine ⟨outs, l', e, hrun, hbumps, ?_⟩
  rw [← hfree]
  cases e with
  | room => exact .inl ⟨rfl, .inl hend, hend⟩
  | late => exact .inr (.inl ⟨rfl, .inr (hlate l' hend.2), hend⟩)
  | exhausted =>
    obtain ⟨hfull, -, hall⟩ := hend
    exact .inr (.inr ⟨rfl, not_freeable_of_allOutput hclean hfull hall, hfull, hall⟩)

/-! ### `DPB_ADD` -/

/-- Settles O46: the loop of a reference picture has no search, so it ends with room or exhausted. -/
theorem dpbAddReference : Obligations.DpbAddReference := by
  refine ⟨producerCommand_dpbAdd, fun s inc hp hi hgeneral hr ho => ?_⟩
  obtain ⟨outs, l', e, hrun, hbumps, hend⟩ := makeRoom_gc_cases (late := fun _ => false) (by simp) s.dpbMax s.slots
  refine ⟨gc s.slots, outs, l', gc_collects _, hbumps.mono fun _ h => h.1, ?_⟩
  rw [exec_dpbAdd_of_init hp hi ho, if_neg hgeneral, if_pos hr, addReference]
  rcases hend with ⟨rfl, hfree, hroom⟩ | ⟨-, -, -, hlate⟩ | ⟨rfl, hstuck, hend⟩
  · simp only [hrun, done_eq_answered _ .stOk _ _ _ _ rfl]
    exact ⟨fun _ => ⟨rfl, hroom⟩, fun h => absurd hfree h⟩
  · exact absurd hlate Bool.false_ne_true
  · simp only [hrun, fail_eq_failed _ .eDpbExhausted rfl]
    exact ⟨fun h => absurd h hstuck, fun _ => ⟨rfl, hend⟩⟩

theorem smallerNonRef_iff (inc : Picture) (l : List Picture) : smallerNonRef inc l = true ↔ HasSmallerNonRef inc l := by
  simp [smallerNonRef, HasSmallerNonRef, pocLt_iff]

/-- Settles O47: the search of R168 succeeds only where a picture is no reference picture, so each end of the loop is one
clause. -/
theorem dpbAddNonReference : Obligations.DpbAddNonReference := by
  intro s inc hp hi hgeneral hr ho
  rw [exec_dpbAdd_of_init hp hi ho, if_neg hgeneral, if_neg (by simp [hr]), addNonReference]
  refine ⟨fun hskip => ⟨gc s.slots, gc_collects _, ?_⟩, fun hskip => ?_⟩
  · rw [if_pos hskip, done_eq_answered _ _ _ _ _ _ rfl, State.putDpb, List.append_nil]
  · obtain ⟨outs, l', e, hrun, hbumps, hend⟩ := makeRoom_gc_cases (late := smallerNonRef inc)
      (fun m hm => ((smallerNonRef_iff inc m).1 hm).imp fun _ h => ⟨h.1, h.2.1⟩) s.dpbMax s.slots
    refine ⟨gc s.slots, outs, l', gc_collects _, hbumps.mono fun m h => ⟨h.1, by simp [← smallerNonRef_iff, h.2]⟩, ?_⟩
    rw [if_neg (by simp [hskip])]
    rcases hend with ⟨rfl, hfree, hroom⟩ | ⟨rfl, hfree, hfull, hlate⟩ | ⟨rfl, hstuck, hend⟩
    · simp only [hrun, done_eq_answered _ .stOk _ _ _ _ rfl]
      exact ⟨fun _ _ => rfl, fun _ h => absurd h hroom, fun h => absurd hfree h⟩
    · simp only [hrun, done_eq_answered _ .stOk _ _ _ _ rfl, State.putDpb, ← List.append_assoc]
      exact ⟨fun _ h => absurd hfull h, fun _ _ => ⟨(smallerNonRef_iff inc l').1 hlate, rfl⟩, fun h => absurd hfree h⟩
    · simp only [hrun, fail_eq_failed _ .eDpbExhausted rfl]
      exact ⟨fun h => absurd h hstuck, fun h => absurd h hstuck, fun _ => ⟨rfl, hend⟩⟩

/-- A reference picture in a full 2-slot buffer takes the older picture's slot (R170, conflict C1). -/
theorem addTwoSlot_of_full {s : State} {a b inc : Picture} (hr : inc.ref = true) (hs : s.slots = [a, b]) :
    addTwoSlot inc s =
      let old := if b.poc.toInt < a.poc.toInt then b else a
      let left := if b.poc.toInt < a.poc.toInt then [a, inc] else [inc, b]
      let outs := if old.out then [] else [released old]
      (s.putDpb left outs).done .stOk (u32 outs.length) 0#32 := by
  rw [addTwoSlot, if_pos hr, hs]
  by_cases hlt : b.poc.toInt < a.poc.toInt <;> simp [olderOfTwo, pocLt_iff, hlt]

/-- Settles O48: with fewer than two pictures held the slots are none or one. -/
theorem dpbAddTwoSlot : Obligations.DpbAddTwoSlot := by
  intro s inc hp hi htwo _ ho
  rw [exec_dpbAdd_of_init hp hi ho, if_pos htwo]
  refine ⟨fun hr => ?_, fun hr hroom => ?_, fun a b old left hr hs hold hleft => ⟨fun hout => ?_, fun hout => ?_⟩⟩
  · rw [addTwoSlot, if_neg (by simp [hr]), done_eq_answered _ _ _ _ _ _ rfl]
    rfl
  · rw [addTwoSlot, if_pos hr]
    split
    · next hs => simp [hs] at hroom
    · rw [done_eq_answered _ _ _ _ _ _ rfl, State.putDpb, List.append_nil]
  · rw [addTwoSlot_of_full hr hs]
    simp only [← hold, ← hleft, hout, done_eq_answered _ .stOk _ _ _ _ rfl]
    rfl
  · rw [addTwoSlot_of_full hr hs]
    simp only [← hold, ← hleft, hout, done_eq_answered _ .stOk _ _ _ _ rfl, State.putDpb, if_true, List.append_nil]
    rfl

/-! ### The other commands -/

/-- Settles O49: the two ends of `Bump()`. -/
theorem dpbBump : Obligations.DpbBump := by
  refine ⟨producerCommand_of_onProducer rfl fun _ => ⟨_, rfl⟩, fun s hp hi => ?_⟩
  rw [exec, execDpbBump, onDpb_of_init hp hi]
  rcases bump_spec s.slots with ⟨p, l', hbump, hbumped⟩ | ⟨hbump, hall⟩
  · refine ⟨fun _ => ⟨p, l', hbumped, ?_⟩, fun hall => ?_⟩
    · simp only [hbump, answerPicture, done_eq_answered _ .stOk _ _ _ _ rfl]
      rfl
    · have := hbumped.pending_length
      simp [(allOutput_iff_pending _).1 hall] at this
  · refine ⟨fun hleft => absurd hall hleft, fun _ => ?_⟩
    simp only [hbump, done_eq_answered _ .stFalse _ _ _ _ rfl]

/-- Settles O50: a run of bumps outputs in ascending `poc`, and one that leaves nothing to output has output all of it. -/
theorem dpbFlush : Obligations.DpbFlush := by
  refine ⟨producerCommand_of_onProducer rfl fun _ => ⟨_, rfl⟩, fun s hp hi => ?_⟩
  obtain ⟨l', hbumps, hall⟩ := bumpAll_spec s.slots.length s.slots (pending_length_le _)
  refine ⟨_, l', hbumps, hall, hbumps.pairwise_poc_le, ?_, ?_⟩
  · obtain ⟨qs, -, houts, hperm⟩ := hbumps.perm
    rw [(allOutput_iff_pending l').1 hall, List.append_nil] at hperm
    rw [houts]
    exact (hperm.map released).symm
  · rw [exec, execDpbFlush, onDpb_of_init hp hi, done_eq_answered _ _ _ _ _ _ rfl]
    rfl

/-- Settles O51: the two ends of `Oldest(want)`. -/
theorem dpbOldest : Obligations.DpbOldest := by
  refine ⟨⟨producerCommand_of_onProducer rfl fun _ => ⟨_, rfl⟩, producerCommand_of_onProducer rfl fun _ => ⟨_, rfl⟩⟩,
    fun s want hp hi => ?_⟩
  rw [exec, execDpbOldest, onDpb_of_init hp hi]
  rcases oldest_spec want s.slots with ⟨i, p, hfound, hbest⟩ | ⟨hnone, hno⟩
  · refine ⟨fun _ => ⟨i, p, hbest, ?_⟩, fun hno => ?_⟩
    · simp only [hfound, answerPicture, done_eq_answered _ .stOk _ _ _ _ rfl]
    · obtain ⟨hget, hout, -⟩ := hbest
      exact absurd hout (hno p (List.mem_of_getElem? hget))
  · refine ⟨fun ⟨p, hp, hout⟩ => absurd hout (hno p hp), fun _ => ?_⟩
    simp only [hnone, done_eq_answered _ .stOk _ _ _ _ rfl]

/-- The words of a neighbour that a search found, or zeros when it found none. -/
theorem neighbourWords_of_search {is : Picture → Prop} {found : Option Picture}
    (h : (∃ p, found = some p ∧ is p) ∨ (found = none ∧ ∀ p, ¬ is p)) :
    NeighbourWords is (pocOrZero found) (piwOrZero found) := by
  rcases h with ⟨p, rfl, hp⟩ | ⟨rfl, hnone⟩
  · exact .inl ⟨p, hp, rfl, rfl⟩
  · exact .inr ⟨hnone, rfl, rfl⟩

/-- Settles O52: each word pair is what its search found. -/
theorem dpbNeigh : Obligations.DpbNeigh := by
  refine ⟨fun poc => producerCommand_of_onProducer rfl fun _ => ⟨_, rfl⟩, fun s poc hp hi => ?_⟩
  refine ⟨_, _, _, _, neighbourWords_of_search ((prevOf_spec poc s.slots).imp_right fun h => ⟨h.1, ?_⟩),
    neighbourWords_of_search ((nextOf_spec poc s.slots).imp_right fun h => ⟨h.1, ?_⟩), ?_⟩
  · rintro p ⟨i, hget, hbelow, -⟩
    exact h.2 p (List.mem_of_getElem? hget) hbelow
  · rintro p ⟨i, hget, habove, -⟩
    exact h.2 p (List.mem_of_getElem? hget) habove
  · rw [exec, execDpbNeigh, onDpb_of_init hp hi, done_eq_answered _ _ _ _ _ _ rfl]

end Sys2Proof.Machine
end

section
/-! PROOFS. The reference picture list unit (43_reflist R191, R194, R195): what each command does on port P, by the coding type
that its flags byte names. -/

namespace Sys2Proof.Machine

/-! ### Commands that open with the checks of a flags byte -/

/-- A command that opens with `withFlags` fails with `E_PORT` on port C. -/
theorem producerCommand_of_withFlags {i : Instr} {packet : List Word} {f : Byte} (henc : encode i = packet)
    (hwf : i.wf = flagsReservedClear f) (hexec : ∀ s : State, ∃ body, exec i s = .next (withFlags f s body)) :
    ProducerCommand i packet := by
  refine ⟨henc, fun hi s hp => ?_⟩
  obtain ⟨body, hbody⟩ := hexec s
  rw [hbody, withFlags_of_C hp f (hwf.symm.trans hi), fail_eq_failed _ _ rfl]

/-- With the reserved bits clear, port P gets past the first two checks, and the type 3 fails the third (R82). -/
theorem withFlags_of_type_three {s : State} (hp : s.port = .P) {f : Byte} (hf : f.extractLsb' 6 2 = 0#2)
    (htype : f.extractLsb' 4 2 = 3#2) (body : PicType → State) : withFlags f s body = failed s .eInvalidParam := by
  have hnone : flagsType f = none := (flagsType_eq_none_iff f).2 htype
  simpa [withFlags, flagsIllegal, hf, hp, hnone] using fail_eq_failed s .eInvalidParam rfl

/-- With the reserved bits clear, a command goes on with the type named, on port P. -/
theorem withFlags_of_type {s : State} (hp : s.port = .P) {f : Byte} (hf : f.extractLsb' 6 2 = 0#2) {t : PicType}
    (htype : flagsType f = some t) (body : PicType → State) : withFlags f s body = body t := by
  simp [withFlags, flagsIllegal, hf, hp, htype]

/-- A flags byte whose type field is the number of a coding type names that type. -/
theorem flagsType_of_code {f : Byte} {t : PicType} (h : f.extractLsb' 4 2 = t.code) : flagsType f = some t := by
  rw [flagsType, h]
  cases t <;> rfl

/-! ### `RPL_UPDATE` -/

/-- What is left of the set `set` when a non-B picture enters it: nothing for an IDR picture, else all but the last entry of a
full set (R191). -/
def keptEntries (idr : Bool) (maxRef : Nat) (set : List RefEntry) : List RefEntry :=
  if idr then [] else if set.length = maxRef then set.dropLast else set

/-- `RPL_UPDATE` of a picture record on port P. -/
theorem exec_rplUpdate_of_P {s : State} (hp : s.port = .P) (p : Picture) :
    exec (.rplUpdate (flagsByte p) p.surf p.poc p.frameNum) s =
      .next (if p.idr = true ∧ p.type ≠ .I then failed s .eInvalidParam
        else if p.type = .B then answered s .stOk (u32 s.refset.length)
        else
          let kept := keptEntries p.idr s.maxRef s.refset
          answered { s with refset := ⟨p.frameNum, p.poc, p.surf⟩ :: kept } .stOk (u32 (kept.length + 1))
            (u32 (s.refset.length - kept.length))) := by
  rw [exec, execRplUpdate, withFlags_flagsByte hp, flagsIdr_flagsByte, fail_eq_failed _ .eInvalidParam rfl,
    done_eq_answered _ .stOk _ _ _ _ rfl, done_eq_answered _ .stOk _ _ _ _ rfl]
  rfl

/-- Entering a picture that is neither refused nor ignored. -/
theorem exec_rplUpdate_entering {s : State} (hp : s.port = .P) {p : Picture} (hidr : p.idr = true → p.type = .I)
    (hB : p.type ≠ .B) {kept : List RefEntry} (hkept : keptEntries p.idr s.maxRef s.refset = kept) :
    exec (.rplUpdate (flagsByte p) p.surf p.poc p.frameNum) s =
      .next (answered { s with refset := ⟨p.frameNum, p.poc, p.surf⟩ :: kept } .stOk (u32 (kept.length + 1))
        (u32 (s.refset.length - kept.length))) := by
  rw [exec_rplUpdate_of_P hp, if_neg (fun h => h.2 (hidr h.1)), if_neg hB, hkept]

/-- Settles O54: the clauses differ in what is kept of the set, by `exec_rplUpdate_entering`. -/
theorem rplUpdate : Obligations.RplUpdate := by
  refine ⟨fun f surf n poc => producerCommand_of_withFlags rfl rfl fun _ => ⟨_, rfl⟩,
    fun s f surf n poc hp hf htype => ?_, fun s p hp hmax => ⟨fun hidr hI => ?_, fun hidr hB => ?_, fun hidr hI => ?_,
      fun hidr hB hfull => ?_, fun hidr hB hroom => ?_⟩⟩
  · rw [exec, execRplUpdate, withFlags_of_type_three hp hf htype]
  · rw [exec_rplUpdate_of_P hp, if_pos ⟨hidr, hI⟩]
  · rw [exec_rplUpdate_of_P hp, if_neg (by simp [hidr]), if_pos hB]
  · exact exec_rplUpdate_entering (kept := []) hp (fun _ => hI) (by simp [hI]) (by simp [keptEntries, hidr])
  · have hkept : keptEntries p.idr s.maxRef s.refset = s.refset.take (s.maxRef - 1) := by
      simp [keptEntries, hidr, hfull, List.dropLast_eq_take]
    have hlen : (s.refset.take (s.maxRef - 1)).length = s.maxRef - 1 := by simp [hfull]
    have hlost : s.maxRef - (s.maxRef - 1) = 1 := by omega
    rw [exec_rplUpdate_entering hp (by simp [hidr]) hB hkept, hlen, hfull, Nat.sub_add_cancel hmax, hlost]
    rfl
  · rw [exec_rplUpdate_entering hp (kept := s.refset) (by simp [hidr]) hB (by simp [keptEntries, hidr, hroom]), Nat.sub_self]
    rfl

/-! ### `RPL_INIT` -/

/-- `RPL_INIT` on port P of an I or a P picture: list 0 is cut from the set for a P picture and empty for an I picture, and
list 1 has no candidates (R194). -/
theorem exec_rplInit_of_P {s : State} (hp : s.port = .P) {f : Byte} (hf : f.extractLsb' 6 2 = 0#2) {t : PicType}
    (htype : f.extractLsb' 4 2 = t.code) (hB : t ≠ .B) {l0 : List RefEntry}
    (hl0 : (if t = .P then s.refset else []).take s.maxL0 = l0) :
    exec (.rplInit f) s = .next (answered { s with l0 := l0, l1 := [] } .stOk (u32 l0.length)) := by
  rw [exec, execRplInit, withFlags_of_type hp hf (flagsType_of_code htype), if_neg hB, hl0, List.take_nil,
    done_eq_answered _ _ _ _ _ _ rfl]
  rfl

/-! ### `RPL_READ` -/

theorem word0_rplRead (which : BitVec 2) (index : Half) :
    word0 0x52#8 (0#6 ++ which) index = 0x52#8 ++ 0#6 ++ which ++ index := by
  have hopen : ∀ w : BitVec 2, 0x52#8 ++ (0#6 ++ w) = 0x52#8 ++ 0#6 ++ w := by decide
  rw [word0, hopen]

/-- `RPL_READ` on port P of a list that `which` selects: the index is checked against the live entries (R195). -/
theorem exec_rplRead_of_P {s : State} (hp : s.port = .P) {which : BitVec 2} {l : List RefEntry}
    (hl : listOf which s = some l) (index : Half) :
    (l.length ≤ index.toNat → exec (.rplRead which index) s = .next (failed s .eInvalidParam)) ∧
    ∀ e, l[index.toNat]? = some e →
      exec (.rplRead which index) s = .next (answered s .stOk e.poc (e.frameNum.setWidth 32) (refPiw e)) := by
  rw [exec, execRplRead, onProducer_of_P hp, hl, Option.bind_some]
  refine ⟨fun hbeyond => ?_, fun e he => ?_⟩
  · rw [List.getElem?_eq_none hbeyond]
    exact congrArg _ (fail_eq_failed _ _ rfl)
  · rw [he]
    exact congrArg _ (done_eq_answered _ _ _ _ _ _ rfl)

/-- Settles O55: the lists an I and a P picture latch are two cases of `exec_rplInit_of_P`, and `exec_rplRead_of_P` reads each
of the three lists. -/
theorem rplInitAndRead : Obligations.RplInitAndRead := by
  refine ⟨fun f => producerCommand_of_withFlags rfl rfl fun _ => ⟨_, rfl⟩,
    fun which index => producerCommand_of_onProducer (congrArg ([·]) (word0_rplRead which index)) fun _ => ⟨_, rfl⟩,
    fun s f hp hf => ⟨fun h3 => ?_, fun hB => ?_, fun hI => ?_, fun hP => ?_⟩,
    fun s which index hp => ⟨fun h3 => ?_, fun l hl => exec_rplRead_of_P hp ?_ index⟩⟩
  · rw [exec, execRplInit, withFlags_of_type_three hp hf h3]
  · rw [exec, execRplInit, withFlags_of_type hp hf (flagsType_of_code (t := .B) hB), if_pos rfl, fail_eq_failed _ _ rfl]
  · exact exec_rplInit_of_P (t := .I) hp hf hI (by decide) List.take_nil
  · rw [exec_rplInit_of_P (t := .P) hp hf hP (by decide) rfl, if_pos rfl, List.length_take, Nat.min_comm]
  · rw [exec, execRplRead, onProducer_of_P hp, h3]
    exact congrArg _ (fail_eq_failed _ _ rfl)
  · rcases hl with ⟨rfl, rfl⟩ | ⟨rfl, rfl⟩ | ⟨rfl, rfl⟩ <;> rfl

end Sys2Proof.Machine
end

section
/-! PROOFS. The reorder pipeline and the output queue (44_reorder_output R207 to R222): the exponent of the `frame_num` range,
the numbering of an enqueued picture, and what each command does on the ports that may issue it. -/

namespace Sys2Proof.Machine

/-! ### The exponent of the `frame_num` range (R207) -/

/-- With enough turns the loop stops at the least exponent, from `v` on, whose power of two is above `k`. -/
theorem leastPowAbove_spec (k : Nat) : ∀ fuel v : Nat, k < 2 ^ (v + fuel) →
    k < 2 ^ leastPowAbove k fuel v ∧ ∀ u, v ≤ u → u < leastPowAbove k fuel v → 2 ^ u ≤ k := by
  intro fuel
  induction fuel with
  | zero => exact fun v hk => ⟨hk, fun u hle hlt => absurd hlt hle.not_gt⟩
  | succ fuel ih =>
    intro v hk
    rw [leastPowAbove]
    split
    · next hpow =>
      obtain ⟨habove, hleast⟩ := ih (v + 1) (by rwa [Nat.add_right_comm])
      refine ⟨habove, fun u hle hlt => ?_⟩
      rcases hle.eq_or_lt with rfl | hgt
      · exact hpow
      · exact hleast u hgt hlt
    · next hpow => exact ⟨Nat.lt_of_not_le hpow, fun u hle hlt => absurd hlt hle.not_gt⟩

/-- Settles O24: 32 turns are enough for a word. -/
theorem logOfMaxFrameNum : Obligations.LogOfMaxFrameNum := by
  intro k
  obtain ⟨habove, hleast⟩ := leastPowAbove_spec k.toNat 32 0 k.isLt
  exact ⟨_, habove, fun u => hleast u u.zero_le, rfl⟩

theorem frameNumRange_le (s : State) : frameNumRange s ≤ 2 ^ 10 :=
  Nat.pow_le_pow_right (by decide) (Nat.min_le_right _ _)

/-! ### `ROP_ENQ` -/

theorem keyDecision_iff (force : Bool) (s : State) : keyDecision force s = true ↔
    s.seenFirst = false ∨ force = true ∨ s.keyPeriod ≠ 0#32 ∧ s.keyPeriod.toNat ≤ s.frameIdx.toNat := by
  simp [keyDecision, or_assoc]

/-- The restart of R211, counter by counter. -/
theorem restartGop_eq (idr : Bool) (s : State) : restartGop idr s =
    { s with
      frameIdx := if idr then 0#32 else s.frameIdx
      frameNumCtr := if idr then 0#32 else s.frameNumCtr
      presIdx := if idr then 0#32 else s.presIdx } := by
  cases idr <;> rfl

/-- The type of R212 as one condition. -/
theorem assign_type (idr : Bool) (surf : Half) (s : State) : (assign idr surf s).type =
    if idr ∨ s.intraPeriod ≠ 0#32 ∧ s.frameIdx.toNat % s.intraPeriod.toNat = 0 then .I else .P := by
  cases idr <;> simp [assign]

/-- The range is at most 1024, so the counter holds the next frame number whole (R211). -/
theorem toNat_enqueue_frameNumCtr (p : Picture) (s : State) :
    (enqueue p s).frameNumCtr.toNat = (s.frameNumCtr.toNat + 1) % frameNumRange s := by
  have hlt : (s.frameNumCtr.toNat + 1) % frameNumRange s < frameNumRange s := Nat.mod_lt _ (Nat.two_pow_pos _)
  exact Nat.mod_eq_of_lt ((hlt.trans_le (frameNumRange_le s)).trans (by decide))

/-- A picture is the one assigned when its `poc`, `frame_num` and type are those of R211 and R212, and it is a reference
picture, neither output nor skipped. -/
theorem assign_eq {p : Picture} {s : State}
    (hpoc : p.poc.toNat = s.presIdx.toNat * s.cfg.pocStep % 2 ^ s.cfg.pocBits % 2 ^ 32)
    (hnum : p.frameNum.toNat = s.frameNumCtr.toNat % frameNumRange s)
    (htype : p.type = if p.idr ∨ s.intraPeriod ≠ 0#32 ∧ s.frameIdx.toNat % s.intraPeriod.toNat = 0 then .I else .P)
    (href : p.ref = true) (hout : p.out = false) (hskip : p.skip = false) : assign p.idr p.surf s = p := by
  have hpoc' : (assign p.idr p.surf s).poc = p.poc := BitVec.eq_of_toNat_eq (by rw [hpoc]; rfl)
  have hnum' : (assign p.idr p.surf s).frameNum = p.frameNum :=
    BitVec.eq_of_toNat_eq (by rw [assign, ← hnum, BitVec.ofNat_toNat, BitVec.setWidth_eq])
  have htype' : (assign p.idr p.surf s).type = p.type := (assign_type _ _ _).trans htype.symm
  obtain ⟨poc, frameNum, type, ref, out, skip, idr, surf⟩ := p
  exact (Picture.mk.injEq ..).mpr ⟨hpoc', hnum', htype', href.symm, hout.symm, hskip.symm, rfl, rfl⟩

/-- `ROP_ENQ` on port P, on a queue with room. -/
theorem exec_ropEnq_of_room {s : State} (hp : s.port = .P) (hroom : s.roq.length ≠ s.cfg.roqDepth) {force idr : Bool}
    (hidr : keyDecision force s = idr) {surf : Half} {p : Picture} (hpic : assign idr surf (restartGop idr s) = p) :
    exec (.ropEnq force surf) s =
      .next (answered (enqueue p (restartGop idr s)) .stOk p.poc (p.frameNum.setWidth 32) (piw p)
        (u32 (s.roq.length + 1))) := by
  have hlen : (enqueue p (restartGop idr s)).roq.length = s.roq.length + 1 := by simp [enqueue, restartGop_eq]
  rw [exec, execRopEnq, onProducer_of_P hp, if_neg hroom]
  simp only [hidr, hpic, answerRop, hlen, done_eq_answered _ .stOk _ _ _ _ rfl]

/-- Settles O56: the picture described is the one assigned on the restarted counters, and the next frame number fits the
counter. -/
theorem ropEnq : Obligations.RopEnq := by
  refine ⟨fun surf => ⟨producerCommand_of_onProducer rfl fun _ => ⟨_, rfl⟩,
      producerCommand_of_onProducer rfl fun _ => ⟨_, rfl⟩⟩,
    fun s force surf hp => ⟨fun hfull => ?_, ?_⟩⟩
  · rw [exec, execRopEnq, onProducer_of_P hp, if_pos hfull, fail_eq_failed _ _ rfl]
  · rintro _ _ _ _ p hroom hidr rfl rfl rfl hpoc hnum htype href hout hskip rfl rfl
    have hkey : keyDecision force s = p.idr := Bool.eq_iff_iff.2 ((keyDecision_iff force s).trans hidr.symm)
    have hpic : assign p.idr p.surf (restartGop p.idr s) = p := by
      rw [restartGop_eq]
      exact assign_eq hpoc hnum htype href hout hskip
    refine ⟨(enqueue p (restartGop p.idr s)).frameNumCtr, ?_, ?_⟩
    · rw [toNat_enqueue_frameNumCtr, restartGop_eq]
      rfl
    · rw [exec_ropEnq_of_room hp hroom hkey hpic, restartGop_eq]
      rfl

/-! ### `ROP_SUBMIT` -/

/-- Settles O57: the clauses are the cases of the match of R214. -/
theorem ropSubmit : Obligations.RopSubmit := by
  refine ⟨producerCommand_of_onProducer rfl fun _ => ⟨_, rfl⟩, fun s hp => ⟨fun hwait => ?_, fun p rest hdump hroq => ?_⟩⟩
  · rw [exec, execRopSubmit, onProducer_of_P hp, hwait]
    exact congrArg _ (done_eq_answered _ _ _ _ _ _ rfl)
  · rw [exec, execRopSubmit, onProducer_of_P hp, hdump, hroq]
    exact congrArg _ (done_eq_answered _ _ _ _ _ _ rfl)

/-! ### `OUTQ_PUSH` -/

/-- The entry appended, its `sync` flag given by what it says of the type (R218). -/
theorem outEntry_eq {p : Picture} {sync : Bool} (hsync : sync = true ↔ p.type = .I) (buf : Word) :
    outEntry p buf = ⟨p, buf, true, sync⟩ := by
  have : (p.type == .I) = sync := Bool.eq_iff_iff.2 (by rw [beq_iff_eq, hsync])
  rw [outEntry, this]

/-- Settles O58: the type 3 fails in the checks of the flags byte; a picture record's operands assemble to it. -/
theorem outqPush : Obligations.OutqPush := by
  refine ⟨fun f surf n poc buf => producerCommand_of_withFlags rfl rfl fun _ => ⟨_, rfl⟩,
    fun s f surf n poc buf hp hf htype => ?_, fun s p buf hp => ⟨fun hfull => ?_, fun hroom sync hsync => ?_⟩⟩
  · rw [exec, execOutqPush, withFlags_of_type_three hp hf htype]
  · rw [exec, execOutqPush, withFlags_flagsByte hp, if_pos hfull, fail_eq_failed _ _ rfl]
  · rw [exec, execOutqPush, withFlags_flagsByte hp, if_neg hroom, pictureOf_flagsByte, outEntry_eq hsync,
      done_eq_answered _ _ _ _ _ _ rfl, List.length_append, List.length_singleton]

/-! ### `OUTQ_PEEK`, `OUTQ_POP` and `OUTQ_WAIT` -/

/-- The answer on an empty queue. -/
theorem answerFront_of_nil {s : State} (h : s.outq = []) : answerFront s = answered s .stNoData := by
  rw [answerFront, h]
  exact done_eq_answered _ _ _ _ _ _ rfl

/-- The answer when `e` is in front. -/
theorem answerFront_of_cons {s : State} {e : OutEntry} {q : List OutEntry} (h : s.outq = e :: q) :
    answerFront s =
      answered s .stOk e.pic.poc (e.pic.frameNum.setWidth 32) (piwWith e.sync e.eof e.pic) e.buf := by
  rw [answerFront, h]
  exact done_eq_answered _ _ _ _ _ _ rfl

/-- Settles O59: `OUTQ_PEEK` and an `OUTQ_WAIT` that ends at once both answer the front entry. -/
theorem outqPeekPopAndWait : Obligations.OutqPeekPopAndWait := by
  refine ⟨⟨rfl, rfl, rfl, fun s hp => ?_⟩, fun s hnil => ⟨?_, ?_, fun hc => ?_⟩, fun s e q hcons => ⟨?_, ?_, fun hc => ?_⟩⟩
  · rw [exec, execOutqWait, onConsumer_of_P hp, fail_eq_failed _ _ rfl]
  · rw [exec, execOutqPeek, answerFront_of_nil hnil]
  · rw [exec, execOutqPop, hnil]
    exact congrArg _ (done_eq_answered _ _ _ _ _ _ rfl)
  · rw [exec, execOutqWait, onConsumer_of_C hc, if_pos hnil]
  · rw [exec, execOutqPeek, answerFront_of_cons hcons]
  · rw [exec, execOutqPop, hcons]
    exact congrArg _ (done_eq_answered _ _ _ _ _ _ rfl)
  · have hne : s.outq ≠ [] := by simp [hcons]
    rw [exec, execOutqWait, onConsumer_of_C hc, if_neg hne]
    exact congrArg _ (answerFront_of_cons (s := { s with cWait := false }) hcons)

end Sys2Proof.Machine
end

section
/-! PROOFS. The registers of the map (10_state R39) through `CSRR` and `CSRW` (45_system R237, R238): each register has one
address, a read answers the map's value, and a write is the case list of R238. -/

namespace Sys2Proof.Machine

/-! ### Addresses of the registers (R38, R39) -/

/-- The address of a register: the inverse of `csrAt`. -/
def Csr.addr : Csr → Half
  | .sysId => 0x0000#16 | .sysErrlog => 0x0001#16
  | .bswNbits => 0x0010#16 | .bswFlags => 0x0011#16 | .bswEmulen => 0x0012#16 | .bswCap => 0x0013#16
  | .bsrLen => 0x0020#16 | .bsrPos => 0x0021#16
  | .dpbMax => 0x0040#16 | .dpbCount => 0x0041#16 | .dpbStat => 0x0042#16
  | .rplMaxref => 0x0050#16 | .rplMaxl0 => 0x0051#16 | .rplMaxl1 => 0x0052#16 | .rplCount => 0x0053#16
  | .rplL0n => 0x0054#16 | .rplL1n => 0x0055#16
  | .ropKeyper => 0x0060#16 | .ropIntraper => 0x0061#16 | .ropNumb => 0x0062#16 | .ropLog2mfn => 0x0063#16
  | .ropState => 0x0064#16 | .ropQcount => 0x0065#16 | .ropFrameidx => 0x0066#16 | .ropFramenum => 0x0067#16
  | .ropPresidx => 0x0068#16 | .ropFlags => 0x0069#16 | .outqCount => 0x0070#16

@[simp] theorem csrAt_addr (c : Csr) : csrAt c.addr = some c := by cases c <;> rfl

/-- Only its own address names a register. -/
theorem eq_addr_of_csrAt {addr : Half} {c : Csr} (h : csrAt addr = some c) : addr = c.addr := by
  unfold csrAt at h
  split at h <;> cases h <;> rfl

/-- Every register has a row in the map. -/
theorem addr_mem_csrView (c : Csr) : c.addr ∈ csrView.map (·.1) := by cases c <;> decide

/-! ### Values of the registers -/

theorem bits_two_eq_u32 : ∀ a b : Bool,
    0#30 ++ BitVec.ofBool a ++ BitVec.ofBool b = u32 ((if b then 1 else 0) + (if a then 2 else 0)) := by decide

theorem bits_three_eq_u32 : ∀ a b c : Bool, 0#29 ++ BitVec.ofBool a ++ BitVec.ofBool b ++ BitVec.ofBool c =
    u32 ((if c then 1 else 0) + (if b then 2 else 0) + (if a then 4 else 0)) := by decide

theorem bswFlags_eq_u32 (s : State) :
    bswFlags s = u32 ((if s.sealed then 1 else 0) + (if s.nbits % 8 = 0 then 2 else 0)) := by
  simp only [bswFlags, bits_two_eq_u32, aligned, beq_iff_eq]

theorem dpbStat_eq_u32 (s : State) :
    dpbStat s = u32 ((if s.dpbInit ∧ s.slots.length = s.dpbMax then 1 else 0) +
      (if s.dpbMax = 2 then 2 else 0) + (if s.dpbInit then 4 else 0)) := by
  simp only [dpbStat, bits_three_eq_u32, dpbFull, dpbTwo, Bool.and_eq_true, beq_iff_eq]

theorem RopState.code_eq_ite (r : RopState) : r.code = if r = .dumpFrames then 1#32 else 0#32 := by cases r <;> rfl

theorem ropFlags_eq_ite (s : State) : ropFlags s = if s.seenFirst then 1#32 else 0#32 := by
  unfold ropFlags
  cases s.seenFirst <;> rfl

/-- Row by row, the map of R39 gives what the register at its address reads as. -/
theorem map_csrValue_csrAt_eq_csrView (s : State) :
    csrView.map (fun e => (csrAt e.1).map (csrValue · s)) = csrView.map (fun e => some (e.2 s)) := by
  simp only [csrView, List.map_append, List.map_cons, List.map_nil, ← bswFlags_eq_u32, ← dpbStat_eq_u32,
    ← RopState.code_eq_ite, ← ropFlags_eq_ite]
  rfl

/-- The last column of R39 is the map read in the reset state. -/
theorem csrAtReset_eq_csrView (p : Params) : csrAtReset p = csrView.map fun e => (e.1, e.2 (State.resetWith p)) := rfl

/-! ### `CSRR` (R237) -/

theorem exec_csrr_of_csrAt {addr : Half} {c : Csr} (h : csrAt addr = some c) (s : State) :
    exec (.csrr addr) s = .next (answered s .stOk (csrValue c s)) := by
  rw [exec, execCsrr, h]
  exact congrArg _ (done_eq_answered _ _ _ _ _ _ rfl)

theorem exec_csrr_of_unmapped {addr : Half} (h : csrAt addr = none) (s : State) :
    exec (.csrr addr) s = .next (failed s .eInvalidParam) := by
  rw [exec, execCsrr, h]
  exact congrArg _ (fail_eq_failed _ _ rfl)

/-- A row of the map is what `CSRR` answers. -/
theorem exec_csrr_of_mem_csrView {e : Half × (State → Word)} (he : e ∈ csrView) (s : State) :
    exec (.csrr e.1) s = .next (answered s .stOk (e.2 s)) := by
  have hrow : (csrAt e.1).map (csrValue · s) = some (e.2 s) :=
    List.map_inj_left.1 (map_csrValue_csrAt_eq_csrView s) e he
  obtain ⟨c, hc, hval⟩ := Option.map_eq_some_iff.1 hrow
  rw [exec_csrr_of_csrAt hc, hval]

/-- Settles O22: the reset column is the map in the reset state, so its clause is the one before it. -/
theorem csrReads : Obligations.CsrReads := by
  refine ⟨fun _ => rfl, fun s e he => exec_csrr_of_mem_csrView he s, fun s addr hout => ?_, by decide, fun p e he => ?_⟩
  · refine exec_csrr_of_unmapped (Option.eq_none_iff_forall_ne_some.2 fun c hc => hout ?_) s
    rw [eq_addr_of_csrAt hc]
    exact addr_mem_csrView c
  · rw [csrAtReset_eq_csrView] at he
    obtain ⟨row, hrow, rfl⟩ := List.mem_map.1 he
    exact exec_csrr_of_mem_csrView hrow _

/-! ### `CSRW` (R238) -/

theorem exec_csrw_addr_of_P {s : State} (hp : s.port = .P) (c : Csr) (v : Word) :
    exec (.csrw c.addr v) s = .next (writeCsr c v s) := by
  rw [exec, execCsrw, onProducer_of_P hp, csrAt_addr]

theorem exec_csrw_of_unmapped {s : State} (hp : s.port = .P) {addr : Half} (h : csrAt addr = none) (v : Word) :
    exec (.csrw addr v) s = .next (failed s .eInvalidParam) := by
  rw [exec, execCsrw, onProducer_of_P hp, h]
  exact congrArg _ (fail_eq_failed _ _ rfl)

/-- A write that a case of R238 refuses. -/
theorem exec_csrw_of_refused {s : State} (hp : s.port = .P) (c : Csr) {v : Word} {st : Status}
    (hw : writeCsr c v s = s.fail st) (hst : st.isFailure = true) :
    exec (.csrw c.addr v) s = .next (failed s st) := by
  rw [exec_csrw_addr_of_P hp, hw, fail_eq_failed _ _ hst]

/-- A write that takes effect, leaving `t`, answers with the value that `t` reads. -/
theorem exec_csrw_of_written {s t : State} (hp : s.port = .P) (c : Csr) {v r : Word}
    (hw : writeCsr c v s = csrWritten c t) (hr : csrValue c t = r) :
    exec (.csrw c.addr v) s = .next (answered t .stOk r) := by
  rw [exec_csrw_addr_of_P hp, hw, csrWritten, hr, done_eq_answered _ _ _ _ _ _ rfl]

/-- The registers that R238 writes. -/
def Csr.writable : List Csr := [.rplMaxref, .rplMaxl0, .rplMaxl1, .ropKeyper, .ropIntraper, .ropNumb]

theorem writeCsr_of_not_writable {c : Csr} (h : c ∉ Csr.writable) (v : Word) (s : State) :
    writeCsr c v s = s.fail .eInvalidParam := by
  cases c
  case rplMaxref | rplMaxl0 | rplMaxl1 | ropKeyper | ropIntraper | ropNumb => exact absurd (by decide) h
  all_goals rfl

/-- Every address but the six of R238 is refused, in the map or not. -/
theorem exec_csrw_of_not_mem_writable {s : State} (hp : s.port = .P) {addr : Half} (h : addr ∉ Csr.writable.map Csr.addr)
    (v : Word) : exec (.csrw addr v) s = .next (failed s .eInvalidParam) := by
  cases hc : csrAt addr with
  | none => exact exec_csrw_of_unmapped hp hc v
  | some c =>
    rw [eq_addr_of_csrAt hc] at h ⊢
    exact exec_csrw_of_refused hp c (writeCsr_of_not_writable (fun hmem => h (List.mem_map_of_mem hmem)) v s) rfl

theorem u32_toNat (v : Word) : u32 v.toNat = v := by rw [u32, BitVec.ofNat_toNat, BitVec.setWidth_eq]

/-- Settles O23: on port P the clauses are the cases of `writeCsr`. -/
theorem csrWrites : Obligations.CsrWrites := by
  refine ⟨fun addr v => producerCommand_of_onProducer rfl fun _ => ⟨_, rfl⟩, fun s v hp =>
    ⟨fun hbad => ?_, fun hlo hhi hlive => ?_, fun hlo hhi hlive => ?_, fun hbad => ⟨?_, ?_⟩, fun hhi => ⟨?_, ?_⟩, ?_, ?_,
      fun hv => ?_, fun hv => ?_, fun addr haddr => exec_csrw_of_not_mem_writable hp haddr v⟩⟩
  · exact exec_csrw_of_refused hp .rplMaxref (if_pos hbad) rfl
  · exact exec_csrw_of_refused hp .rplMaxref
      ((if_neg (not_or.2 ⟨hlo.not_gt, hhi.not_gt⟩)).trans (if_pos hlive)) rfl
  · exact exec_csrw_of_written hp .rplMaxref
      ((if_neg (not_or.2 ⟨hlo.not_gt, hhi.not_gt⟩)).trans (if_neg hlive.not_gt)) (u32_toNat v)
  · exact exec_csrw_of_refused hp .rplMaxl0 (if_pos hbad) rfl
  · exact exec_csrw_of_refused hp .rplMaxl1 (if_pos hbad) rfl
  · exact exec_csrw_of_written hp .rplMaxl0 (if_neg hhi.not_gt) (u32_toNat v)
  · exact exec_csrw_of_written hp .rplMaxl1 (if_neg hhi.not_gt) (u32_toNat v)
  · exact exec_csrw_of_written hp .ropKeyper rfl rfl
  · exact exec_csrw_of_written hp .ropIntraper rfl rfl
  · exact exec_csrw_of_refused hp .ropNumb (if_pos hv) rfl
  · exact exec_csrw_of_written hp .ropNumb (if_neg (not_not_intro hv)) rfl

end Sys2Proof.Machine
end

section
/-! PROOFS. How commands fail (60_exceptions R275, R286): the ways a command can end, once for all commands; which of them are
failures, and what a failure leaves. -/

namespace Sys2Proof.Machine

/-! ### What a port has received after an ending -/

/-- The issuing port has received the response of `done`. -/
theorem responses_done (s : State) (st : Status) (r0 r1 r2 r3 : Word) :
    (s.done st r0 r1 r2 r3).responses s.port = s.responses s.port ++ [⟨st, r0, r1, r2, r3⟩] := by
  cases hp : s.port <;> simp [State.responses, hp]

/-- A command that fails answers its status and four zero words. -/
theorem answersWith_fail (s : State) (st : Status) : AnswersWith s (s.fail st) ⟨st, 0#32, 0#32, 0#32, 0#32⟩ :=
  responses_done s st _ _ _ _

theorem AnswersWith.unique {s t : State} {r r' : Response} (h : AnswersWith s t r) (h' : AnswersWith s t r') : r = r' :=
  List.singleton_inj.1 (List.append_cancel_left (h.symm.trans h'))

/-! ### The ways a command can end -/

/-- The ways command `i`, executed in `s`, can end: with a non-failure, whatever else it changed; with a plain failure, which
is `E_PORT` only on a port that may not issue `i`; as a `DPB_ADD` that found no room (42_dpb R169); as an `OUTQ_WAIT` that is
held (44_reorder_output R222). -/
inductive Ends (i : Instr) (s : State) : State → Prop where
  | succeeds {u : State} {st : Status} {r0 r1 r2 r3 : Word} (hst : st.isFailure = false) (hport : u.port = s.port)
      (hresp : u.responses s.port = s.responses s.port) : Ends i s (u.done st r0 r1 r2 r3)
  | fails {st : Status} (hst : st.isFailure = true) (hport : st = .ePort → permitted i s.port = false) :
      Ends i s (s.fail st)
  | exhausted {l outs : List Picture} (hadd : ∃ f surf poc n, i = .dpbAdd f surf poc n) :
      Ends i s ((s.putDpb l outs).fail .eDpbExhausted)
  | held (hwait : i = .outqWait) : Ends i s { s with cWait := true }

namespace Ends

variable {i : Instr} {s a b : State}

theorem ite {c : Prop} [Decidable c] (ha : Ends i s a) (hb : Ends i s b) : Ends i s (if c then a else b) := by
  split
  · exact ha
  · exact hb

/-- The producer's port test: port C fails with `E_PORT`. -/
theorem onProducer (hperm : permitted i .C = false) (h : s.port = .P → Ends i s a) : Ends i s (onProducer s a) := by
  cases hp : s.port with
  | P => rw [onProducer_of_P hp]; exact h hp
  | C => rw [onProducer_of_C hp]; exact fails rfl fun _ => hp ▸ hperm

/-- The consumer's port test: port P fails with `E_PORT`. -/
theorem onConsumer (hperm : permitted i .P = false) (h : Ends i s a) : Ends i s (onConsumer s a) := by
  cases hp : s.port with
  | P => rw [onConsumer_of_P hp]; exact fails rfl fun _ => hp ▸ hperm
  | C => rw [onConsumer_of_C hp]; exact h

/-- The checks of a flags byte: two refusals besides `E_PORT` (R280). -/
theorem withFlags {f : Byte} {body : PicType → State} (hperm : permitted i .C = false) (h : ∀ t, Ends i s (body t)) :
    Ends i s (withFlags f s body) := by
  refine ite (fails rfl nofun) (onProducer hperm fun _ => ?_)
  split
  · exact fails rfl nofun
  · exact h _

/-- The DPB's opening: the port, then `E_NOT_INIT`. -/
theorem onDpb (hperm : permitted i .C = false) (h : Ends i s a) : Ends i s (onDpb s a) :=
  onProducer hperm fun _ => ite (fails rfl nofun) h

/-- A failing answer comes from a failure without side effects, or from a `DPB_ADD` that found no room. -/
theorem of_failure {t : State} {r : Response} (h : Ends i s t) (hans : AnswersWith s t r)
    (hfail : r.status.isFailure = true) :
    r = ⟨r.status, 0#32, 0#32, 0#32, 0#32⟩ ∧
    (t = failed s r.status ∧ (r.status = .ePort → permitted i s.port = false) ∨
      (∃ f surf poc n, i = .dpbAdd f surf poc n) ∧ r.status = .eDpbExhausted ∧
        ∃ l outs, t = failed { s with slots := l, picout := s.picout ++ outs } .eDpbExhausted) := by
  cases h with
  | @succeeds u st r0 r1 r2 r3 hst hport hresp =>
    have hdone : AnswersWith s (u.done st r0 r1 r2 r3) ⟨st, r0, r1, r2, r3⟩ := by
      rw [AnswersWith, ← hresp, ← hport]
      exact responses_done u st r0 r1 r2 r3
    rw [hans.unique hdone, hst] at hfail
    cases hfail
  | fails hst hport =>
    obtain rfl := hans.unique (answersWith_fail s _)
    exact ⟨rfl, .inl ⟨fail_eq_failed _ _ hst, hport⟩⟩
  | @exhausted l outs hadd =>
    obtain rfl := hans.unique (answersWith_fail (s.putDpb l outs) .eDpbExhausted)
    exact ⟨rfl, .inr ⟨hadd, rfl, l, outs, fail_eq_failed _ _ rfl⟩⟩
  | held => cases List.self_eq_append_right.1 hans

end Ends

/-! ### The operations that commands share -/

section

variable {i : Instr} {s : State}

theorem putField_ends (n v : Nat) : Ends i s (putField n v s) :=
  .ite (.fails rfl nofun) (.ite (.fails rfl nofun) (.succeeds rfl rfl rfl))

theorem loadChecked_ends (b : List Byte) : Ends i s (loadChecked b s) :=
  .ite (.fails rfl nofun) (.succeeds rfl rfl rfl)

theorem getCode_ends (result : Nat → Word) : Ends i s (getCode result s) := by
  unfold getCode
  split
  · exact .fails rfl nofun
  · exact .fails rfl nofun
  · exact .succeeds rfl rfl rfl

theorem answerFront_ends {u : State} (hport : u.port = s.port) (hresp : u.responses s.port = s.responses s.port) :
    Ends i s (answerFront u) := by
  unfold answerFront
  split
  · exact .succeeds rfl hport hresp
  · exact .succeeds rfl hport hresp

theorem writeCsr_ends (c : Csr) (v : Word) : Ends i s (writeCsr c v s) := by
  by_cases hc : c ∈ Csr.writable
  · fin_cases hc
    · exact .ite (.fails rfl nofun) (.ite (.fails rfl nofun) (.succeeds rfl rfl rfl))
    · exact .ite (.fails rfl nofun) (.succeeds rfl rfl rfl)
    · exact .ite (.fails rfl nofun) (.succeeds rfl rfl rfl)
    · exact .succeeds rfl rfl rfl
    · exact .succeeds rfl rfl rfl
    · exact .ite (.fails rfl nofun) (.succeeds rfl rfl rfl)
  · exact writeCsr_of_not_writable hc v s ▸ .fails rfl nofun

/-- On port P an `SRESET` keeps the responses of port P, whether or not it ends a wait of port C (log 21). -/
theorem sreset_ends (hp : s.port = .P) : Ends i s ((cancelWait s.cWait (resetItems s)).done .stOk) := by
  refine .succeeds rfl ?_ ?_ <;> cases s.cWait <;> simp [cancelWait, resetItems, State.responses, hp]

theorem addTwoSlot_ends (inc : Picture) : Ends i s (addTwoSlot inc s) := by
  refine .ite ?_ (.succeeds rfl rfl rfl)
  split
  · exact .succeeds rfl rfl rfl
  · exact .succeeds rfl rfl rfl

theorem addReference_ends (hadd : ∃ f surf poc n, i = .dpbAdd f surf poc n) (inc : Picture) :
    Ends i s (addReference inc s) := by
  simp only [addReference]
  split
  · exact .succeeds rfl rfl rfl
  · exact .exhausted hadd

theorem addNonReference_ends (hadd : ∃ f surf poc n, i = .dpbAdd f surf poc n) (inc : Picture) :
    Ends i s (addNonReference inc s) := by
  refine .ite (.succeeds rfl rfl rfl) ?_
  split
  · exact .succeeds rfl rfl rfl
  · exact .succeeds rfl rfl rfl
  · exact .exhausted hadd

end

/-! ### Every command -/

/-- Every command ends in one of the ways of `Ends`. -/
theorem exec_ends (i : Instr) (s : State) : ∃ t, exec i s = .next t ∧ Ends i s t := by
  cases i with
  | nop => exact ⟨_, rfl, .succeeds rfl rfl rfl⟩
  | sreset => exact ⟨_, rfl, .onProducer rfl sreset_ends⟩
  | csrr addr =>
    refine ⟨_, rfl, ?_⟩
    split
    · exact .fails rfl nofun
    · exact .succeeds rfl rfl rfl
  | csrw addr value =>
    refine ⟨_, rfl, .onProducer rfl fun _ => ?_⟩
    split
    · exact .fails rfl nofun
    · exact writeCsr_ends _ _
  | bswClear => exact ⟨_, rfl, .onProducer rfl fun _ => .succeeds rfl rfl rfl⟩
  | putBits width value =>
    exact ⟨_, rfl, .onProducer rfl fun _ => .ite (.fails rfl nofun) (.ite (.fails rfl nofun) (putField_ends _ _))⟩
  | putUe value => exact ⟨_, rfl, .onProducer rfl fun _ => .ite (.fails rfl nofun) (putField_ends _ _)⟩
  | putSe value => exact ⟨_, rfl, .onProducer rfl fun _ => .ite (.fails rfl nofun) (putField_ends _ _)⟩
  | align fill => exact ⟨_, rfl, .onProducer rfl fun _ => putField_ends _ _⟩
  | nalHdr refIdc unitType => exact ⟨_, rfl, .onProducer rfl fun _ => putField_ends _ _⟩
  | rbspTrail => exact ⟨_, rfl, .onProducer rfl fun _ => putField_ends _ _⟩
  | emitRaw limit =>
    exact ⟨_, rfl, .onProducer rfl fun _ => .ite (.fails rfl nofun) (.ite (.fails rfl nofun) (.succeeds rfl rfl rfl))⟩
  | emitEpb limit =>
    exact ⟨_, rfl, .onProducer rfl fun _ => .ite (.ite (.fails rfl nofun) (.succeeds rfl rfl rfl))
      (.ite (.fails rfl nofun) (.ite (.fails rfl nofun) (.succeeds rfl rfl rfl)))⟩
  | bsrClear => exact ⟨_, rfl, .onProducer rfl fun _ => .succeeds rfl rfl rfl⟩
  | bsrPush byte => exact ⟨_, rfl, .onProducer rfl fun _ => .ite (.fails rfl nofun) (.succeeds rfl rfl rfl)⟩
  | bsrLoad src =>
    exact ⟨_, rfl, .onProducer rfl fun _ => .ite (.ite (loadChecked_ends _) (.fails rfl nofun))
      (.ite (.fails rfl nofun) (loadChecked_ends _))⟩
  | bsrUnesc => exact ⟨_, rfl, .onProducer rfl fun _ => .ite (.fails rfl nofun) (.succeeds rfl rfl rfl)⟩
  | getBits width =>
    exact ⟨_, rfl, .onProducer rfl fun _ => .ite (.fails rfl nofun) (.ite (.fails rfl nofun) (.succeeds rfl rfl rfl))⟩
  | getUe => exact ⟨_, rfl, .onProducer rfl fun _ => getCode_ends _⟩
  | getSe => exact ⟨_, rfl, .onProducer rfl fun _ => getCode_ends _⟩
  | dpbInit cap => exact ⟨_, rfl, .onProducer rfl fun _ => .ite (.fails rfl nofun) (.succeeds rfl rfl rfl)⟩
  | dpbAdd flags surf poc frameNum =>
    exact ⟨_, rfl, .withFlags rfl fun _ => .ite (.fails rfl nofun) (.ite (.fails rfl nofun)
      (.ite (addTwoSlot_ends _) (.ite (addReference_ends ⟨_, _, _, _, rfl⟩ _) (addNonReference_ends ⟨_, _, _, _, rfl⟩ _))))⟩
  | dpbBump =>
    refine ⟨_, rfl, .onDpb rfl ?_⟩
    split
    · exact .succeeds rfl rfl rfl
    · exact .succeeds rfl rfl rfl
  | dpbFlush => exact ⟨_, rfl, .onDpb rfl (.succeeds rfl rfl rfl)⟩
  | dpbOldest want =>
    refine ⟨_, rfl, .onDpb rfl ?_⟩
    split
    · exact .succeeds rfl rfl rfl
    · exact .succeeds rfl rfl rfl
  | dpbNeigh poc => exact ⟨_, rfl, .onDpb rfl (.succeeds rfl rfl rfl)⟩
  | rplUpdate flags surf poc frameNum =>
    exact ⟨_, rfl, .withFlags rfl fun _ => .ite (.fails rfl nofun)
      (.ite (.succeeds rfl rfl rfl) (.succeeds rfl rfl rfl))⟩
  | rplInit flags => exact ⟨_, rfl, .withFlags rfl fun _ => .ite (.fails rfl nofun) (.succeeds rfl rfl rfl)⟩
  | rplRead which index =>
    refine ⟨_, rfl, .onProducer rfl fun _ => ?_⟩
    split
    · exact .fails rfl nofun
    · exact .succeeds rfl rfl rfl
  | ropEnq force surf =>
    refine ⟨_, rfl, .onProducer rfl fun _ => .ite (.fails rfl nofun) ?_⟩
    simp only [restartGop_eq]
    exact .succeeds rfl rfl rfl
  | ropSubmit =>
    refine ⟨_, rfl, .onProducer rfl fun _ => ?_⟩
    split
    · exact .succeeds rfl rfl rfl
    · exact .succeeds rfl rfl rfl
    · exact .succeeds rfl rfl rfl
  | outqPush flags surf poc frameNum buf =>
    exact ⟨_, rfl, .withFlags rfl fun _ => .ite (.fails rfl nofun) (.succeeds rfl rfl rfl)⟩
  | outqPeek => exact ⟨_, rfl, answerFront_ends rfl rfl⟩
  | outqPop =>
    refine ⟨_, rfl, ?_⟩
    split
    · exact .succeeds rfl rfl rfl
    · exact .succeeds rfl rfl rfl
  | outqWait => exact ⟨_, rfl, .onConsumer rfl (.ite (.held rfl) (answerFront_ends rfl rfl))⟩

theorem ends_of_exec {i : Instr} {s t : State} (h : exec i s = .next t) : Ends i s t := by
  obtain ⟨u, hu, hends⟩ := exec_ends i s
  obtain rfl : u = t := Host.Outcome.next.inj (hu.symm.trans h)
  exact hends

/-- Settles O15: the failures among the ways a command can end. -/
theorem failureChangesNothingElse : Obligations.FailureChangesNothingElse := by
  intro i s t r hexec hans hfail
  obtain ⟨hr, hcases⟩ := (ends_of_exec hexec).of_failure hans hfail
  exact ⟨hr, hcases.imp_left And.left⟩

/-! ### Ports (R286) -/

/-- A command on a port that may not issue it fails with `E_PORT`, once the reserved bits of its flags byte are clear. -/
theorem exec_of_not_permitted {i : Instr} {s : State} (hwf : i.wf = true) (hperm : permitted i s.port = false) :
    exec i s = .next (failed s .ePort) := by
  cases hp : s.port with
  | P =>
    rw [hp] at hperm
    -- only `OUTQ_WAIT` is not the producer's
    cases i
    case outqWait => rw [exec, execOutqWait, onConsumer_of_P hp, fail_eq_failed _ _ rfl]
    all_goals cases hperm
  | C =>
    rw [hp] at hperm
    cases i
    case nop | csrr | outqPeek | outqPop | outqWait => cases hperm
    case dpbAdd | rplUpdate | rplInit | outqPush =>
      exact (producerCommand_of_withFlags rfl rfl fun _ => ⟨_, rfl⟩).2 hwf s hp
    all_goals exact (producerCommand_of_onProducer rfl fun _ => ⟨_, rfl⟩).2 hwf s hp

/-- The packet of an unassigned opcode is rejected. -/
theorem runPacket_of_unassigned {w0 : Word} (hop : opOf w0 ∉ assignedOpcodes) (s : State) :
    runPacket [w0] s = .next (failed s .eIllegal) := by
  have hdec : decode [w0] = .error (.unassigned (opOf w0)) := by
    rw [decode_cons_of_le (packetLen_of_unassigned _ hop).le, decodeFields_of_unassigned hop]
  rw [runPacket, hdec, ← rejectPacket_eq_failed]

/-- Settles O13: a command that ends with `E_PORT` is on a port that may not issue it. -/
theorem portPermissions : Obligations.PortPermissions := by
  refine ⟨fun i s hwf => ⟨exec_of_not_permitted hwf, fun hperm t r hexec hans hport => ?_⟩,
    fun w0 s hop => runPacket_of_unassigned hop s⟩
  obtain ⟨-, ⟨-, hrefused⟩ | ⟨-, hst, -⟩⟩ := (ends_of_exec hexec).of_failure hans (by rw [hport]; rfl)
  · exact absurd hperm (by rw [hrefused hport]; decide)
  · rw [hport] at hst
    cases hst

end Sys2Proof.Machine
end

section
/-! PROOFS. The reset state (70_reset_and_hazards R300, R301): the hardware reset and `SRESET` leave every state item at its
reset value; the second keeps the output logs. -/

namespace Sys2Proof.Machine

/-! ### What leaves a state at reset -/

/-- A port that has been made idle has no packet partly received: what executes next on it is what did before. -/
theorem noPartialPacket_dropPartial (ws : List Word) : NoPartialPacket (dropPartial ws) := fun h =>
  dropPartial_of_none ((takePacket_dropPartial ws).symm.trans h)

/-- `SRESET` gives every item of the table of R300 its value there, from any state. -/
theorem atReset_resetItems (s : State) : AtReset (resetItems s) :=
  ⟨⟨fun _ => rfl, rfl⟩, ⟨rfl, fun _ => rfl, rfl⟩, ⟨fun _ => rfl, rfl, rfl⟩, ⟨rfl, rfl, rfl⟩, ⟨rfl, rfl, rfl⟩, ⟨rfl, rfl, rfl⟩,
    ⟨rfl, rfl⟩, ⟨rfl, rfl⟩, ⟨rfl, rfl, rfl, rfl⟩, ⟨rfl, rfl, rfl⟩, noPartialPacket_dropPartial _, noPartialPacket_dropPartial _⟩

/-- Right after the hardware reset an `SRESET` has no item left to reset. -/
theorem resetItems_resetWith (p : Params) : resetItems (State.resetWith p) = State.resetWith p := rfl

theorem atReset_resetWith (p : Params) : AtReset (State.resetWith p) :=
  resetItems_resetWith p ▸ atReset_resetItems (State.resetWith p)

/-- A response to a host is no state item. -/
theorem AtReset.respond {s : State} (h : AtReset s) (p : Port) (r : Response) : AtReset (s.respond p r) := h

/-- Ending a held wait only responds to port C. -/
theorem AtReset.cancelWait {s : State} (h : AtReset s) (held : Bool) : AtReset (cancelWait held s) := by
  cases held with
  | false => exact h
  | true => exact h.respond .C _

/-- Ending with a non-failure only responds: it sets no bit of `errlog`. -/
theorem AtReset.done {s : State} (h : AtReset s) {st : Status} (hst : st.isFailure = false) (r0 r1 r2 r3 : Word) :
    AtReset (s.done st r0 r1 r2 r3) := by
  rw [done_eq_answered s st r0 r1 r2 r3 hst, answered]
  split
  · exact h
  · exact h

/-! ### `SRESET` (R236, R301) -/

@[simp] theorem cancelWait_picout (held : Bool) (s : State) : (cancelWait held s).picout = s.picout := by cases held <;> rfl

@[simp] theorem cancelWait_byteout (held : Bool) (s : State) : (cancelWait held s).byteout = s.byteout := by
  cases held <;> rfl

@[simp] theorem resetItems_picout (s : State) : (resetItems s).picout = s.picout := rfl

@[simp] theorem resetItems_byteout (s : State) : (resetItems s).byteout = s.byteout := rfl

/-- `SRESET` on port P: the items are reset, a held wait of port C ends, and the command succeeds. -/
theorem exec_sreset_of_P {s : State} (hp : s.port = .P) :
    exec .sreset s = .next ((cancelWait s.cWait (resetItems s)).done .stOk) := by
  rw [exec, execSreset, onProducer_of_P hp]

/-- Settles O18: the items `SRESET` resets are those of R300, and what it does after that changes none of them. -/
theorem resetState : Obligations.ResetState := by
  refine ⟨fun p => ⟨atReset_resetWith p, rfl, rfl, rfl, rfl, rfl, rfl, rfl⟩,
    fun s hp => ⟨_, exec_sreset_of_P hp, ?_, by simp, by simp⟩⟩
  exact ((atReset_resetItems s).cancelWait s.cWait).done rfl _ _ _ _

end Sys2Proof.Machine
end

section
/-! PROOFS. Encoding and decoding (30_encoding): the packet of a command decodes to it, a packet the decoder accepts is that of
the command it gives, and the decoder agrees with the opcode table. -/

namespace Sys2Proof

/-! ### From a command to its packet and back -/

open Laws.PacketLength in
/-- Every packet is as long as its first word announces. -/
theorem packetLen_encode : ∀ i : Instr, Statement i
  | .nop => nop | .sreset => sreset | .csrr a => csrr a | .csrw a v => csrw a v
  | .bswClear => bswClear | .putBits n v => putBits n v | .putUe v => putUe v | .putSe v => putSe v
  | .align b => align b | .nalHdr r u => nalHdr r u | .rbspTrail => rbspTrail
  | .emitRaw l => emitRaw l | .emitEpb l => emitEpb l
  | .bsrClear => bsrClear | .bsrPush b => bsrPush b | .bsrLoad b => bsrLoad b | .bsrUnesc => bsrUnesc
  | .getBits n => getBits n | .getUe => getUe | .getSe => getSe
  | .dpbInit c => dpbInit c | .dpbAdd f s p n => dpbAdd f s p n | .dpbBump => dpbBump | .dpbFlush => dpbFlush
  | .dpbOldest b => dpbOldest b | .dpbNeigh p => dpbNeigh p
  | .rplUpdate f s p n => rplUpdate f s p n | .rplInit f => rplInit f | .rplRead w i => rplRead w i
  | .ropEnq b s => ropEnq b s | .ropSubmit => ropSubmit | .outqPush f s p n b => outqPush f s p n b
  | .outqPeek => outqPeek | .outqPop => outqPop | .outqWait => outqWait

/-- The packet of a command is cut off whole from what follows it (R81). -/
theorem takePacket_encode (i : Instr) (rest : List Word) : takePacket (encode i ++ rest) = some (encode i, rest) := by
  obtain ⟨w0, ps, henc, hlen⟩ := packetLen_encode i
  rw [henc] at hlen ⊢
  exact takePacket_append hlen rest

/-- A packet whose command word is `word0 op f h` decodes by these three fields and what follows the word. -/
theorem decode_word0 {op : Byte} {ps : List Word} (hlen : packetLen op ≤ ps.length + 1) (f : Byte) (h : Half) :
    decode (word0 op f h :: ps) = decodeFields op f h (ps.getD 0 0#32) (ps.getD 1 0#32) (ps.getD 2 0#32) := by
  rw [decode_cons_of_le (by rwa [opOf_word0]), opOf_word0, fOf_word0, hOf_word0]

theorem checked_of_true {mnemonic : String} {clear : Bool} (h : clear = true) (i : Instr) :
    checked mnemonic clear i = .ok i := by
  rw [checked, if_pos h]

theorem checked_eq_ok_iff {mnemonic : String} {clear : Bool} {i j : Instr} :
    checked mnemonic clear i = .ok j ↔ clear = true ∧ i = j := by
  cases clear <;> simp [checked]

/-! ### The short operands narrower than a byte -/

theorem decodeFields_align (b : Bool) (w1 w2 w3 : Word) :
    decodeFields 0x14 (bitOperand b) 0 w1 w2 w3 = .ok (.align b) := by cases b <;> rfl

theorem decodeFields_bsrLoad (b : Bool) (w1 w2 w3 : Word) :
    decodeFields 0x22 (bitOperand b) 0 w1 w2 w3 = .ok (.bsrLoad b) := by cases b <;> rfl

theorem decodeFields_dpbOldest (b : Bool) (w1 w2 w3 : Word) :
    decodeFields 0x44 (bitOperand b) 0 w1 w2 w3 = .ok (.dpbOldest b) := by cases b <;> rfl

theorem decodeFields_ropEnq (b : Bool) (h : Half) (w1 w2 w3 : Word) :
    decodeFields 0x60 (bitOperand b) h w1 w2 w3 = .ok (.ropEnq b h) := by cases b <;> rfl

/-- The byte of `refIdc` and `unitType`, field by field. -/
theorem nalHdr_operand_fields : ∀ (r : BitVec 2) (u : BitVec 5),
    ((0#1 ++ r ++ u : Byte).extractLsb' 7 1 == 0#1) = true ∧
    (0#1 ++ r ++ u : Byte).extractLsb' 5 2 = r ∧ (0#1 ++ r ++ u : Byte).extractLsb' 0 5 = u := by decide

theorem decodeFields_nalHdr (r : BitVec 2) (u : BitVec 5) (w1 w2 w3 : Word) :
    decodeFields 0x15 (0#1 ++ r ++ u) 0 w1 w2 w3 = .ok (.nalHdr r u) := by
  obtain ⟨hclear, hr, hu⟩ := nalHdr_operand_fields r u
  refine (checked_of_true ?_ _).trans ?_
  · simpa using hclear
  · rw [hr, hu]

theorem rplRead_operand_fields : ∀ w : BitVec 2,
    ((0#6 ++ w : Byte).extractLsb' 2 6 == 0#6) = true ∧ (0#6 ++ w : Byte).extractLsb' 0 2 = w := by decide

theorem decodeFields_rplRead (w : BitVec 2) (h : Half) (w1 w2 w3 : Word) :
    decodeFields 0x52 (0#6 ++ w) h w1 w2 w3 = .ok (.rplRead w h) := by
  obtain ⟨hclear, hw⟩ := rplRead_operand_fields w
  exact (checked_of_true hclear _).trans (by rw [hw])

/-- The `frame_num` word of a picture's operands passes the check of its reserved bits and gives `frame_num` back (R83). -/
theorem checked_frameNumWord {f : Byte} (hf : flagsReservedClear f = true) (mnemonic : String) (n : Half) (i : Half → Instr) :
    checked mnemonic (flagsReservedClear f && frameNumReservedClear (frameNumWord n)) (i (frameNumOf (frameNumWord n))) =
      .ok (i n) := by
  rw [checked_of_true (by simp [hf]), frameNumOf_frameNumWord]

/-- A well-formed command's packet decodes to it, whatever follows. -/
theorem decode_encode {i : Instr} (hwf : i.wf = true) (rest : List Word) : decode (encode i ++ rest) = .ok i := by
  obtain ⟨w0, ps, henc, hlen⟩ := packetLen_encode i
  have hle : packetLen (opOf w0) ≤ (ps ++ rest).length + 1 := by
    rw [hlen, henc, List.length_append, List.length_cons]
    omega
  rw [henc, List.cons_append, decode_cons_of_le hle]
  cases i <;> cases henc <;> rw [opOf_word0, fOf_word0, hOf_word0]
  case align b => exact decodeFields_align b _ _ _
  case nalHdr r u => exact decodeFields_nalHdr r u _ _ _
  case bsrLoad b => exact decodeFields_bsrLoad b _ _ _
  case dpbOldest b => exact decodeFields_dpbOldest b _ _ _
  case rplRead w h => exact decodeFields_rplRead w h _ _ _
  case ropEnq b h => exact decodeFields_ropEnq b h _ _ _
  case dpbAdd f h poc n => exact checked_frameNumWord hwf _ n (.dpbAdd f h poc)
  case rplUpdate f h poc n => exact checked_frameNumWord hwf _ n (.rplUpdate f h poc)
  case outqPush f h poc n buf => exact checked_frameNumWord hwf _ n (.outqPush f h poc · buf)
  case rplInit f => exact checked_of_true (by simpa [Instr.wf] using hwf) _
  all_goals rfl

/-- Settles O1: the packet is cut off by its length, and decodes to its command. -/
theorem encodeThenDecodeGivesTheCommand : Obligations.EncodeThenDecodeGivesTheCommand := fun i rest hwf =>
  ⟨decode_encode hwf rest, takePacket_encode i rest⟩

/-! ### From an accepted packet to its command and back -/

/-- Bits 7:1 of an operand byte being 0, it is that of its bit 0. -/
theorem bitOperand_of_reserved : ∀ f : Byte, f.extractLsb' 1 7 = 0#7 → bitOperand f[0] = f := by decide

theorem nalHdr_operand_of_reserved : ∀ f : Byte, f.extractLsb' 7 1 = 0#1 →
    0#1 ++ f.extractLsb' 5 2 ++ f.extractLsb' 0 5 = f := by decide

theorem rplRead_operand_of_reserved : ∀ f : Byte, f.extractLsb' 2 6 = 0#6 → 0#6 ++ f.extractLsb' 0 2 = f := by decide

/-- What the decoder accepts by its fields is well formed, and those fields are its packet. -/
theorem encode_of_decodeFields {op f : Byte} {h : Half} {w1 w2 w3 : Word} {i : Instr}
    (hdec : decodeFields op f h w1 w2 w3 = .ok i) :
    i.wf = true ∧ encode i = (word0 op f h :: [w1, w2, w3]).take (packetLen op) := by
  unfold decodeFields at hdec
  split at hdec
  case h_36 => cases hdec
  -- Arm by arm the reserved bits are 0, so the operands the command keeps make up the fields again.
  all_goals
    obtain ⟨hclear, rfl⟩ := checked_eq_ok_iff.1 hdec
    simp only [Bool.and_eq_true, beq_iff_eq] at hclear
    simp [encode, Instr.wf, packetLen, hclear, bitOperand_of_reserved, nalHdr_operand_of_reserved,
      rplRead_operand_of_reserved, frameNumWord_frameNumOf]

/-- Words that are all there are read as they stand. -/
theorem take_getD_eq_take {ws : List Word} {n : Nat} (hn : n ≤ 3) (hle : n ≤ ws.length) :
    [ws.getD 0 0#32, ws.getD 1 0#32, ws.getD 2 0#32].take n = ws.take n := by
  refine List.ext_getElem? fun k => ?_
  rw [List.getElem?_take, List.getElem?_take]
  split_ifs with hk
  · have hget : ∀ j, j < n → some (ws.getD j 0#32) = ws[j]? := fun j hj => by
      rw [List.getD_eq_getElem _ _ (hj.trans_le hle), List.getElem?_eq_getElem]
    rw [← hget k hk]
    obtain rfl | rfl | rfl : k = 0 ∨ k = 1 ∨ k = 2 := by omega
    all_goals rfl
  · rfl

/-- A packet has one to four words (R80). -/
theorem packetLen_bounds : ∀ op : Byte, 1 ≤ packetLen op ∧ packetLen op ≤ 4 := by decide

/-- What the decoder accepts has all the words its first one announces. -/
theorem packetLen_le_of_decode {w0 : Word} {ps : List Word} {i : Instr} (hdec : decode (w0 :: ps) = .ok i) :
    packetLen (opOf w0) ≤ ps.length + 1 := by
  by_contra hlen
  rw [decode, if_pos (by omega)] at hdec
  cases hdec

/-- An accepted packet is that of a well-formed command. -/
theorem eq_encode_of_decode {ws : List Word} {i : Instr} (hdec : decode ws = .ok i) :
    i.wf = true ∧ ws = encode i ++ ws.drop (encode i).length := by
  cases ws with
  | nil => cases hdec
  | cons w0 ps =>
    have hle := packetLen_le_of_decode hdec
    obtain ⟨hpos, hfour⟩ := packetLen_bounds (opOf w0)
    rw [decode_cons_of_le hle] at hdec
    obtain ⟨hwf, henc⟩ := encode_of_decodeFields hdec
    obtain ⟨n, hn⟩ : ∃ n, packetLen (opOf w0) = n + 1 := ⟨packetLen (opOf w0) - 1, by omega⟩
    rw [word0_fields, hn, List.take_succ_cons, take_getD_eq_take (by omega) (by omega), ← List.take_succ_cons] at henc
    have hlen : (encode i).length = n + 1 := by simp [henc]; omega
    rw [hlen, henc, List.take_append_drop]
    exact ⟨hwf, rfl⟩

/-- Settles O2: the fields of an accepted packet are those of the command's encoding, and its words are all there. -/
theorem acceptedPacketIsTheEncoding : Obligations.AcceptedPacketIsTheEncoding := fun _ _ hdec =>
  have ⟨hwf, hws⟩ := eq_encode_of_decode hdec
  ⟨hwf, _, hws⟩

/-! ### The opcode table (R86) -/

/-- Every assigned opcode has a row. -/
theorem exists_row_of_assigned : ∀ op ∈ Machine.assignedOpcodes, ∃ r ∈ opcodeTable, opOf r.pattern = op := by decide

/-- No opcode has two rows. -/
theorem opcodeTable_opcodes_nodup : (opcodeTable.map fun r => opOf r.pattern).Nodup := by decide

/-- A word that fits a row has its opcode. -/
theorem opOf_eq_of_fits {r : OpRow} (hr : r ∈ opcodeTable) {w0 : Word} (hfit : r.fits w0 = true) :
    opOf w0 = opOf r.pattern := by
  obtain ⟨-, hmask, -⟩ := opcodeTable_rows r hr
  rw [OpRow.fits, beq_iff_eq] at hfit
  rw [← hfit, opOf_and, hmask]
  exact BitVec.and_allOnes.symm

/-- The row's reserved bits are clear when word 0 fits it and the `frame_num` word's are. -/
theorem reservedClear_of_fits {r : OpRow} (hr : r ∈ opcodeTable) {w0 w2 : Word} (hfit : r.fits w0 = true)
    (hw2 : frameNumReservedClear w2 = true) : r.reservedClear (fOf w0) (hOf w0) w2 = true := by
  obtain ⟨hf, hh⟩ := (fits_iff_of_opOf_eq hr (opOf_eq_of_fits hr hfit)).1 hfit
  simp [OpRow.reservedClear, hf, hh, hw2]

/-- The command of a row's opcode has the row's name. -/
theorem mnemonicOf_of_decodeFields {r : OpRow} (hr : r ∈ opcodeTable) {f : Byte} {h : Half} {w1 w2 w3 : Word} {i : Instr}
    (hdec : decodeFields (opOf r.pattern) f h w1 w2 w3 = .ok i) : Machine.mnemonicOf i = r.mnemonic := by
  fin_cases hr
  all_goals
    obtain ⟨-, rfl⟩ := checked_eq_ok_iff.1 hdec
    rfl

/-- A command word that starts a command fits a row. -/
theorem exists_fits_of_decode {w0 : Word} {ps : List Word} {i : Instr} (hdec : decode (w0 :: ps) = .ok i) :
    ∃ r ∈ opcodeTable, r.fits w0 = true := by
  rw [decode_cons_of_le (packetLen_le_of_decode hdec)] at hdec
  by_cases hop : opOf w0 ∈ Machine.assignedOpcodes
  · obtain ⟨r, hr, hrow⟩ := exists_row_of_assigned _ hop
    refine ⟨r, hr, ?_⟩
    by_contra hfit
    obtain ⟨j, hj⟩ := decodeFields_eq_checked hr (fOf w0) (hOf w0) (ps.getD 0 0#32) (ps.getD 1 0#32) (ps.getD 2 0#32)
    rw [← hrow, hj, reservedClear_eq_false hr hrow.symm (.inl (by simpa using hfit))] at hdec
    cases hdec
  · rw [decodeFields_of_unassigned hop] at hdec
    cases hdec

/-- A command word that fits a row starts a command: with zero payload words, say. -/
theorem exists_decode_of_fits {r : OpRow} (hr : r ∈ opcodeTable) {w0 : Word} (hfit : r.fits w0 = true) :
    ∃ ps i, decode (w0 :: ps) = .ok i := by
  have hle : packetLen (opOf w0) ≤ [0#32, 0#32, 0#32].length + 1 := (packetLen_bounds _).2
  obtain ⟨i, hi⟩ := decodeFields_eq_checked hr (fOf w0) (hOf w0) 0#32 0#32 0#32
  refine ⟨[0#32, 0#32, 0#32], i, (decode_cons_of_le hle).trans ?_⟩
  rw [opOf_eq_of_fits hr hfit]
  exact hi.trans (checked_of_true (reservedClear_of_fits hr hfit (by decide)) i)

/-- Settles O3: the decoder's checks are the masks of the rows, and no opcode has two of them. -/
theorem decoderAgreesWithOpcodeTable : Obligations.DecoderAgreesWithOpcodeTable := by
  refine fun w0 => ⟨⟨fun ⟨ps, i, hdec⟩ => exists_fits_of_decode hdec, fun ⟨r, hr, hfit⟩ => exists_decode_of_fits hr hfit⟩,
    fun r hr hfit => ?_⟩
  obtain ⟨-, -, hwords⟩ := opcodeTable_rows r hr
  have hop := opOf_eq_of_fits hr hfit
  refine ⟨by rw [hop, hwords], fun r' hr' hfit' => ?_, fun ps i hdec => ?_⟩
  · exact List.inj_on_of_nodup_map opcodeTable_opcodes_nodup hr' hr ((opOf_eq_of_fits hr' hfit').symm.trans hop)
  · rw [decode_cons_of_le (packetLen_le_of_decode hdec), hop] at hdec
    exact mnemonicOf_of_decodeFields hr hdec

/-- Settles O4: each packet's words are looked up in the map. -/
theorem examplePacketsDecode : Obligations.ExamplePacketsDecode := by
  unfold Obligations.ExamplePacketsDecode
  decide

end Sys2Proof

namespace Sys2Proof.Machine

/-! ### The flags byte and the picture words (R82, R85) -/

/-- The type field of a flags byte built from its parts. -/
theorem flagsByte_type_of_parts (t : PicType) : ∀ i k o r : Bool,
    (0#2 ++ t.code ++ BitVec.ofBool i ++ BitVec.ofBool k ++ BitVec.ofBool o ++ BitVec.ofBool r).extractLsb' 4 2 = t.code := by
  cases t <;> decide

/-- A legal flags byte that names a type is made of its own fields. -/
theorem flagsByte_of_fields (t : PicType) : ∀ f : Byte, f.extractLsb' 6 2 = 0#2 → flagsType f = some t →
    0#2 ++ t.code ++ BitVec.ofBool (flagsIdr f) ++ BitVec.ofBool (flagsSkip f) ++ BitVec.ofBool (flagsOut f) ++
      BitVec.ofBool (flagsRef f) = f := by
  cases t <;> decide

/-- The flags byte of the picture that a legal flags byte makes is that byte. -/
theorem flagsByte_pictureOf {f : Byte} (hf : f.extractLsb' 6 2 = 0#2) {t : PicType} (ht : flagsType f = some t)
    (surf : Half) (poc : Word) (n : Half) : flagsByte (pictureOf f t surf poc n) = f :=
  flagsByte_of_fields t f hf ht

/-- The byte above the flags byte of a picture word (R85). -/
theorem piwWith_top (sync eof : Bool) (p : Picture) :
    (piwWith sync eof p).extractLsb' 24 8 = 1#1 ++ 0#5 ++ BitVec.ofBool sync ++ BitVec.ofBool eof := by
  rw [piwWith, BitVec.extractLsb'_append_eq_of_le (by decide), BitVec.extractLsb'_append_eq_of_le (by decide)]
  exact BitVec.extractLsb'_eq_self

theorem piw_top_fields : ∀ sync eof : Bool,
    let top : Byte := 1#1 ++ 0#5 ++ BitVec.ofBool sync ++ BitVec.ofBool eof
    top.getLsbD 7 = true ∧ top.extractLsb' 2 5 = 0#5 ∧ top.getLsbD 1 = sync ∧ top.getLsbD 0 = eof := by decide

theorem piwWith_flags (sync eof : Bool) (p : Picture) : (piwWith sync eof p).extractLsb' 16 8 = flagsByte p := by
  rw [piwWith, BitVec.extractLsb'_append_eq_of_le (by decide)]
  exact BitVec.extractLsb'_append_eq_right

theorem piwWith_surf (sync eof : Bool) (p : Picture) : (piwWith sync eof p).extractLsb' 0 16 = p.surf :=
  BitVec.extractLsb'_append_eq_right

/-- The half above the surface of a list entry's word. -/
theorem refPiw_top (e : RefEntry) : (refPiw e).extractLsb' 16 16 = 0x8000#16 := BitVec.extractLsb'_append_eq_left

/-- A bit of a word, found in the field that holds it. -/
theorem getLsbD_eq_of_field {w : Word} {start len : Nat} {v : BitVec len} (h : w.extractLsb' start len = v) {i : Nat}
    (hi : i < len) : w.getLsbD (start + i) = v.getLsbD i := by
  rw [← h, BitVec.getLsbD_extractLsb']
  simp [hi]

/-- A field within a field. -/
theorem extractLsb'_eq_of_field {w : Word} {start len : Nat} {v : BitVec len} (h : w.extractLsb' start len = v) {a n : Nat}
    (hle : a + n ≤ len) : w.extractLsb' (start + a) n = v.extractLsb' a n := by
  apply BitVec.eq_of_getLsbD_eq
  intro i hi
  rw [BitVec.getLsbD_extractLsb', BitVec.getLsbD_extractLsb', Nat.add_assoc, getLsbD_eq_of_field h (by omega)]

/-- Settles O7: each field of the byte and of the words is one of the parts they are put together from. -/
theorem flagsByteAndPictureWord : Obligations.FlagsByteAndPictureWord := by
  refine ⟨fun p => ⟨flagsRef_flagsByte p, flagsOut_flagsByte p, flagsSkip_flagsByte p, flagsIdr_flagsByte p, ?_, ?_⟩,
    fun p sync eof => ?_, fun e => ⟨?_, ?_, BitVec.extractLsb'_append_eq_right⟩, fun f poc n surf hf h3 => ?_⟩
  · simpa [flagsIllegal] using flagsIllegal_flagsByte p
  · refine (flagsByte_type_of_parts p.type p.idr p.skip p.out p.ref).trans ?_
    cases p.type <;> rfl
  · have htop := piwWith_top sync eof p
    obtain ⟨hvalid, hzero, hsync, heof⟩ := piw_top_fields sync eof
    refine ⟨(getLsbD_eq_of_field htop (i := 7) (by decide)).trans hvalid,
      (extractLsb'_eq_of_field htop (a := 2) (by decide)).trans hzero,
      (getLsbD_eq_of_field htop (i := 1) (by decide)).trans hsync,
      (getLsbD_eq_of_field htop (i := 0) (by decide)).trans heof, piwWith_flags sync eof p, piwWith_surf sync eof p, rfl⟩
  · exact getLsbD_eq_of_field (refPiw_top e) (i := 15) (by decide)
  · exact extractLsb'_eq_of_field (refPiw_top e) (a := 0) (by decide)
  · cases ht : flagsType f with
    | none => exact absurd ((flagsType_eq_none_iff f).1 ht) h3
    | some t => exact ⟨pictureOf f t surf poc n, flagsByte_pictureOf hf ht surf poc n, rfl, rfl, rfl⟩

end Sys2Proof.Machine
end

section
/-! PROOFS. The emulation-prevention transforms (40_bitstream_writer section 3, 41_bitstream_reader section 3): they are the
loops of R122 and R148, the second undoes the first, and what the first inserts is no more than the room for it. -/

namespace Sys2Proof.Machine

/-! ### The loops, turn by turn (R122, R148) -/

theorem epbTurn_eq (acc : List Byte) (z : Nat) (b : Byte) :
    epbTurn (acc, z) b =
      if z = 2 ∧ b.toNat ≤ 3 then (acc ++ [0x03#8, b], nextZeros 0 b) else (acc ++ [b], nextZeros z b) := by
  unfold epbTurn
  split <;> simp [nextZeros]

theorem foldl_epbTurn (r acc : List Byte) (z : Nat) : (r.foldl epbTurn (acc, z)).1 = acc ++ escape z r := by
  induction r generalizing acc z with
  | nil => simp [escape]
  | cons b r ih =>
    rw [List.foldl_cons, epbTurn_eq, escape]
    split <;> simp [ih]

theorem unescTurn_eq (acc : List Byte) (z : Nat) (b : Byte) :
    unescTurn (acc, z) b = if z = 2 ∧ b = 0x03#8 then (acc, 0) else (acc ++ [b], nextZeros z b) := rfl

theorem foldl_unescTurn (e acc : List Byte) (z : Nat) : (e.foldl unescTurn (acc, z)).1 = acc ++ unescape z e := by
  induction e generalizing acc z with
  | nil => simp [unescape]
  | cons b e ih =>
    rw [List.foldl_cons, unescTurn_eq, unescape]
    split <;> simp [ih]

/-- Settles O33: each turn of a loop appends what one step of its recursion puts in front. -/
theorem transformsAreTheStatedLoops : Obligations.TransformsAreTheStatedLoops :=
  ⟨fun r => (foldl_epbTurn r _ 0).symm, fun e => (foldl_unescTurn e [] 0).symm⟩

/-! ### The transform and its inverse -/

/-- The transform inserts a 3 before the byte: the count starts over. -/
theorem escape_insert {b : Byte} (hb : b.toNat ≤ 3) (r : List Byte) :
    escape 2 (b :: r) = 0x03#8 :: b :: escape (nextZeros 0 b) r := by
  simp [escape, hb]

/-- The transform copies the byte. -/
theorem escape_copy {z : Nat} {b : Byte} (hcopy : ¬(z = 2 ∧ b.toNat ≤ 3)) (r : List Byte) :
    escape z (b :: r) = b :: escape (nextZeros z b) r := by
  simp [escape, hcopy]

theorem unescape_drop (e : List Byte) : unescape 2 (0x03#8 :: e) = unescape 0 e := by simp [unescape]

/-- The inverse keeps every byte that the transform copies. -/
theorem unescape_keep {z : Nat} {b : Byte} (hcopy : ¬(z = 2 ∧ b.toNat ≤ 3)) (e : List Byte) :
    unescape z (b :: e) = b :: unescape (nextZeros z b) e := by
  have hkeep : ¬(z = 2 ∧ b = 0x03#8) := fun ⟨hz, hb⟩ => hcopy ⟨hz, by simp [hb]⟩
  simp [unescape, hkeep]

theorem not_insert_zero (b : Byte) : ¬(0 = 2 ∧ b.toNat ≤ 3) := fun h => absurd h.1 (by decide)

/-- The inverse undoes the transform's loop, both starting from the same count. -/
theorem unescape_escape (z : Nat) (r : List Byte) : unescape z (escape z r) = r := by
  induction r generalizing z with
  | nil => rfl
  | cons b r ih =>
    by_cases hins : z = 2 ∧ b.toNat ≤ 3
    · obtain ⟨rfl, hb⟩ := hins
      rw [escape_insert hb, unescape_drop, unescape_keep (not_insert_zero b), ih]
    · rw [escape_copy hins, unescape_keep hins, ih]

theorem unesc_startCode_append (e : List Byte) : unesc (startCode ++ e) = unescape 0 e := rfl

/-- Settles O34: both loops start from the count 0 after the start code. -/
theorem unescapeUndoesEscape : Obligations.UnescapeUndoesEscape := fun r =>
  (unesc_startCode_append _).trans (unescape_escape 0 r)

/-! ### No start code in an emulation form -/

theorem nextZeros_le {z : Nat} {b : Byte} (hz : z ≤ 2) (hcopy : ¬(z = 2 ∧ b.toNat ≤ 3)) : nextZeros z b ≤ 2 := by
  unfold nextZeros
  split_ifs with hb
  · have : z ≠ 2 := fun h => hcopy ⟨h, by simp [hb]⟩
    omega
  · omega

/-- What follows the first byte of an emulation form is one again, and the inverse goes on in it with its count. -/
theorem escape_tail {z : Nat} (hz : z ≤ 2) {c : Byte} {e : List Byte} {r : List Byte} (he : escape z r = c :: e) :
    ∃ z' r', z' ≤ 2 ∧ e = escape z' r' ∧ ∃ kept, ∀ x, unescape z (c :: x) = kept ++ unescape z' x := by
  cases r with
  | nil => cases he
  | cons b r =>
    by_cases hins : z = 2 ∧ b.toNat ≤ 3
    · obtain ⟨rfl, hb⟩ := hins
      rw [escape_insert hb, ← escape_copy (not_insert_zero b)] at he
      cases he
      exact ⟨0, b :: r, by decide, rfl, [], unescape_drop⟩
    · rw [escape_copy hins] at he
      cases he
      exact ⟨nextZeros z c, r, nextZeros_le hz hins, rfl, [c], unescape_keep hins⟩

/-- A zero byte in front is one copied, not the second of a count. -/
theorem escape_eq_zero_cons {z : Nat} {e r : List Byte} (he : escape z r = 0x00#8 :: e) :
    z ≠ 2 ∧ ∃ r', e = escape (z + 1) r' := by
  cases r with
  | nil => cases he
  | cons b r =>
    by_cases hins : z = 2 ∧ b.toNat ≤ 3
    · obtain ⟨rfl, hb⟩ := hins
      rw [escape_insert hb] at he
      cases he
    · rw [escape_copy hins] at he
      cases he
      exact ⟨fun h => hins ⟨h, by decide⟩, r, rfl⟩

/-- After two zero bytes the transform copies a byte of at least 4 or inserts a 3. -/
theorem escape_two_head {b : Byte} {e r : List Byte} (he : escape 2 r = b :: e) : 4 ≤ b.toNat ∨ b = 0x03#8 := by
  cases r with
  | nil => cases he
  | cons c r =>
    by_cases hc : c.toNat ≤ 3
    · rw [escape_insert hc] at he
      cases he
      exact .inr rfl
    · rw [escape_copy (fun h => hc h.2)] at he
      cases he
      exact .inl (by omega)

/-- A third byte after two zero bytes, anywhere in what the loop puts out, is at least 4 or an inserted 3. -/
theorem escape_third {z : Nat} (hz : z ≤ 2) (k : Nat) {r : List Byte} {b : Byte} (h0 : (escape z r)[k]? = some 0x00#8)
    (h1 : (escape z r)[k + 1]? = some 0x00#8) (h2 : (escape z r)[k + 2]? = some b) :
    4 ≤ b.toNat ∨
      b = 0x03#8 ∧ unescape z ((escape z r).take (k + 3)) = unescape z ((escape z r).take (k + 2)) := by
  induction k generalizing z r with
  | zero =>
    obtain ⟨e, he⟩ : ∃ e, escape z r = 0x00#8 :: 0x00#8 :: b :: e := by
      match escape z r, h0, h1, h2 with
      | _ :: _ :: _ :: e, rfl, rfl, rfl => exact ⟨e, rfl⟩
    obtain ⟨hz₀, r₁, he₁⟩ := escape_eq_zero_cons he
    obtain ⟨hz₁, r₂, he₂⟩ := escape_eq_zero_cons he₁.symm
    obtain rfl : z = 0 := by omega
    refine (escape_two_head he₂.symm).imp_right fun hb => ⟨hb, ?_⟩
    rw [he, hb]
    rfl
  | succ k ih =>
    cases he : escape z r with
    | nil => simp [he] at h0
    | cons c e =>
      obtain ⟨z', r', hz', rfl, kept, hkept⟩ := escape_tail hz he
      rw [he] at h0 h1 h2
      refine (ih hz' h0 h1 h2).imp_right fun ⟨hb, hdrop⟩ => ⟨hb, ?_⟩
      rw [List.take_succ_cons, List.take_succ_cons, hkept, hkept, hdrop]

/-- Settles O35: the start code is over before the loop starts. -/
theorem escapedFormHasNoStartCode : Obligations.EscapedFormHasNoStartCode := fun r k _ h0 h1 h2 =>
  escape_third (r := r) (by decide : 0 ≤ 2) k h0 h1 h2

/-! ### The length of an emulation form (R123) -/

theorem length_le_length_escape (z : Nat) (r : List Byte) : r.length ≤ (escape z r).length := by
  induction r generalizing z with
  | nil => exact Nat.le_refl 0
  | cons b r ih =>
    rw [escape]
    split
    · exact Nat.succ_le_succ ((ih _).trans (Nat.le_succ _))
    · exact Nat.succ_le_succ (ih _)

/-- Each insertion takes two bytes, less those that the count has already. -/
theorem length_escape_le_half {z : Nat} (hz : z ≤ 2) (r : List Byte) :
    (escape z r).length ≤ r.length + (r.length + z - 1) / 2 := by
  induction r generalizing z with
  | nil => exact Nat.zero_le _
  | cons b r ih =>
    by_cases hins : z = 2 ∧ b.toNat ≤ 3
    · obtain ⟨rfl, hb⟩ := hins
      have hcount : nextZeros 0 b ≤ 1 := by unfold nextZeros; split <;> omega
      have := ih (hcount.trans (by decide))
      simp only [escape_insert hb, List.length_cons]
      omega
    · have hcount : nextZeros z b ≤ z + 1 := by unfold nextZeros; split <;> omega
      have := ih (nextZeros_le hz hins)
      simp only [escape_copy hins, List.length_cons]
      omega

/-- Zero bytes meet the bound: every second one is inserted before. -/
theorem length_escape_zeros {z : Nat} (hz : z ≤ 2) (n : Nat) :
    (escape z (List.replicate n 0x00#8)).length = n + (n + z - 1) / 2 := by
  induction n generalizing z with
  | zero =>
    rw [List.replicate_zero, escape, List.length_nil]
    omega
  | succ n ih =>
    rw [List.replicate_succ]
    by_cases hins : z = 2
    · subst hins
      rw [escape_insert (by decide), List.length_cons, List.length_cons, nextZeros, if_pos rfl, ih (by decide)]
      omega
    · rw [escape_copy (fun h => hins h.1), List.length_cons, nextZeros, if_pos rfl, ih (by omega)]
      omega

theorem length_epb (r : List Byte) : (epb r).length = 4 + (escape 0 r).length := List.length_append

/-- Settles O36: the bounds of the loop from the count 0, after the four bytes of the start code. -/
theorem escapedLength : Obligations.EscapedLength := by
  refine ⟨rfl, fun r hr => ?_, fun n hn => ?_, fun p r hr => ?_⟩
  · have hlow := length_le_length_escape 0 r
    have hhigh := length_escape_le_half (z := 0) (by decide) r
    rw [length_epb]
    omega
  · rw [length_epb, length_escape_zeros (by decide)]
    omega
  · have hle := length_epb_le r
    rw [Params.emuCapBytes]
    omega

end Sys2Proof.Machine
end

section
/-! PROOFS. The bitstream reader against the writer (41_bitstream_reader): loading the writer's bytes, Exp-Golomb code words,
and that what the writer puts, the reader gets back. -/

namespace Sys2Proof.Machine

/-! ### `BSR_LOAD` (R142) -/

theorem loadChecked_eq (b : List Byte) (s : State) :
    loadChecked b s = if s.cfg.bsrCapBytes < b.length then failed s .eNoSpace else loadReader b s := by
  rw [loadChecked, fail_eq_failed _ _ rfl]

theorem exec_bsrLoad_raw {s : State} (hp : s.port = .P) :
    exec (.bsrLoad false) s =
      .next (if s.nbits % 8 ≠ 0 then failed s .eUnaligned else loadChecked (Memory.bytes s.raw (s.nbits / 8)) s) := by
  rw [exec, execBsrLoad, onProducer_of_P hp, if_neg Bool.false_ne_true, fail_eq_failed _ _ rfl]

theorem exec_bsrLoad_emu {s : State} (hp : s.port = .P) :
    exec (.bsrLoad true) s =
      .next (if s.sealed then loadChecked (Memory.bytes s.emu s.emuLen) s else failed s .eInvalidParam) := by
  rw [exec, execBsrLoad, onProducer_of_P hp, if_pos rfl, fail_eq_failed _ _ rfl]

/-- Settles O41: both sources end in the same check and load. -/
theorem bsrLoad : Obligations.BsrLoad := by
  refine ⟨⟨producerCommand_of_onProducer rfl fun _ => ⟨_, rfl⟩, producerCommand_of_onProducer rfl fun _ => ⟨_, rfl⟩⟩,
    fun s hp => ⟨fun hodd => ?_, fun hs => ?_, fun src b hsrc => ?_⟩⟩
  · rw [exec_bsrLoad_raw hp, if_pos hodd]
  · rw [exec_bsrLoad_emu hp, if_neg (by simp [hs])]
  · have hload : exec (.bsrLoad src) s = .next (loadChecked b s) := by
      rcases hsrc with ⟨rfl, haligned, rfl⟩ | ⟨rfl, hs, rfl⟩
      · rw [exec_bsrLoad_raw hp, if_neg (not_not_intro haligned)]
      · rw [exec_bsrLoad_emu hp, if_pos hs]
    rw [hload, loadChecked_eq]
    refine ⟨fun hsmall => by rw [if_pos hsmall], fun hroom => ⟨Memory.ofBytes b, holdsBytes_ofBytes fun _ _ => rfl, ?_⟩⟩
    rw [if_neg (by omega), loadReader_eq_answered]

/-! ### The value of a field (00_scope R12) -/

/-- A field's value is the number with these bits. -/
theorem bitRead_eq_of_bits {m : Memory} {p n v : Nat} (hv : v < 2 ^ n)
    (hbits : ∀ j, j < n → v.testBit j = bitAt m (p + n - 1 - j)) : bitRead m p n = v := by
  refine Nat.eq_of_testBit_eq fun j => ?_
  rw [testBit_bitRead]
  split_ifs with hj
  · exact (hbits j hj).symm
  · exact (Nat.testBit_lt_two_pow (hv.trans_le (Nat.pow_le_pow_right (by decide) (by omega)))).symm

/-- A field read in two parts (R145). -/
theorem bitRead_add (m : Memory) (p a b : Nat) :
    bitRead m p (a + b) = bitRead m p a * 2 ^ b + bitRead m (p + a) b := by
  induction a generalizing p with
  | zero => simp [bitRead]
  | succ a ih =>
    rw [Nat.succ_add, bitRead, ih, bitRead, Nat.succ_add_eq_add_succ]
    ring

/-! ### One code word (R146) -/

theorem CodePrefix.unique {m : Memory} {p n n' : Nat} (h : CodePrefix m p n) (h' : CodePrefix m p n') : n = n' := by
  rcases Nat.lt_trichotomy n n' with hlt | heq | hgt
  · exact absurd h.2 (by simp [h'.1 n hlt])
  · exact heq
  · exact absurd h'.2 (by simp [h.1 n' hgt])

/-- 32 zeros are too many. -/
theorem readUe_of_zeros {m : Memory} {p avail : Nat} (havail : 32 ≤ avail) (hz : ∀ k, k < 32 → bitAt m (p + k) = false) :
    readUe m p avail = .range := by
  rcases readUe_spec m p avail with ⟨-, -, h⟩ | ⟨hlt, -, -⟩ | ⟨n, hn, -, ⟨-, hone⟩, -⟩
  · exact h
  · omega
  · exact absurd hone (by simp [hz n hn])

/-- The bits end within the zeros. -/
theorem readUe_of_short_zeros {m : Memory} {p avail : Nat} (havail : avail < 32)
    (hz : ∀ k, k < avail → bitAt m (p + k) = false) : readUe m p avail = .underrun := by
  rcases readUe_spec m p avail with ⟨hle, -, -⟩ | ⟨-, -, h⟩ | ⟨n, -, hn, ⟨-, hone⟩, -⟩
  · omega
  · exact h
  · exact absurd hone (by simp [hz n hn])

/-- The zeros end with a one: what counts is whether the suffix is all there. -/
theorem readUe_of_codePrefix {m : Memory} {p avail n : Nat} (hn : n < 32) (havail : n < avail) (h : CodePrefix m p n) :
    readUe m p avail =
      if 2 * n + 1 ≤ avail then .value (bitRead m (p + n) (n + 1) - 1) (2 * n + 1) else .underrun := by
  rcases readUe_spec m p avail with ⟨-, hz, -⟩ | ⟨-, hz, -⟩ | ⟨n', -, -, h', hread⟩
  · exact absurd h.2 (by simp [hz n hn])
  · exact absurd h.2 (by simp [hz n havail])
  · rw [h.unique h', hread]

/-- What stands after the zeros is the one and the suffix. -/
theorem bitRead_of_suffix {m : Memory} {p n suffix : Nat} (h : CodePrefix m p n) (hlt : suffix < 2 ^ n)
    (hbits : ∀ j, j < n → suffix.testBit j = bitAt m (p + 2 * n - j)) : bitRead m (p + n) (n + 1) = 2 ^ n + suffix := by
  have hread : bitRead m (p + n + 1) n = suffix := bitRead_eq_of_bits hlt fun j hj => by
    rw [hbits j hj]
    congr 1
    omega
  rw [bitRead, h.2, hread, Bool.toNat_true, Nat.one_mul]

/-! ### `GET_UE` and `GET_SE` -/

theorem exec_getUe_of_P {s : State} (hp : s.port = .P) : exec .getUe s = .next (getCode u32 s) := by
  rw [exec, execGetUe, onProducer_of_P hp]

theorem exec_getSe_of_P {s : State} (hp : s.port = .P) :
    exec .getSe s = .next (getCode (fun k => BitVec.ofInt 32 (ueToSe k)) s) := by
  rw [exec, execGetSe, onProducer_of_P hp]

theorem getCode_of_range {s : State} (h : readUe s.rbuf s.rpos (avail s) = .range) (result : Nat → Word) :
    getCode result s = failed s .eEgRange := by
  rw [getCode, h]
  exact fail_eq_failed _ _ rfl

theorem getCode_of_underrun {s : State} (h : readUe s.rbuf s.rpos (avail s) = .underrun) (result : Nat → Word) :
    getCode result s = failed s .eUnderrun := by
  rw [getCode, h]
  exact fail_eq_failed _ _ rfl

theorem getCode_of_value {s : State} {v bits : Nat} (h : readUe s.rbuf s.rpos (avail s) = .value v bits)
    (result : Nat → Word) :
    getCode result s = answered { s with rpos := s.rpos + bits } .stOk (result v) (u32 bits) := by
  rw [getCode, h]
  exact done_eq_answered _ _ _ _ _ _ rfl

/-- The signed value of a code word of at most 31 zeros fits a word. -/
theorem toInt_ofInt_ueToSe {k : Nat} (hk : k < 2 ^ 32 - 1) : (BitVec.ofInt 32 (ueToSe k)).toInt = ueToSe k := by
  refine BitVec.toInt_ofInt_eq_self (by decide) ?_ ?_ <;> unfold ueToSe <;> split <;> omega

/-- Settles O44: the clauses are the outcomes of `readUe`. -/
theorem getExpGolomb : Obligations.GetExpGolomb := by
  refine ⟨⟨producerCommand_of_onProducer rfl fun _ => ⟨_, rfl⟩, producerCommand_of_onProducer rfl fun _ => ⟨_, rfl⟩⟩,
    fun s hp hpos => ?_⟩
  have havail : avail s = 8 * s.rlen - s.rpos := rfl
  rw [exec_getUe_of_P hp, exec_getSe_of_P hp]
  refine ⟨fun hroom hz => ?_, fun hshort hz => ?_, fun n hn hone hcode hshort => ?_,
    fun n suffix k hn hcode hroom hlt hbits hk => ?_⟩
  · have hread := readUe_of_zeros (avail := avail s) (by omega) hz
    exact ⟨congrArg _ (getCode_of_range hread _), congrArg _ (getCode_of_range hread _)⟩
  · have hread := readUe_of_short_zeros (avail := avail s) (by omega) fun k hk => hz k (by omega)
    exact ⟨congrArg _ (getCode_of_underrun hread _), congrArg _ (getCode_of_underrun hread _)⟩
  · have hread := readUe_of_codePrefix (avail := avail s) hn (by omega) hcode
    rw [if_neg (by omega)] at hread
    exact ⟨congrArg _ (getCode_of_underrun hread _), congrArg _ (getCode_of_underrun hread _)⟩
  · have hvalue : 2 ^ n + suffix - 1 = k := by have := Nat.two_pow_pos n; omega
    have hread := readUe_of_codePrefix (avail := avail s) hn (by omega) hcode
    rw [if_pos (by omega), bitRead_of_suffix hcode hlt hbits, hvalue] at hread
    have hpow : 2 ^ n ≤ 2 ^ 31 := Nat.pow_le_pow_right (by decide) (by omega)
    refine ⟨congrArg _ (getCode_of_value hread _), _, ?_, congrArg _ (getCode_of_value hread _)⟩
    rw [toInt_ofInt_ueToSe (by omega), ueToSe]
    split <;> omega

/-! ### What the writer puts, the reader gets back -/

/-- A failing command does not answer `ST_OK`. -/
theorem not_stOk_of_failed {s : State} {r : Response} {st : Status} (hst : st.isFailure = true)
    (hans : AnswersWith s (failed s st) r) : r.status ≠ .stOk := by
  rw [← fail_eq_failed s st hst] at hans
  rw [hans.unique (answersWith_fail s st)]
  rintro rfl
  cases hst

/-- A field that was written stands at the old end of the writer. -/
theorem putField_of_stOk {s : State} {r : Response} {n v : Nat} (hw : Memory.wf s.raw)
    (hans : AnswersWith s (putField n v s) r) (hr : r.status = .stOk) :
    FieldWritten s.raw (putField n v s).raw s.nbits n v ∧ (putField n v s).nbits = s.nbits + n := by
  by_cases hs : s.sealed = true
  · rw [putField_sealed hs] at hans
    exact absurd hr (not_stOk_of_failed rfl hans)
  · have hs : s.sealed = false := by simpa using hs
    by_cases hfull : 8 * s.cfg.bswCapBytes < s.nbits + n
    · rw [putField_full hs n v hfull] at hans
      exact absurd hr (not_stOk_of_failed rfl hans)
    · obtain ⟨m, hm, hput⟩ := putField_ok hs n v (by omega) hw
      cases hp : s.port <;> simpa [hput, answered, hp] using hm

/-- The bits of a written field, copied elsewhere, read as the field's value. -/
theorem FieldWritten.bit_of_copy {m m' b : Memory} {p q n v k : Nat} (h : FieldWritten m m' p n v)
    (hcopy : ∀ k, k < n → bitAt b (q + k) = bitAt m' (p + k)) (hk : k < n) :
    bitAt b (q + k) = v.testBit (n - 1 - k) := by
  rw [hcopy k hk, h.1, if_pos (by omega)]
  congr 1
  omega

theorem FieldWritten.bitRead_of_copy {m m' b : Memory} {p q n v : Nat} (h : FieldWritten m m' p n v) (hv : v < 2 ^ n)
    (hcopy : ∀ k, k < n → bitAt b (q + k) = bitAt m' (p + k)) : bitRead b q n = v :=
  bitRead_eq_of_bits hv fun j hj => by
    rw [show q + n - 1 - j = q + (n - 1 - j) by omega, h.bit_of_copy hcopy (by omega)]
    congr 1
    omega

/-- A copy of the code of `k` reads as one code word of value `k`. -/
theorem readUe_of_copy {m m' b : Memory} {p q k avail : Nat} (hk : k + 1 < 2 ^ 32)
    (h : FieldWritten m m' p (ueWidth (k + 1)) (k + 1))
    (hcopy : ∀ j, j < ueWidth (k + 1) → bitAt b (q + j) = bitAt m' (p + j)) (havail : ueWidth (k + 1) ≤ avail) :
    readUe b q avail = .value k (ueWidth (k + 1)) := by
  obtain ⟨hpos, hlow, hhigh⟩ := bitLength_bounds (k + 1) (by omega)
  obtain ⟨n, hn⟩ : ∃ n, bitLength (k + 1) = n + 1 := ⟨bitLength (k + 1) - 1, by omega⟩
  have hwidth : ueWidth (k + 1) = 2 * n + 1 := by rw [ueWidth, hn]; omega
  rw [hn, Nat.add_sub_cancel] at hlow
  rw [hn] at hhigh
  rw [hwidth] at h hcopy havail ⊢
  have hn32 : n < 32 := (Nat.pow_lt_pow_iff_right (by decide)).1 (hlow.trans_lt hk)
  -- the high bits of the field are the zeros, bit `n` is the one
  have hprefix : CodePrefix b q n := by
    refine ⟨fun j hj => ?_, ?_⟩
    · rw [h.bit_of_copy hcopy (by omega)]
      exact Nat.testBit_lt_two_pow (hhigh.trans_le (Nat.pow_le_pow_right (by decide) (by omega)))
    · rw [h.bit_of_copy hcopy (by omega), show 2 * n + 1 - 1 - n = n by omega]
      exact Nat.testBit_of_two_pow_le_and_two_pow_add_one_gt hlow hhigh
  have hsuffix : bitRead b (q + n) (n + 1) = k + 1 := bitRead_eq_of_bits hhigh fun j hj => by
    rw [show q + n + (n + 1) - 1 - j = q + (2 * n - j) by omega, h.bit_of_copy hcopy (by omega)]
    congr 1
    omega
  rw [readUe_of_codePrefix hn32 (by omega) hprefix, if_pos havail, hsuffix, Nat.add_sub_cancel]

/-- The bits that a successful `putCode k` has written, copied to the front of a reader, read as `k`. -/
theorem readUe_of_putCode {s t : State} {r : Response} {k : Nat} (hw : Memory.wf s.raw) (hk : k + 1 < 2 ^ 32)
    (hans : AnswersWith s (putCode k s) r) (hr : r.status = .stOk)
    (hcopy : ∀ j, j < (putCode k s).nbits - s.nbits → bitAt t.rbuf (t.rpos + j) = bitAt (putCode k s).raw (s.nbits + j))
    (hroom : t.rpos + ((putCode k s).nbits - s.nbits) ≤ 8 * t.rlen) :
    readUe t.rbuf t.rpos (avail t) = .value k ((putCode k s).nbits - s.nbits) := by
  obtain ⟨hfield, hnbits⟩ := putField_of_stOk hw hans hr
  have hwidth : (putCode k s).nbits - s.nbits = ueWidth (k + 1) := by rw [putCode, hnbits, Nat.add_sub_cancel_left]
  rw [hwidth] at hcopy hroom ⊢
  exact readUe_of_copy hk hfield hcopy (by rw [avail]; omega)

/-- A `PUT_UE` that succeeds has put the code of its operand. -/
theorem putCode_of_putUe {s s' : State} {v : Word} {r : Response} (hp : s.port = .P) (hexec : exec (.putUe v) s = .next s')
    (hans : AnswersWith s s' r) (hr : r.status = .stOk) : v.toNat + 1 < 2 ^ 32 ∧ s' = putCode v.toNat s := by
  rw [exec, execPutUe, onProducer_of_P hp, fail_eq_failed _ _ rfl] at hexec
  split_ifs at hexec with hmax <;> cases hexec
  · exact absurd hr (not_stOk_of_failed rfl hans)
  · exact ⟨by bv_omega, rfl⟩

/-- A `PUT_SE` that succeeds has put the code of its operand's mapped value. -/
theorem putCode_of_putSe {s s' : State} {v : Word} {r : Response} (hp : s.port = .P) (hexec : exec (.putSe v) s = .next s')
    (hans : AnswersWith s s' r) (hr : r.status = .stOk) :
    seToUe v.toInt + 1 < 2 ^ 32 ∧ s' = putCode (seToUe v.toInt) s := by
  rw [exec, execPutSe, onProducer_of_P hp, fail_eq_failed _ _ rfl] at hexec
  split_ifs at hexec with hmin <;> cases hexec
  · exact absurd hr (not_stOk_of_failed rfl hans)
  · have hlow : -2 ^ 31 ≤ v.toInt := BitVec.le_toInt v
    have hhigh : v.toInt < 2 ^ 31 := BitVec.toInt_lt
    have hmap := natCast_seToUe v.toInt
    exact ⟨by split_ifs at hmap <;> omega, rfl⟩

/-- Settles O37: both pairs read the code of one number back; for the signed pair the reader's mapping undoes the writer's. -/
theorem expGolombRoundTrip : Obligations.ExpGolombRoundTrip := by
  intro v s s' t r hp hw htp hans hr hcopy hroom
  refine ⟨fun hexec => ?_, fun hexec => ?_⟩
  · obtain ⟨hk, rfl⟩ := putCode_of_putUe hp hexec hans hr
    rw [exec_getUe_of_P htp, getCode_of_value (readUe_of_putCode hw hk hans hr hcopy hroom), u32_toNat]
  · obtain ⟨hk, rfl⟩ := putCode_of_putSe hp hexec hans hr
    rw [exec_getSe_of_P htp, getCode_of_value (readUe_of_putCode hw hk hans hr hcopy hroom), ueToSe_seToUe,
      BitVec.ofInt_toInt]

/-- A `PUT_BITS` that succeeds has put a field. -/
theorem putField_of_putBits {s s' : State} {n : Byte} {v : Word} {r : Response} (hp : s.port = .P)
    (hexec : exec (.putBits n v) s = .next s') (hans : AnswersWith s s' r) (hr : r.status = .stOk) :
    n.toNat ≤ 32 ∧ v.toNat < 2 ^ n.toNat ∧ s' = putField n.toNat v.toNat s := by
  rw [exec_putBits_of_P hp] at hexec
  split_ifs at hexec with hlegal <;> cases hexec
  · exact ⟨hlegal.1, hlegal.2, rfl⟩
  · exact absurd hr (not_stOk_of_failed rfl hans)

@[simp] theorem answered_port (s : State) (st : Status) (r0 r1 r2 r3 : Word) :
    (answered s st r0 r1 r2 r3).port = s.port := by unfold answered; split <;> rfl

@[simp] theorem answered_rbuf (s : State) (st : Status) (r0 r1 r2 r3 : Word) :
    (answered s st r0 r1 r2 r3).rbuf = s.rbuf := by unfold answered; split <;> rfl

@[simp] theorem answered_rlen (s : State) (st : Status) (r0 r1 r2 r3 : Word) :
    (answered s st r0 r1 r2 r3).rlen = s.rlen := by unfold answered; split <;> rfl

@[simp] theorem answered_rpos (s : State) (st : Status) (r0 r1 r2 r3 : Word) :
    (answered s st r0 r1 r2 r3).rpos = s.rpos := by unfold answered; split <;> rfl

/-- `GET_BITS` of a legal width that is all there. -/
theorem exec_getBits_of_room {s : State} (hp : s.port = .P) {n : Byte} (hn : n.toNat ≤ 32)
    (hroom : s.rpos + n.toNat ≤ 8 * s.rlen) :
    exec (.getBits n) s =
      .next (answered { s with rpos := s.rpos + n.toNat } .stOk (u32 (bitRead s.rbuf s.rpos n.toNat)) (u32 n.toNat)) := by
  rw [exec_getBits_of_P hp (by omega), if_neg (by omega), if_neg (by omega)]

theorem toNat_u32_bitRead (m : Memory) (p : Nat) {n : Nat} (hn : n ≤ 32) : (u32 (bitRead m p n)).toNat = bitRead m p n :=
  Nat.mod_eq_of_lt ((bitRead_lt m p n).trans_le (Nat.pow_le_pow_right (by decide) hn))

/-- Settles O38: a field read back is the number written; a read of `a + b` bits is a number put together from two. -/
theorem fieldRoundTripAndSplit : Obligations.FieldRoundTripAndSplit := by
  refine ⟨fun n v s s' t r hp hw htp hexec hans hr hcopy hroom => ?_, fun a b c s hp hc hc32 hroom => ?_⟩
  · obtain ⟨hn, hv, rfl⟩ := putField_of_putBits hp hexec hans hr
    obtain ⟨hfield, -⟩ := putField_of_stOk hw hans hr
    rw [exec_getBits_of_room htp hn hroom, hfield.bitRead_of_copy hv hcopy, u32_toNat]
  · refine ⟨u32 (bitRead s.rbuf s.rpos a.toNat), u32 (bitRead s.rbuf (s.rpos + a.toNat) b.toNat), _, rfl,
      exec_getBits_of_room hp (by omega) (by omega), ?_, ?_⟩
    · rw [exec_getBits_of_room (by simpa using hp) (by omega) (by simp; omega), answered_rbuf, answered_rpos, hc,
        Nat.add_assoc]
    · rw [exec_getBits_of_room hp hc32 hroom, toNat_u32_bitRead _ _ (by omega), toNat_u32_bitRead _ _ (by omega),
        ← bitRead_add, hc]

/-! ### The loop through the emulation form -/

/-- The first `n` bytes of a buffer as a buffer of their own, bit by bit. -/
theorem bitAt_ofBytes_bytes (m : Memory) (n p : Nat) :
    bitAt (Memory.ofBytes (Memory.bytes m n)) p = if p < 8 * n then bitAt m p else false := by
  rw [bitAt, Memory.read_ofBytes]
  split_ifs with hp
  · rw [Memory.getD_bytes m n _ (by omega), bitAt]
  · rw [List.getD_eq_default _ _ (by simp; omega), BitVec.getLsbD_zero]

/-- An aligned writer's bytes hold all its bits (R24). -/
theorem WriterInv.bitAt_ofBytes_raw {s : State} (hinv : WriterInv s) (haligned : s.nbits % 8 = 0) (p : Nat) :
    bitAt (Memory.ofBytes (Memory.bytes s.raw (s.nbits / 8))) p = bitAt s.raw p := by
  rw [bitAt_ofBytes_bytes]
  split_ifs with hp
  · rfl
  · exact (hinv.rawZero p (by omega)).symm

/-- The emulation form of what a writer holds fits the reader (00_scope R7). -/
theorem length_epb_le_bsrCapBytes {s : State} (hinv : BlockInv s) :
    (epb (Memory.bytes s.raw (s.nbits / 8))).length ≤ s.cfg.bsrCapBytes := by
  obtain ⟨-, hcap, -⟩ := hinv.params
  obtain ⟨-, -, -, hemu⟩ := escapedLength
  have hbytes : s.nbits / 8 ≤ s.cfg.bswCapBytes := by have := hinv.writer.nbitsLe; omega
  exact (hemu s.cfg _ (by simpa using hbytes)).trans hcap

/-- The first bytes of a buffer made of a byte list. -/
theorem bytes_ofBytes_of_le {bs : List Byte} {n : Nat} (hn : n ≤ bs.length) :
    Memory.bytes (Memory.ofBytes bs) n = bs.take n := by
  refine List.ext_getElem (by simp [hn]) fun i hi _ => ?_
  rw [Memory.length_bytes] at hi
  rw [← List.getD_eq_getElem _ 0#8, Memory.getD_bytes _ _ _ hi, Memory.read_ofBytes, List.getElem_take,
    List.getD_eq_getElem]

/-- `BSR_UNESC` on a reader that holds an emulation form. -/
theorem exec_bsrUnesc_of_epb {s : State} (hp : s.port = .P) {b : List Byte} (hbuf : s.rbuf = Memory.ofBytes (epb b))
    (hlen : s.rlen = (epb b).length) : exec .bsrUnesc s = .next (loadReader b s) := by
  have hfour : 4 ≤ (epb b).length := by rw [length_epb]; omega
  have hstart : Memory.bytes (Memory.ofBytes (epb b)) 4 = startCode := bytes_ofBytes_of_le hfour
  have hgood : ¬((epb b).length < 4 ∨ Memory.bytes (Memory.ofBytes (epb b)) 4 ≠ startCode) := by
    rintro (hshort | hne)
    · omega
    · exact hne hstart
  rw [exec, execBsrUnesc, onProducer_of_P hp, hbuf, hlen, if_neg hgood, Memory.bytes_ofBytes, unescapeUndoesEscape]

/-- `BSR_LOAD 1` of an emulation form that has just been sealed. -/
theorem exec_bsrLoad_of_sealed {s : State} (hp : s.port = .P) (hs : s.sealed = true) {e : List Byte}
    (hemu : s.emu = Memory.ofBytes e) (hlen : s.emuLen = e.length) (hcap : e.length ≤ s.cfg.bsrCapBytes) :
    exec (.bsrLoad true) s = .next (loadReader e s) := by
  rw [exec_bsrLoad_emu hp, if_pos hs, hemu, hlen, Memory.bytes_ofBytes, loadChecked_eq, if_neg (by omega)]

/-- Settles O39: the reader is loaded with the emulation form and then with what it is the form of. -/
theorem escapedUnitLoopsBack : Obligations.EscapedUnitLoopsBack := by
  intro s limit hinv hp hs haligned hlimit
  obtain ⟨b, hb⟩ : ∃ b, b = Memory.bytes s.raw (s.nbits / 8) := ⟨_, rfl⟩
  have hemit := exec_emitEpb_of_unsealed hp hs haligned limit rfl
  have hcap := length_epb_le_bsrCapBytes hinv
  rw [← hb] at hlimit hemit hcap
  rw [if_neg (by omega)] at hemit
  have hload := exec_bsrLoad_of_sealed (s := sendEpb (epb b) (sealWith (epb b) s)) hp rfl rfl rfl hcap
  have hunesc := exec_bsrUnesc_of_epb (s := loadReader (epb b) (sendEpb (epb b) (sealWith (epb b) s))) hp rfl rfl
  refine ⟨_, _, _, hemit, hload, hunesc, ?_, rfl, fun p => ?_, rfl, rfl⟩
  · show 8 * b.length = s.nbits
    rw [hb, Memory.length_bytes]
    omega
  · show bitAt (Memory.ofBytes b) p = bitAt s.raw p
    rw [hb, hinv.writer.bitAt_ofBytes_raw haligned]

end Sys2Proof.Machine
end

section
/-! PROOFS. What leaves the decoded picture buffer and what stays (42_dpb sections 2 to 4, 10_state R37): the commands that
output pictures move each pending one out once or keep it, and keep the invariants of the slots. -/

namespace Sys2Proof.Machine

/-! ### Pending pictures -/

/-- Of the pictures `before`, not yet output, those output make up `outs`, as output, and the others are `after`. -/
def LeavesOnce (before after outs : List Picture) : Prop :=
  ∃ qs : List Picture, (∀ q ∈ qs, q.out = false) ∧ outs = qs.map released ∧ List.Perm before (qs ++ after)

namespace LeavesOnce

variable {before after outs : List Picture} {p : Picture}

theorem nothing (h : List.Perm before after) : LeavesOnce before after [] :=
  ⟨[], by simp, rfl, h⟩

/-- A picture that stays behind. -/
theorem keep (h : LeavesOnce before after outs) {after' : List Picture} (hafter : List.Perm after' (p :: after)) :
    LeavesOnce (p :: before) after' outs := by
  obtain ⟨qs, hqs, rfl, hperm⟩ := h
  exact ⟨qs, hqs, rfl, ((hperm.cons p).trans List.perm_middle.symm).trans (hafter.symm.append_left qs)⟩

/-- One more picture that leaves, last. -/
theorem leave (h : LeavesOnce before after outs) (hp : p.out = false) :
    LeavesOnce (p :: before) after (outs ++ [released p]) := by
  obtain ⟨qs, hqs, rfl, hperm⟩ := h
  refine ⟨qs ++ [p], fun q hq => ?_, by simp, ?_⟩
  · rcases List.mem_append.1 hq with hq | hq
    · exact hqs q hq
    · rwa [List.mem_singleton.1 hq]
  · rw [List.append_assoc]
    exact (hperm.cons p).trans List.perm_middle.symm

theorem of_perm (h : LeavesOnce before after outs) {before' : List Picture} (hperm : List.Perm before' before) :
    LeavesOnce before' after outs := by
  obtain ⟨qs, hqs, houts, hafter⟩ := h
  exact ⟨qs, hqs, houts, hperm.trans hafter⟩

/-- What leaves, leaves as output (R35). -/
theorem outs_out (h : LeavesOnce before after outs) : ∀ q ∈ outs, q.out = true := by
  obtain ⟨qs, -, rfl, -⟩ := h
  intro q hq
  obtain ⟨x, -, rfl⟩ := List.mem_map.1 hq
  rfl

end LeavesOnce

theorem pending_cons (p : Picture) (l : List Picture) : pending (p :: l) = if p.out then pending l else p :: pending l := by
  cases hp : p.out <;> simp [pending, hp]

theorem pending_perm {l l' : List Picture} (h : List.Perm l l') : List.Perm (pending l) (pending l') := h.filter _

theorem pending_append_singleton {inc : Picture} (ho : inc.out = false) (l : List Picture) :
    List.Perm (pending (l ++ [inc])) (inc :: pending l) :=
  (pending_perm (List.perm_append_singleton inc l)).trans (by rw [pending_cons, if_neg (by simp [ho])])

/-- The garbage-collection pass removes no picture that is left to output (R166). -/
theorem pending_gc (l : List Picture) : List.Perm (pending (gc l)) (pending l) := by
  refine (pending_perm (gc_perm l)).trans (List.Perm.of_eq ?_)
  rw [pending, pending, List.filter_filter]
  refine List.filter_congr fun p _ => ?_
  cases p.out <;> simp

theorem BumpsWhile.leavesOnce {C : List Picture → Prop} {l outs l' : List Picture} (h : BumpsWhile C l outs l') :
    LeavesOnce (pending l) (pending l') outs := h.perm

/-! ### The invariants of the slots (R37) -/

/-- What `DpbInv` says of the slots of a buffer of capacity `max`. -/
structure SlotsOk (max : Nat) (l : List Picture) : Prop where
  lengthLe : l.length ≤ max
  noGarbage : NoGarbage l
  twoSlot : max = 2 → ∀ p ∈ l, p.ref = true

/-- A bump keeps the invariants of the slots. -/
theorem Bumped.slotsOk {max : Nat} {l l' : List Picture} {p : Picture} (h : Bumped l p l') (hl : SlotsOk max l) :
    SlotsOk max l' := by
  obtain ⟨hlen, hclean, htwo⟩ := hl
  obtain ⟨q, rest, -, hbefore, hafter⟩ := h.perm_slots
  have hlenb := hbefore.length_eq
  have hlena := hafter.length_eq
  simp only [NoGarbage, hbefore.mem_iff, List.forall_mem_cons] at hclean htwo
  cases hr : q.ref with
  | true =>
    simp only [hr, if_true, List.length_cons] at hafter hlenb hlena
    refine ⟨by omega, ?_, ?_⟩
    · simp only [NoGarbage, hafter.mem_iff, List.forall_mem_cons]
      exact ⟨by simp [released, hr], hclean.2⟩
    · simp only [hafter.mem_iff, List.forall_mem_cons]
      exact fun hmax => ⟨hr, (htwo hmax).2⟩
  | false =>
    simp only [hr, Bool.false_eq_true, if_false, List.length_cons] at hafter hlenb hlena
    refine ⟨by omega, ?_, ?_⟩
    · simp only [NoGarbage, hafter.mem_iff]
      exact hclean.2
    · simp only [hafter.mem_iff]
      exact fun hmax => (htwo hmax).2

theorem BumpsWhile.slotsOk {C : List Picture → Prop} {max : Nat} {l outs l' : List Picture} (h : BumpsWhile C l outs l')
    (hl : SlotsOk max l) : SlotsOk max l' := by
  induction h with
  | stop l => exact hl
  | more _ hb _ ih => exact ih (hb.slotsOk hl)

theorem SlotsOk.gc {max : Nat} {l : List Picture} (hl : SlotsOk max l) : SlotsOk max (gc l) := by
  rwa [gc_noGarbage l hl.noGarbage]

/-- A picture not yet output enters a buffer with room; the 2-slot policy lets only reference pictures in. -/
theorem SlotsOk.insert {max : Nat} {l : List Picture} (hl : SlotsOk max l) (hroom : l.length ≠ max) {inc : Picture}
    (ho : inc.out = false) (hr : max = 2 → inc.ref = true) : SlotsOk max (l ++ [inc]) := by
  obtain ⟨hlen, hclean, htwo⟩ := hl
  have hmem : ∀ p, p ∈ l ++ [inc] ↔ p ∈ l ∨ p = inc := by simp
  refine ⟨by simp; omega, fun p hp hpr => ?_, fun hmax p hp => ?_⟩
  · rcases (hmem p).1 hp with hp | rfl
    · exact hclean p hp hpr
    · exact ho
  · rcases (hmem p).1 hp with hp | rfl
    · exact htwo hmax p hp
    · exact hr hmax

/-- A reference picture takes the place of another picture. -/
theorem SlotsOk.replace {max : Nat} {l : List Picture} (hl : SlotsOk max l) (i : Nat) {inc : Picture}
    (hr : inc.ref = true) : SlotsOk max (l.set i inc) := by
  obtain ⟨hlen, hclean, htwo⟩ := hl
  refine ⟨by simpa using hlen, fun p hp hpr => ?_, fun hmax p hp => ?_⟩
  · rcases List.mem_or_eq_of_mem_set hp with hp | rfl
    · exact hclean p hp hpr
    · exact absurd hpr (by simp [hr])
  · rcases List.mem_or_eq_of_mem_set hp with hp | rfl
    · exact htwo hmax p hp
    · exact hr

/-! ### `DPB_ADD` -/

/-- `t` is how a `DPB_ADD` of `inc` in `s` can end: the slots keep their invariants, and each pending picture, with `inc`
unless it was dropped or the command failed, has left or stays pending. -/
def AddsOnce (inc : Picture) (s t : State) : Prop :=
  ∃ l outs st r0 r1, t = (s.putDpb l outs).done st r0 r1 ∧ (st = .stOk ∨ st = .eDpbExhausted) ∧
    (SlotsOk s.dpbMax s.slots → SlotsOk s.dpbMax l) ∧
    LeavesOnce (if st = .stOk ∧ r1 ≠ 2#32 then inc :: pending s.slots else pending s.slots) (pending l) outs

theorem addsOnce_addReference {s : State} (hgeneral : s.dpbMax ≠ 2) {inc : Picture} (ho : inc.out = false) :
    AddsOnce inc s (addReference inc s) := by
  obtain ⟨outs, l', e, hrun, hbumps, hend⟩ := makeRoom_gc_cases (late := fun _ => false) (by simp) s.dpbMax s.slots
  have hslots : SlotsOk s.dpbMax s.slots → SlotsOk s.dpbMax l' := fun h => hbumps.slotsOk h.gc
  have hleave := hbumps.leavesOnce.of_perm (pending_gc s.slots).symm
  simp only [addReference, hrun]
  rcases hend with ⟨rfl, -, hroom⟩ | ⟨-, -, -, hlate⟩ | ⟨rfl, -⟩
  · exact ⟨l' ++ [inc], outs, .stOk, _, _, rfl, .inl rfl, fun h => (hslots h).insert hroom ho fun h => absurd h hgeneral,
      hleave.keep (pending_append_singleton ho l')⟩
  · exact absurd hlate Bool.false_ne_true
  · exact ⟨l', outs, .eDpbExhausted, _, _, rfl, .inr rfl, hslots, hleave⟩

theorem addsOnce_addNonReference {s : State} (hgeneral : s.dpbMax ≠ 2) {inc : Picture} (ho : inc.out = false) :
    AddsOnce inc s (addNonReference inc s) := by
  rw [addNonReference]
  split_ifs
  · exact ⟨_, [], .stOk, _, _, rfl, .inl rfl, SlotsOk.gc, .nothing (pending_gc s.slots).symm⟩
  · obtain ⟨outs, l', e, hrun, hbumps, hend⟩ := makeRoom_gc_cases (late := smallerNonRef inc)
      (fun m hm => ((smallerNonRef_iff inc m).1 hm).imp fun _ h => ⟨h.1, h.2.1⟩) s.dpbMax s.slots
    have hslots : SlotsOk s.dpbMax s.slots → SlotsOk s.dpbMax l' := fun h => hbumps.slotsOk h.gc
    have hleave := hbumps.leavesOnce.of_perm (pending_gc s.slots).symm
    simp only [hrun]
    rcases hend with ⟨rfl, -, hroom⟩ | ⟨rfl, -⟩ | ⟨rfl, -⟩
    · exact ⟨l' ++ [inc], outs, .stOk, _, _, rfl, .inl rfl,
        fun h => (hslots h).insert hroom ho fun h => absurd h hgeneral, hleave.keep (pending_append_singleton ho l')⟩
    · exact ⟨l', _, .stOk, _, _, rfl, .inl rfl, hslots, hleave.leave ho⟩
    · exact ⟨l', outs, .eDpbExhausted, _, _, rfl, .inr rfl, hslots, hleave⟩

/-- A picture that takes the place of another makes it leave, unless that was output already. -/
theorem leavesOnce_replace {l : List Picture} {i : Nat} {old inc : Picture} (hi : l[i]? = some old) (ho : inc.out = false) :
    LeavesOnce (inc :: pending l) (pending (l.set i inc)) (if old.out then [] else [released old]) := by
  obtain ⟨hlt, rfl⟩ := List.getElem?_eq_some_iff.1 hi
  have hbefore : List.Perm (pending l) (pending (l[i] :: l.eraseIdx i)) :=
    pending_perm (List.getElem_cons_eraseIdx_perm hlt).symm
  have hafter : List.Perm (pending (l.set i inc)) (inc :: pending (l.eraseIdx i)) :=
    (pending_perm (List.set_perm_cons_eraseIdx hlt inc)).trans (by rw [pending_cons, if_neg (by simp [ho])])
  rw [pending_cons] at hbefore
  cases hout : l[i].out with
  | true =>
    rw [if_pos hout] at hbefore
    exact (LeavesOnce.nothing hbefore).keep hafter
  | false =>
    rw [if_neg (by simp [hout])] at hbefore
    exact (((LeavesOnce.nothing (.refl _)).leave hout).of_perm hbefore).keep hafter

theorem addsOnce_addTwoSlot {s : State} (htwo : s.dpbMax = 2) {inc : Picture} (ho : inc.out = false) :
    AddsOnce inc s (addTwoSlot inc s) := by
  rw [addTwoSlot]
  split_ifs with hr
  · split
    · next a b hs =>
      have hi : [a, b][olderOfTwo a b]? = some (if olderOfTwo a b = 1 then b else a) := by
        unfold olderOfTwo
        split <;> rfl
      refine ⟨_, _, .stOk, _, _, rfl, .inl rfl, ?_, ?_⟩
      · rw [hs]
        exact fun h => h.replace _ hr
      · rw [hs]
        exact leavesOnce_replace hi ho
    · next hne =>
      refine ⟨_, _, .stOk, _, _, rfl, .inl rfl, fun h => h.insert (fun hfull => ?_) ho fun _ => hr,
        (LeavesOnce.nothing (.refl _)).keep (pending_append_singleton ho s.slots)⟩
      obtain ⟨a, b, hs⟩ := List.length_eq_two.1 (hfull.trans htwo)
      exact hne a b hs
  · exact ⟨s.slots, _, .stOk, _, _, rfl, .inl rfl, id, (LeavesOnce.nothing (.refl _)).leave ho⟩

/-- `DPB_ADD` in any policy, past its checks. -/
theorem addsOnce_add {s : State} {inc : Picture} (ho : inc.out = false) :
    AddsOnce inc s (if s.dpbMax = 2 then addTwoSlot inc s
      else if inc.ref = true then addReference inc s else addNonReference inc s) := by
  split_ifs with htwo hr
  · exact addsOnce_addTwoSlot htwo ho
  · exact addsOnce_addReference htwo ho
  · exact addsOnce_addNonReference htwo ho

/-! ### `DPB_BUMP` and `DPB_FLUSH` -/

theorem exec_dpbFlush_of_init {s : State} (hp : s.port = .P) (hi : s.dpbInit = true) :
    exec .dpbFlush s = .next ((s.putDpb [] (bumpAll s.slots.length s.slots)).done .stOk
      (u32 (bumpAll s.slots.length s.slots).length)) := by
  rw [exec, execDpbFlush, onDpb_of_init hp hi]

theorem leavesOnce_flush (l : List Picture) : LeavesOnce (pending l) (pending []) (bumpAll l.length l) := by
  obtain ⟨l', hbumps, hall⟩ := bumpAll_spec l.length l (pending_length_le _)
  have h := hbumps.leavesOnce
  rwa [(allOutput_iff_pending l').1 hall] at h

/-- Settles O53: the three commands end in slots and outputs that `LeavesOnce` relates. -/
theorem picturesLeaveExactlyOnce : Obligations.PicturesLeaveExactlyOnce := by
  intro s t hp hi
  refine ⟨fun inc r ho hexec hans => ?_, ?_⟩
  · rw [exec_dpbAdd_of_init hp hi ho] at hexec
    obtain ⟨l, outs, st, r0, r1, ht, -, -, qs, hqs, rfl, hperm⟩ := addsOnce_add (s := s) ho
    rw [Host.Outcome.next.inj hexec] at ht
    subst ht
    obtain rfl := hans.unique (responses_done (s.putDpb l (qs.map released)) st r0 r1 0#32 0#32)
    refine ⟨qs, hqs, rfl, ?_⟩
    split_ifs with hin
    · rwa [if_pos hin] at hperm
    · rwa [if_neg hin] at hperm
  · rintro (hexec | hexec)
    · rw [exec, execDpbBump, onDpb_of_init hp hi] at hexec
      rcases bump_spec s.slots with ⟨p, l', hbump, hbumped⟩ | ⟨hbump, -⟩
      · obtain ⟨q, hq, rfl, hperm⟩ := hbumped.perm
        simp only [hbump] at hexec
        cases hexec
        exact ⟨[q], by simpa using hq, rfl, hperm⟩
      · simp only [hbump] at hexec
        cases hexec
        exact ⟨[], by simp, by simp, .refl _⟩
    · rw [exec_dpbFlush_of_init hp hi] at hexec
      cases hexec
      obtain ⟨qs, hqs, houts, hperm⟩ := leavesOnce_flush s.slots
      exact ⟨qs, hqs, congrArg _ houts, hperm⟩

end Sys2Proof.Machine
end

section
/-! PROOFS. What a command can do (60_exceptions R272, R275; 20_memory R60), said once for all commands: the changes it can
make before it answers, and the statuses it can answer. What holds of every command is derived from that. -/

namespace Sys2Proof.Machine

/-! ### The pictures the reorder pipeline makes (44_reorder_output R211, R212) -/

theorem enqueued_assign (idr : Bool) (surf : Half) (s : State) : Enqueued s (assign idr surf (restartGop idr s)) := by
  have hnum : (restartGop idr s).frameNumCtr.toNat % frameNumRange (restartGop idr s) < 2 ^ 10 :=
    (Nat.mod_lt _ (Nat.two_pow_pos _)).trans_le (frameNumRange_le _)
  have hcfg : (restartGop idr s).cfg = s.cfg := by rw [restartGop_eq]
  refine ⟨rfl, rfl, rfl, ?_, ?_, ?_, ?_⟩
  · rw [assign_type]
    split_ifs <;> simp
  · refine (Nat.mod_le _ _).trans_lt ?_
    rw [hcfg]
    exact Nat.mod_lt _ (Nat.two_pow_pos _)
  · exact (Nat.mod_le _ _).trans_lt hnum
  · intro hidr
    obtain rfl : idr = true := hidr
    refine ⟨by rw [assign_type, if_pos (.inl rfl)], ?_, ?_⟩ <;> simp [assign, restartGop]

/-! ### What a command can change before it answers -/

/-- With status `st`, command `i` can have changed `s` to `u` before it answers. -/
inductive Change (i : Instr) (s : State) : Status → State → Prop where
  | refused {st : Status} (hst : st.isFailure = true) : Change i s st s
  | unchanged {st : Status} (hst : st.isFailure = false) (hraw : .raw ∉ mayWrite i := by simp [mayWrite]) :
    Change i s st s
  | reset (hi : i = .sreset) (hp : s.port = .P) : Change i s .stOk (cancelWait s.cWait (resetItems s))
  | maxRef {n : Nat} (hpos : 1 ≤ n) (hle : n ≤ s.cfg.rplSlots) (hset : s.refset.length ≤ n)
    (hi : .rplMax ∈ mayWrite i := by simp [mayWrite]) : Change i s .stOk { s with maxRef := n }
  | maxL0 {n : Nat} (hle : n ≤ s.cfg.rplSlots) (hi : .rplMax ∈ mayWrite i := by simp [mayWrite]) :
    Change i s .stOk { s with maxL0 := n }
  | maxL1 {n : Nat} (hle : n ≤ s.cfg.rplSlots) (hi : .rplMax ∈ mayWrite i := by simp [mayWrite]) :
    Change i s .stOk { s with maxL1 := n }
  | keyPeriod {v : Word} (hi : .periods ∈ mayWrite i := by simp [mayWrite]) : Change i s .stOk { s with keyPeriod := v }
  | intraPeriod {v : Word} (hi : .periods ∈ mayWrite i := by simp [mayWrite]) :
    Change i s .stOk { s with intraPeriod := v }
  | clearedWriter (hi : i = .bswClear) :
    Change i s .stOk { s with raw := [], nbits := 0, sealed := false, emu := [], emuLen := 0 }
  | field {n v : Nat} (hs : s.sealed = false) (hfits : s.nbits + n ≤ 8 * s.cfg.bswCapBytes)
    (hi : .raw ∈ mayWrite i := by simp [mayWrite]) :
    Change i s .stOk { s with raw := bitWrite s.raw s.nbits n v, nbits := s.nbits + n }
  | burst {tag : BurstTag} {bs : List Byte} (hi : .byteout ∈ mayWrite i := by simp [mayWrite]) :
    Change i s .stOk (s.emit tag bs)
  | sealing (hs : s.sealed = false) (haligned : s.nbits % 8 = 0) {e : List Byte}
    (he : e = epb (Memory.bytes s.raw (s.nbits / 8)))
    (hi : .emu ∈ mayWrite i ∧ .byteout ∈ mayWrite i := by simp [mayWrite]) :
    Change i s .stOk ((sealWith e s).emit .epb e)
  | pushedByte {byte : Byte} (hroom : s.rlen ≠ s.cfg.bsrCapBytes) (hi : .rbuf ∈ mayWrite i := by simp [mayWrite]) :
    Change i s .stOk { s with rbuf := Memory.write s.rbuf s.rlen byte, rlen := s.rlen + 1 }
  | loaded {b : List Byte} (hle : b.length ≤ s.cfg.bsrCapBytes ∨ b.length ≤ s.rlen)
    (hi : .rbuf ∈ mayWrite i ∧ .rpos ∈ mayWrite i := by simp [mayWrite]) :
    Change i s .stOk { s with rbuf := Memory.ofBytes b, rlen := b.length, rpos := 0 }
  | moved {n : Nat} (hle : n ≤ avail s) (hi : .rpos ∈ mayWrite i := by simp [mayWrite]) :
    Change i s .stOk { s with rpos := s.rpos + n }
  | sizedDpb {n : Nat} (hpos : 1 ≤ n) (hle : n ≤ s.cfg.dpbSlots)
    (hi : .dpbSize ∈ mayWrite i ∧ .slots ∈ mayWrite i := by simp [mayWrite]) :
    Change i s .stOk { s with dpbInit := true, dpbMax := n, slots := [] }
  | dpb {st : Status} {l outs : List Picture} (hslots : SlotsOk s.dpbMax s.slots → SlotsOk s.dpbMax l)
    (hout : ∀ p ∈ outs, p.out = true)
    (hi : .slots ∈ mayWrite i ∧ .picout ∈ mayWrite i := by simp [mayWrite]) : Change i s st (s.putDpb l outs)
  | enteredRef {e : RefEntry} {kept : List RefEntry}
    (hle : 1 ≤ s.maxRef → s.refset.length ≤ s.maxRef → kept.length + 1 ≤ s.maxRef)
    (hi : .refset ∈ mayWrite i := by simp [mayWrite]) : Change i s .stOk { s with refset := e :: kept }
  | latched {l0 l1 : List RefEntry} (hl0 : l0.length ≤ s.maxL0) (hl1 : l1 = [])
    (hi : .lists ∈ mayWrite i := by simp [mayWrite]) : Change i s .stOk { s with l0 := l0, l1 := l1 }
  | enqueued {p : Picture} {fi ctr pi : Word} (hroom : s.roq.length ≠ s.cfg.roqDepth) (hp : Enqueued s p)
    (hctr : ctr.toNat < 2 ^ 10) (hi : .reorder ∈ mayWrite i := by simp [mayWrite]) :
    Change i s .stOk
      { s with
        roq := s.roq ++ [p], frameIdx := fi, frameNumCtr := ctr, presIdx := pi
        seenFirst := true, ropState := .dumpFrames }
  | submitted {p : Picture} {rest : List Picture} (hroq : s.roq = p :: rest)
    (hi : .reorder ∈ mayWrite i := by simp [mayWrite]) :
    Change i s .stOk { s with roq := rest, ropState := if rest = [] then .waitFrames else .dumpFrames }
  | pushedEntry {p : Picture} {buf : Word} (hroom : s.outq.length ≠ s.cfg.outqDepth)
    (hi : .outq ∈ mayWrite i := by simp [mayWrite]) : Change i s .stOk { s with outq := s.outq ++ [outEntry p buf] }
  | poppedEntry {e : OutEntry} {rest : List OutEntry} (hq : s.outq = e :: rest) (hi : i = .outqPop) :
    Change i s .stOk { s with outq := rest }
  | endedWait (hp : s.port = .C) (hi : .wait ∈ mayWrite i := by simp [mayWrite]) : Change i s .stOk { s with cWait := false }

/-! ### How a command can end -/

/-- Status `st` is one that the table of R272 lists for `i`, for a command that a packet can carry and a writer within its
capacity; the number kept for the host (R270) it never is. -/
structure Listed (i : Instr) (s : State) (st : Status) : Prop where
  ne_eEncodeFail : st ≠ .eEncodeFail
  listed : i.wf = true → s.nbits ≤ 8 * s.cfg.bswCapBytes →
    st = .stOk ∨ st = .ePort ∧ permitted i s.port = false ∨ st ∈ otherStatuses i

theorem eEncodeFail_not_mem_otherStatuses (i : Instr) : .eEncodeFail ∉ otherStatuses i := by
  cases i <;> simp [otherStatuses]

theorem Listed.stOk (i : Instr) (s : State) : Listed i s .stOk := ⟨nofun, fun _ _ => .inl rfl⟩

theorem Listed.of_mem {i : Instr} {s : State} {st : Status} (h : st ∈ otherStatuses i := by simp [otherStatuses]) :
    Listed i s st :=
  ⟨fun he => eEncodeFail_not_mem_otherStatuses i (he ▸ h), fun _ _ => .inr (.inr h)⟩

/-- Command `i`, executed in `s`, can end in `t`: it has made a change and answers a listed status, or it is an `OUTQ_WAIT`
that is held. -/
inductive Acts (i : Instr) (s : State) : State → Prop where
  | answers {st : Status} {u : State} {r0 r1 r2 r3 : Word} (hc : Change i s st u) (hst : Listed i s st) :
    Acts i s (u.done st r0 r1 r2 r3)
  | held (hi : i = .outqWait) (hp : s.port = .C) (hq : s.outq = []) : Acts i s { s with cWait := true }

namespace Acts

variable {i : Instr} {s a b u : State} {st : Status} {r0 r1 r2 r3 : Word}

theorem ok (hc : Change i s .stOk u) : Acts i s (u.done .stOk r0 r1 r2 r3) := answers hc (.stOk i s)

theorem fails (hst : st.isFailure = true) (hmem : st ∈ otherStatuses i := by simp [otherStatuses]) :
    Acts i s (s.fail st) := answers (.refused hst) (.of_mem hmem)

/-- An answer that is no failure and not `ST_OK` either. -/
theorem tells (hst : st.isFailure = false) (hmem : st ∈ otherStatuses i := by simp [otherStatuses])
    (hraw : .raw ∉ mayWrite i := by simp [mayWrite]) : Acts i s (s.done st r0 r1 r2 r3) :=
  answers (.unchanged hst hraw) (.of_mem hmem)

theorem ite {c : Prop} [Decidable c] (ha : c → Acts i s a) (hb : ¬c → Acts i s b) : Acts i s (if c then a else b) := by
  split_ifs with hc
  · exact ha hc
  · exact hb hc

theorem onProducer (hperm : permitted i .C = false) (h : s.port = .P → Acts i s a) : Acts i s (onProducer s a) := by
  cases hp : s.port with
  | P => rw [onProducer_of_P hp]; exact h hp
  | C =>
    rw [onProducer_of_C hp]
    exact answers (.refused rfl) ⟨nofun, fun _ _ => .inr (.inl ⟨rfl, hp ▸ hperm⟩)⟩

theorem onConsumer (hperm : permitted i .P = false) (h : s.port = .C → Acts i s a) : Acts i s (onConsumer s a) := by
  cases hp : s.port with
  | P =>
    rw [onConsumer_of_P hp]
    exact answers (.refused rfl) ⟨nofun, fun _ _ => .inr (.inl ⟨rfl, hp ▸ hperm⟩)⟩
  | C => rw [onConsumer_of_C hp]; exact h hp

/-- The checks of a flags byte: with a reserved bit set, no packet carries the command. -/
theorem withFlags {f : Byte} {body : PicType → State} (hperm : permitted i .C = false) (hwf : i.wf = flagsReservedClear f)
    (h : ∀ t, Acts i s (body t)) (hmem : .eInvalidParam ∈ otherStatuses i := by simp [otherStatuses]) :
    Acts i s (withFlags f s body) := by
  refine ite (fun hbad => ?_) fun _ => onProducer hperm fun _ => ?_
  · refine answers (.refused rfl) ⟨nofun, fun hi _ => ?_⟩
    rw [hwf] at hi
    simp_all [flagsIllegal, flagsReservedClear]
  · split
    · exact fails rfl hmem
    · exact h _

/-- The DPB's opening: the port, then `E_NOT_INIT`. -/
theorem onDpb (hperm : permitted i .C = false) (h : Acts i s a)
    (hmem : .eNotInit ∈ otherStatuses i := by simp [otherStatuses]) : Acts i s (onDpb s a) :=
  onProducer hperm fun _ => ite (fun _ => fails rfl hmem) fun _ => h

end Acts

/-! ### The operations that commands share -/

section

variable {i : Instr} {s : State}

theorem putField_acts {n v : Nat} (hspace : 8 * s.cfg.bswCapBytes < s.nbits + n → Listed i s .eNoSpace)
    (hraw : .raw ∈ mayWrite i := by simp [mayWrite]) (hsealed : .eSealed ∈ otherStatuses i := by simp [otherStatuses]) :
    Acts i s (putField n v s) :=
  .ite (fun _ => .fails rfl hsealed) fun hs => .ite (fun hfull => .answers (.refused rfl) (hspace hfull))
    fun hfits => .ok (.field (by simpa using hs) (by omega) hraw)

theorem loadChecked_acts {src : Bool} (b : List Byte) : Acts (.bsrLoad src) s (loadChecked b s) :=
  .ite (fun _ => .fails rfl) fun hroom => .ok (.loaded (.inl (by omega)))

theorem getCode_acts {result : Nat → Word} (hi : i = .getUe ∨ i = .getSe) : Acts i s (getCode result s) := by
  have hrange : .eEgRange ∈ otherStatuses i := by rcases hi with rfl | rfl <;> simp [otherStatuses]
  have hunder : .eUnderrun ∈ otherStatuses i := by rcases hi with rfl | rfl <;> simp [otherStatuses]
  have hrpos : .rpos ∈ mayWrite i := by rcases hi with rfl | rfl <;> simp [mayWrite]
  rcases readUe_spec s.rbuf s.rpos (avail s) with ⟨-, -, h⟩ | ⟨-, -, h⟩ | ⟨n, -, -, -, h⟩
  · rw [getCode, h]
    exact .fails rfl hrange
  · rw [getCode, h]
    exact .fails rfl hunder
  · split_ifs at h with hle
    · rw [getCode, h]
      exact .ok (.moved hle hrpos)
    · rw [getCode, h]
      exact .fails rfl hunder

theorem writeCsr_acts (addr : Half) (value : Word) (c : Csr) (v : Word) : Acts (.csrw addr value) s (writeCsr c v s) := by
  by_cases hc : c ∈ Csr.writable
  · fin_cases hc
    · exact .ite (fun _ => .fails rfl) fun hrange => .ite (fun _ => .fails rfl)
        fun hset => .ok (.maxRef (by omega) (by omega) (by omega))
    · exact .ite (fun _ => .fails rfl) fun hrange => .ok (.maxL0 (by omega))
    · exact .ite (fun _ => .fails rfl) fun hrange => .ok (.maxL1 (by omega))
    · exact .ok .keyPeriod
    · exact .ok .intraPeriod
    · exact .ite (fun _ => .fails rfl) fun _ => .ok (.unchanged rfl)
  · exact writeCsr_of_not_writable hc v s ▸ .fails rfl

theorem add_acts {f : Byte} {surf n : Half} {poc : Word} {inc : Picture} (ho : inc.out = false) :
    Acts (.dpbAdd f surf poc n) s (if s.dpbMax = 2 then addTwoSlot inc s
      else if inc.ref = true then addReference inc s else addNonReference inc s) := by
  obtain ⟨l, outs, st, r0, r1, ht, hst, hslots, hleave⟩ := addsOnce_add (s := s) ho
  rw [ht]
  refine .answers (.dpb hslots hleave.outs_out) ?_
  rcases hst with rfl | rfl
  · exact .stOk _ s
  · exact .of_mem

theorem enqueue_acts {force idr : Bool} {surf : Half} {p : Picture} (hroom : s.roq.length ≠ s.cfg.roqDepth)
    (hp : Enqueued s p) : Acts (.ropEnq force surf) s (answerRop p (enqueue p (restartGop idr s))) := by
  have hctr : (enqueue p (restartGop idr s)).frameNumCtr.toNat < 2 ^ 10 := by
    rw [toNat_enqueue_frameNumCtr]
    exact (Nat.mod_lt _ (Nat.two_pow_pos _)).trans_le (frameNumRange_le _)
  rw [restartGop_eq] at hctr ⊢
  exact .ok (.enqueued hroom hp hctr)

end

/-! ### Every command -/

/-- Every command acts in one of the ways of `Acts`. -/
theorem exec_acts (i : Instr) (s : State) : ∃ t, exec i s = .next t ∧ Acts i s t := by
  cases i with
  | nop => exact ⟨_, rfl, .ok (.unchanged rfl)⟩
  | sreset => exact ⟨_, rfl, .onProducer rfl fun hp => .ok (.reset rfl hp)⟩
  | csrr addr =>
    refine ⟨_, rfl, ?_⟩
    split
    · exact .fails rfl
    · exact .ok (.unchanged rfl)
  | csrw addr value =>
    refine ⟨_, rfl, .onProducer rfl fun _ => ?_⟩
    split
    · exact .fails rfl
    · exact writeCsr_acts _ _ _ _
  | bswClear => exact ⟨_, rfl, .onProducer rfl fun _ => .ok (.clearedWriter rfl)⟩
  | putBits width value =>
    exact ⟨_, rfl, .onProducer rfl fun _ => .ite (fun _ => .fails rfl) fun _ => .ite (fun _ => .fails rfl)
      fun _ => putField_acts fun _ => .of_mem⟩
  | putUe value =>
    exact ⟨_, rfl, .onProducer rfl fun _ => .ite (fun _ => .fails rfl)
      fun _ => putField_acts fun _ => .of_mem⟩
  | putSe value =>
    exact ⟨_, rfl, .onProducer rfl fun _ => .ite (fun _ => .fails rfl)
      fun _ => putField_acts fun _ => .of_mem⟩
  | align fill =>
    -- the gap to the next byte boundary is always there
    exact ⟨_, rfl, .onProducer rfl fun _ => putField_acts fun hfull => ⟨nofun, fun _ hcap => by omega⟩⟩
  | nalHdr refIdc unitType =>
    exact ⟨_, rfl, .onProducer rfl fun _ => putField_acts fun _ => .of_mem⟩
  | rbspTrail => exact ⟨_, rfl, .onProducer rfl fun _ => putField_acts fun _ => .of_mem⟩
  | emitRaw limit =>
    exact ⟨_, rfl, .onProducer rfl fun _ => .ite (fun _ => .fails rfl) fun _ => .ite (fun _ => .fails rfl) fun _ => .ok .burst⟩
  | emitEpb limit =>
    exact ⟨_, rfl, .onProducer rfl fun _ => .ite (fun _ => .ite (fun _ => .fails rfl) fun _ => .ok .burst)
      fun hs => .ite (fun _ => .fails rfl) fun haligned => .ite (fun _ => .fails rfl)
        fun _ => .ok (.sealing (by simpa using hs) (by omega) rfl)⟩
  | bsrClear => exact ⟨_, rfl, .onProducer rfl fun _ => .ok (.loaded (b := []) (.inl (Nat.zero_le _)))⟩
  | bsrPush byte => exact ⟨_, rfl, .onProducer rfl fun _ => .ite (fun _ => .fails rfl) fun hroom => .ok (.pushedByte hroom)⟩
  | bsrLoad src =>
    exact ⟨_, rfl, .onProducer rfl fun _ => .ite (fun _ => .ite (fun _ => loadChecked_acts _) fun _ => .fails rfl)
      fun _ => .ite (fun _ => .fails rfl) fun _ => loadChecked_acts _⟩
  | bsrUnesc =>
    refine ⟨_, rfl, .onProducer rfl fun _ => .ite (fun _ => .fails rfl) fun _ => .ok (.loaded (.inr ?_))⟩
    exact (length_unescape_le _ _).trans (by simp)
  | getBits width =>
    exact ⟨_, rfl, .onProducer rfl fun _ => .ite (fun _ => .fails rfl) fun _ => .ite (fun _ => .fails rfl)
      fun hroom => .ok (.moved (by omega))⟩
  | getUe => exact ⟨_, rfl, .onProducer rfl fun _ => getCode_acts (.inl rfl)⟩
  | getSe => exact ⟨_, rfl, .onProducer rfl fun _ => getCode_acts (.inr rfl)⟩
  | dpbInit cap =>
    exact ⟨_, rfl, .onProducer rfl fun _ => .ite (fun _ => .fails rfl) fun hcap => .ok (.sizedDpb (by omega) (by omega))⟩
  | dpbAdd flags surf poc frameNum =>
    refine ⟨_, rfl, .withFlags rfl rfl fun t => .ite (fun _ => .fails rfl) fun hout => .ite (fun _ => .fails rfl) fun _ => ?_⟩
    simp only [dpbTwo, beq_iff_eq]
    exact add_acts (by simpa [pictureOf] using hout)
  | dpbBump =>
    refine ⟨_, rfl, .onDpb rfl ?_⟩
    rcases bump_spec s.slots with ⟨p, l', hbump, hbumped⟩ | ⟨hbump, -⟩
    · simp only [hbump]
      refine .ok (.dpb hbumped.slotsOk ?_)
      obtain ⟨q, -, rfl, -⟩ := hbumped.perm
      simp
    · simp only [hbump]
      exact .tells rfl
  | dpbFlush =>
    exact ⟨_, rfl, .onDpb rfl (.ok (.dpb (fun _ => ⟨Nat.zero_le _, by simp [NoGarbage], by simp⟩)
      (leavesOnce_flush s.slots).outs_out))⟩
  | dpbOldest want =>
    refine ⟨_, rfl, .onDpb rfl ?_⟩
    split
    · exact .ok (.unchanged rfl)
    · exact .ok (.unchanged rfl)
  | dpbNeigh poc => exact ⟨_, rfl, .onDpb rfl (.ok (.unchanged rfl))⟩
  | rplUpdate flags surf poc frameNum =>
    refine ⟨_, rfl, .withFlags rfl rfl fun t => .ite (fun _ => .fails rfl) fun _ => .ite (fun _ => .ok (.unchanged rfl))
      fun _ => .ok (.enteredRef fun hpos hle => ?_)⟩
    split_ifs <;> simp <;> omega
  | rplInit flags =>
    exact ⟨_, rfl, .withFlags rfl rfl fun t => .ite (fun _ => .fails rfl)
      fun _ => .ok (.latched (List.length_take_le _ _) List.take_nil)⟩
  | rplRead which index =>
    refine ⟨_, rfl, .onProducer rfl fun _ => ?_⟩
    split
    · exact .fails rfl
    · exact .ok (.unchanged rfl)
  | ropEnq force surf =>
    exact ⟨_, rfl, .onProducer rfl fun _ => .ite (fun _ => .fails rfl) fun hroom => enqueue_acts hroom (enqueued_assign _ _ _)⟩
  | ropSubmit =>
    refine ⟨_, rfl, .onProducer rfl fun _ => ?_⟩
    split
    · exact .tells rfl
    · exact .tells rfl
    · next hroq => exact .ok (.submitted hroq)
  | outqPush flags surf poc frameNum buf =>
    exact ⟨_, rfl, .withFlags rfl rfl fun t => .ite (fun _ => .fails rfl) fun hroom => .ok (.pushedEntry hroom)⟩
  | outqPeek =>
    refine ⟨_, rfl, ?_⟩
    unfold answerFront
    split
    · exact .tells rfl
    · exact .ok (.unchanged rfl)
  | outqPop =>
    refine ⟨_, rfl, ?_⟩
    split
    · exact .tells rfl
    · next hq => exact .ok (.poppedEntry hq rfl)
  | outqWait =>
    refine ⟨_, rfl, .onConsumer rfl fun hp => .ite (fun hq => .held rfl hp hq) fun hq => ?_⟩
    obtain ⟨e, q, hq⟩ := List.exists_cons_of_ne_nil hq
    rw [answerFront_of_cons (s := { s with cWait := false }) hq, ← done_eq_answered _ .stOk _ _ _ _ rfl]
    exact .ok (.endedWait hp)

theorem acts_of_exec {i : Instr} {s t : State} (h : exec i s = .next t) : Acts i s t := by
  obtain ⟨u, hu, hacts⟩ := exec_acts i s
  obtain rfl : u = t := Host.Outcome.next.inj (hu.symm.trans h)
  exact hacts

/-! ### What no change touches -/

section

variable {i : Instr} {s u : State} {st : Status}

@[simp] theorem cancelWait_port (held : Bool) (s : State) : (cancelWait held s).port = s.port := by cases held <;> rfl

/-- The parameters and the model's own fields (logs 1, 3, 12). -/
theorem Change.own (hc : Change i s st u) :
    u.cfg = s.cfg ∧ u.port = s.port ∧ u.grants = s.grants ∧ u.grantCount = s.grantCount := by
  cases hc
  case reset => cases s.cWait <;> exact ⟨rfl, rfl, rfl, rfl⟩
  all_goals exact ⟨rfl, rfl, rfl, rfl⟩

/-- Before the answer only an `SRESET` changes `errlog`, or responds. -/
theorem Change.silent (hc : Change i s st u) (hi : i ≠ .sreset) :
    u.errlog = s.errlog ∧ u.respP = s.respP ∧ u.respC = s.respC := by
  cases hc
  case reset h _ => exact absurd h hi
  all_goals exact ⟨rfl, rfl, rfl⟩

/-- A part that the command may not write (20_memory R60). -/
theorem Change.frame (hc : Change i s st u) {part : Part} (hpart : part ∉ mayWrite i) : sameOn part s u := by
  cases hc
  case reset hi _ =>
    subst hi
    cases s.cWait <;> cases part <;> simp_all [mayWrite, sameOn, resetItems, cancelWait]
  case clearedWriter hi =>
    subst hi
    cases part <;> simp_all [mayWrite, sameOn]
  case poppedEntry hi =>
    subst hi
    cases part <;> simp_all [mayWrite, sameOn]
  -- the written parts are not `part`, the others are as they were
  all_goals cases part <;> simp_all [sameOn, sealWith]

/-- While the writer is sealed only its clear and the `SRESET` change it, and a command that would write it fails (R111). -/
theorem Change.frozen (hc : Change i s st u) (hs : s.sealed = true) (hclear : i ≠ .bswClear) (hreset : i ≠ .sreset) :
    (u.raw = s.raw ∧ u.nbits = s.nbits ∧ u.sealed = true ∧ u.emu = s.emu ∧ u.emuLen = s.emuLen) ∧
      (.raw ∈ mayWrite i → st.isFailure = true) := by
  have honly : .raw ∈ mayWrite i → mayWrite i = [.raw] := by cases i <;> simp_all [mayWrite]
  cases hc with
  | refused hst => exact ⟨⟨rfl, rfl, hs, rfl, rfl⟩, fun _ => hst⟩
  | unchanged _ hraw => exact ⟨⟨rfl, rfl, hs, rfl, rfl⟩, fun h => absurd h hraw⟩
  | reset h => exact absurd h hreset
  | clearedWriter h => exact absurd h hclear
  | field hs' | sealing hs' => rw [hs] at hs'; cases hs'
  -- every other change writes a part that no writing command may write
  | _ => exact ⟨⟨rfl, rfl, hs, rfl, rfl⟩, fun h => by simp_all [mayWrite]⟩

/-- Only a pop and the `SRESET` take an entry out of the output queue, and a push appends one (R217, R221). -/
theorem Change.outq_prefix (hc : Change i s st u) (hpop : i ≠ .outqPop) (hreset : i ≠ .sreset) : s.outq <+: u.outq := by
  cases hc
  case reset h _ => exact absurd h hreset
  case poppedEntry h => exact absurd h hpop
  case pushedEntry => exact List.prefix_append _ _
  all_goals exact List.prefix_refl _

/-- Before the answer the issuing port has received nothing: a wait that `SRESET` ends is port C's. -/
theorem Change.responses_port (hc : Change i s st u) : u.responses s.port = s.responses s.port := by
  cases hc with
  | reset _ hp => cases s.cWait <;> simp [cancelWait, resetItems, State.responses, hp]
  | _ => rfl

/-- The issuing port has received the answer. -/
theorem Change.answersWith_done (hc : Change i s st u) (r0 r1 r2 r3 : Word) :
    AnswersWith s (u.done st r0 r1 r2 r3) ⟨st, r0, r1, r2, r3⟩ := by
  obtain ⟨-, hport, -⟩ := hc.own
  rw [AnswersWith, ← hc.responses_port, ← hport]
  exact responses_done u st r0 r1 r2 r3

/-- The other port has not. -/
theorem Change.responses_done_other (hc : Change i s st u) (hi : i ≠ .sreset) (r0 r1 r2 r3 : Word) {p : Port}
    (hp : p ≠ s.port) : (u.done st r0 r1 r2 r3).responses p = s.responses p := by
  obtain ⟨-, hport, -⟩ := hc.own
  obtain ⟨-, hP, hC⟩ := hc.silent hi
  cases p <;> simp [State.responses, hport, hP, hC, hp.symm]

/-- An answer touches no part. -/
theorem sameOn_done {part : Part} (h : sameOn part s u) (r0 r1 r2 r3 : Word) : sameOn part s (u.done st r0 r1 r2 r3) := by
  cases part <;> exact h

end

/-! ### Responses and statuses (60_exceptions R270 to R275) -/

/-- The bits that a status sets in `errlog`, by its number. -/
theorem errBits_eq (st : Status) :
    st.errBits = if 0x10 ≤ st.code.toNat then BitVec.twoPow 32 (st.code.toNat - 0x10) else 0#32 := by
  simp [Status.errBits, Status.isFailure, BitVec.twoPow]

/-- Settles O12: status by status. -/
theorem statusNumbers : Obligations.StatusNumbers := by
  refine ⟨⟨by decide, by decide⟩, by decide, fun st => ?_, fun st => ?_⟩
  · cases st <;> decide
  · cases st <;> decide

/-- Settles O14: what a command in a state within the invariants acts with, the table lists. -/
theorem onlyTheListedStatuses : Obligations.OnlyTheListedStatuses := by
  intro i s t hwf hinv hexec
  cases acts_of_exec hexec with
  | answers hc hst => exact .inl ⟨_, hc.answersWith_done _ _ _ _, hst.listed hwf hinv.writer.nbitsLe⟩
  | held hi hp hq => exact .inr ⟨hi, hp, hq, rfl⟩

/-- Settles O16: before its answer a command other than `SRESET` leaves `errlog` and the responses as they are. -/
theorem oneResponseOnTheIssuingPort : Obligations.OneResponseOnTheIssuingPort := by
  intro i s t hi hexec
  cases acts_of_exec hexec with
  | @answers st u _ _ _ _ hc hst =>
    refine ⟨fun p hp => hc.responses_done_other hi _ _ _ _ hp, .inl ⟨_, hc.answersWith_done _ _ _ _, ?_⟩⟩
    rw [State.done_errlog, (hc.silent hi).1, errBits_eq]
  | held hi => exact ⟨fun p _ => by cases p <;> rfl, .inr ⟨hi, rfl⟩⟩

/-! ### Frames -/

/-- Settles O17: each change keeps to the command's parts, and the answer touches none. -/
theorem commandsWriteOnlyTheirParts : Obligations.CommandsWriteOnlyTheirParts := by
  intro i s t hexec
  cases acts_of_exec hexec with
  | answers hc => exact ⟨fun part hpart => sameOn_done (hc.frame hpart) _ _ _ _, hc.own⟩
  | held hi =>
    subst hi
    refine ⟨fun part hpart => ?_, rfl, rfl, rfl, rfl⟩
    cases part <;> simp_all [mayWrite, sameOn]

/-- Settles O30: a sealed writer is not changed, and a command that writes it can only have been refused. -/
theorem sealedWriterIsFrozen : Obligations.SealedWriterIsFrozen := by
  intro i s t hs hexec hclear hreset
  cases acts_of_exec hexec with
  | answers hc =>
    obtain ⟨⟨hraw, hnbits, hsealed, hemu, hlen⟩, hfail⟩ := hc.frozen hs hclear hreset
    exact ⟨hraw, hnbits, hsealed, hemu, hlen, fun h => ⟨_, hc.answersWith_done _ _ _ _, hfail h⟩⟩
  | held hi =>
    subst hi
    exact ⟨rfl, rfl, hs, rfl, rfl, by simp [mayWrite]⟩

/-- Settles O60: no change but a pop or a reset takes an entry out. -/
theorem frontOfTheOutputQueueIsStable : Obligations.FrontOfTheOutputQueueIsStable := by
  intro i s t hexec hpop hreset
  cases acts_of_exec hexec with
  | answers hc => exact hc.outq_prefix hpop hreset
  | held => exact List.prefix_refl _

/-! ### `NOP` and `SRESET` (45_system R235, R236) -/

theorem word_and_or_self (a b : Word) : a &&& (a ||| b) = a := by
  apply BitVec.eq_of_getLsbD_eq
  intro k _
  rw [BitVec.getLsbD_and, BitVec.getLsbD_or]
  exact inf_sup_self

/-- No command but `SRESET` clears a bit of `errlog`. -/
theorem errlog_of_exec {i : Instr} {s t : State} (hi : i ≠ .sreset) (hexec : exec i s = .next t) :
    s.errlog &&& t.errlog = s.errlog := by
  cases acts_of_exec hexec with
  | answers hc => rw [State.done_errlog, (hc.silent hi).1, word_and_or_self]
  | held => exact BitVec.and_self

/-- Settles O21: `SRESET` is the reset of the items, the end of a held wait, and the answer. -/
theorem nopAndSreset : Obligations.NopAndSreset := by
  refine ⟨rfl, producerCommand_of_onProducer rfl fun _ => ⟨_, rfl⟩, fun s => ?_, fun s hp => ?_,
    fun i s t hi hexec => errlog_of_exec hi hexec⟩
  · rw [exec, execNop, done_eq_answered _ _ _ _ _ _ rfl]
  · rw [exec_sreset_of_P hp, done_eq_answered _ _ _ _ _ _ rfl]
    cases hw : s.cWait <;> simp [cancelWait, resetItems, State.respond, dropPartial, hp]

end Sys2Proof.Machine
end

section
/-! PROOFS. The invariants of 10_state R37: they hold at reset, each change keeps them unit by unit, and so does everything else
that a step does. -/

namespace Sys2Proof.Machine

/-! ### At reset -/

theorem bitAt_nil (p : Nat) : bitAt [] p = false := by simp [bitAt, Memory.read]

theorem writerInv_resetWith (p : Params) : WriterInv (State.resetWith p) where
  rawWf := Memory.wf_nil
  emuWf := Memory.wf_nil
  nbitsLe := Nat.zero_le _
  rawZero q _ := bitAt_nil q
  emuLenLe := Nat.zero_le _
  emuZero _ _ := rfl
  unsealed _ := rfl
  isSealed := nofun

theorem readerInv_resetWith (p : Params) : ReaderInv (State.resetWith p) where
  rbufWf := Memory.wf_nil
  rlenLe := Nat.zero_le _
  rposLe := Nat.zero_le _
  rbufZero _ _ := rfl

theorem dpbInv_resetWith (p : Params) : DpbInv (State.resetWith p) where
  uninit _ := rfl
  inited := nofun
  slotsLe := Nat.zero_le _
  noGarbage := nofun
  twoSlot := nofun

theorem rplInv_resetWith {p : Params} (hp : p.Ok) : RplInv (State.resetWith p) := by
  obtain ⟨-, -, -, hslots, -⟩ := hp
  exact ⟨Nat.zero_le _, Nat.le_refl _, hslots, hslots, Nat.zero_le _, Nat.zero_le _, rfl⟩

theorem ropInv_resetWith (p : Params) : RopInv (State.resetWith p) where
  dumping := ⟨nofun, fun h => absurd rfl h⟩
  roqLe := Nat.zero_le _
  roqMade := nofun
  seen h := absurd rfl h
  frameNumCtrLt := Nat.two_pow_pos 10
  outqLe := Nat.zero_le _
  outqFlags := nofun

theorem blockInv_resetWith {p : Params} (hp : p.Ok) : BlockInv (State.resetWith p) where
  params := hp
  writer := writerInv_resetWith p
  reader := readerInv_resetWith p
  dpb := dpbInv_resetWith p
  rpl := rplInv_resetWith hp
  rop := ropInv_resetWith p
  errlog := BitVec.zero_and
  picout := nofun

/-- Settles O19: the default parameters meet the constraints. -/
theorem resetMeetsTheInvariants : Obligations.ResetMeetsTheInvariants :=
  ⟨fun _ hp => blockInv_resetWith hp, blockInv_resetWith (by decide)⟩

/-! ### Changes, unit by unit -/

section

variable {i : Instr} {s u : State} {st : Status}

theorem Change.writerInv (hc : Change i s st u) (h : WriterInv s) : WriterInv u := by
  cases hc with
  | reset => cases s.cWait <;> exact { writerInv_resetWith s.cfg with }
  | clearedWriter => exact { writerInv_resetWith s.cfg with }
  | @field n v hs hfits =>
    exact { h with
      rawWf := wf_bitWrite h.rawWf _ _ _
      nbitsLe := hfits
      rawZero := fun p hp => by
        have hp : s.nbits + n ≤ p := hp
        rw [bitAt_bitWrite h.rawWf, if_neg (by omega)]
        exact h.rawZero p (by omega)
      isSealed := fun hs' => by rw [hs] at hs'; cases hs' }
  | @sealing hs haligned e he =>
    obtain ⟨-, -, -, hemu⟩ := escapedLength
    exact { h with
      emuWf := Memory.wf_ofBytes e
      emuLenLe := by
        have hbytes : s.nbits / 8 ≤ s.cfg.bswCapBytes := by have := h.nbitsLe; omega
        exact he ▸ hemu s.cfg _ (by simpa using hbytes)
      emuZero := fun i hi => (Memory.read_ofBytes e i).trans (List.getD_eq_default _ _ hi)
      unsealed := nofun
      isSealed := fun _ => ⟨haligned, (Memory.bytes_ofBytes e).trans he⟩ }
  | _ => exact { h with }

theorem Change.readerInv (hc : Change i s st u) (h : ReaderInv s) : ReaderInv u := by
  cases hc with
  | reset => cases s.cWait <;> exact { readerInv_resetWith s.cfg with }
  | @pushedByte byte hroom =>
    have hlen := h.rlenLe
    have hpos := h.rposLe
    exact { h with
      rbufWf := Memory.wf_write h.rbufWf _ _
      rlenLe := show s.rlen + 1 ≤ s.cfg.bsrCapBytes by omega
      rposLe := show s.rpos ≤ 8 * (s.rlen + 1) by omega
      rbufZero := fun i hi => by
        have hi : s.rlen + 1 ≤ i := hi
        rw [Memory.read_write h.rbufWf, if_neg (by omega)]
        exact h.rbufZero i (by omega) }
  | @loaded b hle =>
    exact { h with
      rbufWf := Memory.wf_ofBytes b
      rlenLe := hle.elim id h.rlenLe.trans'
      rposLe := Nat.zero_le _
      rbufZero := fun i hi => (Memory.read_ofBytes b i).trans (List.getD_eq_default _ _ hi) }
  | @moved n hle =>
    have hpos := h.rposLe
    exact { h with
      rposLe := by
        rw [avail] at hle
        show s.rpos + n ≤ 8 * s.rlen
        omega }
  | _ => exact { h with }

theorem DpbInv.slotsOk (h : DpbInv s) : SlotsOk s.dpbMax s.slots := ⟨h.slotsLe, h.noGarbage, h.twoSlot⟩

theorem Change.dpbInv (hc : Change i s st u) (h : DpbInv s) : DpbInv u := by
  cases hc with
  | reset => cases s.cWait <;> exact { dpbInv_resetWith s.cfg with }
  | sizedDpb hpos hle => exact ⟨nofun, fun _ => ⟨hpos, hle⟩, Nat.zero_le _, nofun, nofun⟩
  | dpb hslots =>
    obtain ⟨hlen, hclean, htwo⟩ := hslots h.slotsOk
    exact { h with slotsLe := hlen, noGarbage := hclean, twoSlot := htwo }
  | _ => exact { h with }

theorem Change.rplInv (hc : Change i s st u) (hcfg : s.cfg.Ok) (h : RplInv s) : RplInv u := by
  cases hc with
  | reset => cases s.cWait <;> exact { rplInv_resetWith hcfg with }
  | maxRef hpos hle hset => exact { h with refsetLe := hset, maxRefPos := hpos, maxRefLe := hle }
  | maxL0 hle => exact { h with maxL0Le := hle }
  | maxL1 hle => exact { h with maxL1Le := hle }
  | enteredRef hle => exact { h with refsetLe := hle h.maxRefPos h.refsetLe }
  | latched hl0 hl1 => exact { h with l0Le := hl0.trans h.maxL0Le, l1Nil := hl1 }
  | _ => exact { h with }

theorem Enqueued.of_cfg {t : State} {p : Picture} (h : Enqueued s p) (hcfg : t.cfg = s.cfg) : Enqueued t p :=
  { h with pocLt := hcfg ▸ h.pocLt }

/-- An entry as a push makes it (R218). -/
theorem outEntry_flags (p : Picture) (buf : Word) :
    (outEntry p buf).eof = true ∧ ((outEntry p buf).sync = true ↔ (outEntry p buf).pic.type = .I) :=
  ⟨rfl, beq_iff_eq⟩

theorem Change.ropInv (hc : Change i s st u) (h : RopInv s) : RopInv u := by
  have hsame : ∀ p, Enqueued s p → Enqueued u p := fun p hp => hp.of_cfg hc.own.1
  have hmade : ∀ p ∈ s.roq, Enqueued u p := fun p hp => hsame p (h.roqMade p hp)
  have hroqLe := h.roqLe
  have houtqLe := h.outqLe
  cases hc with
  | reset => cases s.cWait <;> exact { ropInv_resetWith s.cfg with roqMade := nofun }
  | @enqueued p fi ctr pi hroom hp hctr =>
    exact { h with
      dumping := by simp
      roqLe := by
        show (s.roq ++ [p]).length ≤ s.cfg.roqDepth
        rw [List.length_append, List.length_singleton]
        omega
      roqMade := fun q hq => by
        rcases List.mem_append.1 hq with hq | hq
        · exact hmade q hq
        · exact (List.mem_singleton.1 hq) ▸ hsame p hp
      seen := fun _ => rfl
      frameNumCtrLt := hctr }
  | @submitted p rest hroq =>
    rw [hroq] at hroqLe
    exact { h with
      dumping := by
        show (if rest = [] then RopState.waitFrames else .dumpFrames) = .dumpFrames ↔ rest ≠ []
        split <;> simp_all
      roqLe := Nat.le_of_succ_le hroqLe
      roqMade := fun q hq => hmade q (hroq ▸ List.mem_cons_of_mem p hq)
      seen := fun _ => h.seen (hroq ▸ List.cons_ne_nil p rest) }
  | @pushedEntry p buf hroom =>
    exact { h with
      roqMade := hmade
      outqLe := by
        show (s.outq ++ [outEntry p buf]).length ≤ s.cfg.outqDepth
        rw [List.length_append, List.length_singleton]
        omega
      outqFlags := fun e he => by
        rcases List.mem_append.1 he with he | he
        · exact h.outqFlags e he
        · exact (List.mem_singleton.1 he) ▸ outEntry_flags p buf }
  | @poppedEntry e rest hq =>
    rw [hq] at houtqLe
    exact { h with
      roqMade := hmade
      outqLe := Nat.le_of_succ_le houtqLe
      outqFlags := fun x hx => h.outqFlags x (hq ▸ List.mem_cons_of_mem e hx) }
  | _ => exact { h with roqMade := hmade }

/-- The bits of `errlog` that are 0 stay so until the answer. -/
theorem Change.errlog_clear (hc : Change i s st u) (h : s.errlog &&& 0xFFFF8010#32 = 0#32) :
    u.errlog &&& 0xFFFF8010#32 = 0#32 := by
  cases hc with
  | reset => cases s.cWait <;> exact BitVec.zero_and
  | _ => exact h

/-- Pictures leave as output (R35). -/
theorem Change.picout_out (hc : Change i s st u) (h : ∀ p ∈ s.picout, p.out = true) : ∀ p ∈ u.picout, p.out = true := by
  cases hc with
  | reset => simpa using h
  | dpb _ hout => exact fun p hp => (List.mem_append.1 hp).elim (h p) (hout p)
  | _ => exact h

/-- Every change keeps the invariants. -/
theorem Change.blockInv (hc : Change i s st u) (h : BlockInv s) : BlockInv u where
  params := hc.own.1 ▸ h.params
  writer := hc.writerInv h.writer
  reader := hc.readerInv h.reader
  dpb := hc.dpbInv h.dpb
  rpl := hc.rplInv h.params h.rpl
  rop := hc.ropInv h.rop
  errlog := hc.errlog_clear h.errlog
  picout := hc.picout_out h.picout

end

/-! ### What is no unit's -/

/-- The ports' words and responses, the wait, the decisions and the executing port are no matter to the invariants, and of
`errlog` only the bits that are 0 are. -/
theorem BlockInv.of_interface {s : State} (h : BlockInv s) {e : Word} (he : e &&& 0xFFFF8010#32 = 0#32) (wait : Bool)
    (inP inC : List Word) (respP respC : List Response) (port : Port) (grants : List Port) (n : Nat) :
    BlockInv { s with
      errlog := e, cWait := wait, inP := inP, inC := inC, respP := respP, respC := respC, port := port, grants := grants,
      grantCount := n } where
  params := h.params
  writer := { h.writer with }
  reader := { h.reader with }
  dpb := { h.dpb with }
  rpl := { h.rpl with }
  rop := { h.rop with roqMade := fun p hp => (h.rop.roqMade p hp).of_cfg rfl }
  errlog := he
  picout := h.picout

theorem errBits_clear {st : Status} (hst : st ≠ .eEncodeFail) : st.errBits &&& 0xFFFF8010#32 = 0#32 := by
  cases st
  case eEncodeFail => exact absurd rfl hst
  all_goals decide

/-- An answer keeps the invariants: no bit of `errlog` that is 0 is a status's, but for the number kept for the host (R270). -/
theorem BlockInv.done {s : State} (h : BlockInv s) {st : Status} (hst : st ≠ .eEncodeFail) (r0 r1 r2 r3 : Word) :
    BlockInv (s.done st r0 r1 r2 r3) := by
  have he : (s.errlog ||| st.errBits) &&& 0xFFFF8010#32 = 0#32 := by
    rw [BitVec.and_or_distrib_right, h.errlog, errBits_clear hst, BitVec.or_self]
  exact h.of_interface he _ _ _ _ _ _ _ _

/-- Every command keeps the invariants. -/
theorem blockInv_of_exec {i : Instr} {s t : State} (h : BlockInv s) (hexec : exec i s = .next t) : BlockInv t := by
  cases acts_of_exec hexec with
  | answers hc hst => exact (hc.blockInv h).done hst.ne_eEncodeFail _ _ _ _
  | held => exact h.of_interface h.errlog _ _ _ _ _ _ _ _

end Sys2Proof.Machine
end

section
/-! PROOFS. Steps (20_memory R68, 30_encoding R81, 70_reset_and_hazards R325): what a decision of the arbiter leads to, said
once; what every step keeps; and that each port moves again, so that a held wait ends. -/

namespace Sys2Proof.Machine

/-! ### What a step can do -/

/-- From `s` a step can lead to `t`: by the granted port's held wait, by its having no whole packet, or by its next packet,
which the decoder rejects or a command runs. -/
inductive StepsTo (s : State) : State → Prop where
  | wait (hheld : holds s (granted s) = true) : StepsTo s (endWait (takeGrant s))
  | idle (hheld : holds s (granted s) = false) (hnone : takePacket (s.inbox (granted s)) = none) : StepsTo s (takeGrant s)
  | reject {packet rest : List Word} (hheld : holds s (granted s) = false)
    (hpacket : takePacket (s.inbox (granted s)) = some (packet, rest)) :
    StepsTo s (rejectPacket (startPacket (takeGrant s) (granted s) rest))
  | run {packet rest : List Word} {i : Instr} {t : State} (hheld : holds s (granted s) = false)
    (hpacket : takePacket (s.inbox (granted s)) = some (packet, rest)) (hdec : decode packet = .ok i)
    (hexec : exec i (startPacket (takeGrant s) (granted s) rest) = .next t) : StepsTo s t

theorem step_of_held {s : State} (hheld : holds s (granted s) = true) : step s = .next (endWait (takeGrant s)) := by
  simp [step, moveOf, hheld]

theorem step_of_idle {s : State} (hheld : holds s (granted s) = false) (hnone : takePacket (s.inbox (granted s)) = none) :
    step s = .next (takeGrant s) := by
  simp [step, moveOf, hheld, hnone]

theorem step_of_packet {s : State} {packet rest : List Word} (hheld : holds s (granted s) = false)
    (hpacket : takePacket (s.inbox (granted s)) = some (packet, rest)) :
    step s = runPacket packet (startPacket (takeGrant s) (granted s) rest) := by
  simp [step, moveOf, hheld, hpacket]

/-- Every step leads somewhere. -/
theorem exists_stepsTo (s : State) : ∃ t, step s = .next t ∧ StepsTo s t := by
  cases hheld : holds s (granted s) with
  | true => exact ⟨_, step_of_held hheld, .wait hheld⟩
  | false =>
    cases hpacket : takePacket (s.inbox (granted s)) with
    | none => exact ⟨_, step_of_idle hheld hpacket, .idle hheld hpacket⟩
    | some pr =>
      rw [step_of_packet hheld hpacket, runPacket]
      cases hdec : decode pr.1 with
      | error e => exact ⟨_, rfl, .reject hheld hpacket⟩
      | ok i =>
        obtain ⟨t, hexec, -⟩ := exec_acts i (startPacket (takeGrant s) (granted s) pr.2)
        exact ⟨t, hexec, .run hheld hpacket hdec hexec⟩

theorem stepsTo_of_step {s t : State} (h : step s = .next t) : StepsTo s t := by
  obtain ⟨u, hu, hsteps⟩ := exists_stepsTo s
  obtain rfl : u = t := Host.Outcome.next.inj (hu.symm.trans h)
  exact hsteps

/-- Settles O10: no way a command acts and no way a step goes is a stop. -/
theorem everyStepHasANextState : Obligations.EveryStepHasANextState :=
  ⟨fun i s => (exec_acts i s).imp fun _ h => h.1, fun s => (exists_stepsTo s).imp fun _ h => h.1⟩

/-! ### The command at the head of a port -/

/-- Where the decoder finds a command, its packet is what the port cuts off. -/
theorem takePacket_of_decode {ws : List Word} {i : Instr} (hdec : decode ws = .ok i) :
    takePacket ws = some (encode i, ws.drop (encode i).length) := by
  obtain ⟨-, hws⟩ := eq_encode_of_decode hdec
  conv_lhs => rw [hws]
  exact takePacket_encode i _

/-- A command's packet alone decodes to it. -/
theorem decode_encode_self {ws : List Word} {i : Instr} (hdec : decode ws = .ok i) : decode (encode i) = .ok i := by
  obtain ⟨hwf, -⟩ := eq_encode_of_decode hdec
  simpa using decode_encode hwf []

theorem append_of_takePacket {ws packet rest : List Word} (hpacket : takePacket ws = some (packet, rest)) :
    packet ++ rest = ws := by
  unfold takePacket at hpacket
  split at hpacket
  · cases hpacket
  · split at hpacket <;> cases hpacket
    exact List.take_append_drop _ _

/-- What a cut-off packet decodes to, the port's words decode to. -/
theorem decode_of_takePacket {ws packet rest : List Word} {i : Instr} (hpacket : takePacket ws = some (packet, rest))
    (hdec : decode packet = .ok i) : decode ws = .ok i := by
  obtain ⟨hwf, hpk⟩ := eq_encode_of_decode hdec
  rw [← append_of_takePacket hpacket, hpk, List.append_assoc]
  exact decode_encode hwf _

/-- A step with a command at the head of the granted port executes it. -/
theorem step_of_decode {s : State} {i : Instr} (hheld : holds s (granted s) = false)
    (hdec : decode (s.inbox (granted s)) = .ok i) :
    step s = exec i (startPacket (takeGrant s) (granted s) ((s.inbox (granted s)).drop (encode i).length)) := by
  rw [step_of_packet hheld (takePacket_of_decode hdec), runPacket, decode_encode_self hdec]

/-- Settles O8: `step_of_decode`, and the packet's start field by field. -/
theorem stepRunsTheDecodedCommand : Obligations.StepRunsTheDecodedCommand :=
  ⟨fun _ _ hheld hdec => step_of_decode hheld hdec, fun _ _ _ => rfl⟩

/-! ### Every step keeps the invariants -/

theorem BlockInv.takeGrant {s : State} (h : BlockInv s) : BlockInv (takeGrant s) :=
  h.of_interface h.errlog _ _ _ _ _ _ _ _

theorem BlockInv.startPacket {s : State} (h : BlockInv s) (p : Port) (ws : List Word) : BlockInv (startPacket s p ws) :=
  h.of_interface h.errlog _ _ _ _ _ _ _ _

/-- The end of a held wait: nothing on an empty queue, else an answer on port C that is no failure (R222). -/
theorem endWait_cases (s : State) :
    (s.outq = [] ∧ endWait s = s) ∨
      ∃ e q, s.outq = e :: q ∧ endWait s = { s with cWait := false, port := .C }.done .stOk e.pic.poc
        (e.pic.frameNum.setWidth 32) (piwWith e.sync e.eof e.pic) e.buf := by
  by_cases hnil : s.outq = []
  · exact .inl ⟨hnil, if_pos hnil⟩
  · obtain ⟨e, q, hq⟩ := List.exists_cons_of_ne_nil hnil
    refine .inr ⟨e, q, hq, ?_⟩
    rw [endWait, if_neg hnil, answerFront_of_cons (s := { s with cWait := false, port := .C }) hq,
      done_eq_answered _ _ _ _ _ _ rfl]

theorem BlockInv.endWait {s : State} (h : BlockInv s) : BlockInv (endWait s) := by
  rcases endWait_cases s with ⟨-, heq⟩ | ⟨e, q, -, heq⟩
  · rwa [heq]
  · rw [heq]
    exact (h.of_interface h.errlog _ _ _ _ _ _ _ _).done (by decide) _ _ _ _

/-- Settles O20: the port's part of a step is no matter to the invariants, and its command keeps them. -/
theorem everyStepKeepsTheInvariants : Obligations.EveryStepKeepsTheInvariants := by
  intro s t h hstep
  cases stepsTo_of_step hstep with
  | wait => exact h.takeGrant.endWait
  | idle => exact h.takeGrant
  | reject => exact (h.takeGrant.startPacket _ _).done (st := .eIllegal) (by decide) _ _ _ _
  | run _ _ _ hexec => exact blockInv_of_exec (h.takeGrant.startPacket _ _) hexec

/-! ### What only grows (10_state R35, 20_memory R68) -/

/-- The parameters stay, and the output logs and the responses of `s` are continued in `t`. -/
structure Continues (s t : State) : Prop where
  cfg : t.cfg = s.cfg
  picout : s.picout <+: t.picout
  byteout : s.byteout <+: t.byteout
  respP : s.respP <+: t.respP
  respC : s.respC <+: t.respC

theorem Continues.trans {s t u : State} (h : Continues s t) (h' : Continues t u) : Continues s u :=
  ⟨h'.cfg.trans h.cfg, h.picout.trans h'.picout, h.byteout.trans h'.byteout, h.respP.trans h'.respP, h.respC.trans h'.respC⟩

theorem Continues.refl (s : State) : Continues s s :=
  ⟨rfl, List.prefix_refl _, List.prefix_refl _, List.prefix_refl _, List.prefix_refl _⟩

theorem continues_respond (s : State) (p : Port) (r : Response) : Continues s (s.respond p r) := by
  refine ⟨rfl, List.prefix_refl _, List.prefix_refl _, ?_, ?_⟩ <;> cases p <;> simp

theorem continues_done (s : State) (st : Status) (r0 r1 r2 r3 : Word) : Continues s (s.done st r0 r1 r2 r3) :=
  { continues_respond s s.port ⟨st, r0, r1, r2, r3⟩ with }

theorem Change.continues {i : Instr} {s u : State} {st : Status} (hc : Change i s st u) : Continues s u := by
  cases hc with
  | reset =>
    have hreset : Continues s (resetItems s) := { Continues.refl s with }
    cases s.cWait with
    | false => exact hreset
    | true => exact hreset.trans (continues_respond _ .C _)
  | burst | sealing => exact { Continues.refl s with byteout := List.prefix_append _ _ }
  | dpb => exact { Continues.refl s with picout := List.prefix_append _ _ }
  | _ => exact { Continues.refl s with }

theorem continues_of_exec {i : Instr} {s t : State} (hexec : exec i s = .next t) : Continues s t := by
  cases acts_of_exec hexec with
  | answers hc => exact hc.continues.trans (continues_done _ _ _ _ _ _)
  | held => exact { Continues.refl s with }

theorem continues_endWait (s : State) : Continues s (endWait s) := by
  rcases endWait_cases s with ⟨-, heq⟩ | ⟨e, q, -, heq⟩
  · rw [heq]
    exact .refl s
  · rw [heq]
    exact (show Continues s { s with cWait := false, port := .C } from { Continues.refl s with }).trans
      (continues_done _ _ _ _ _ _)

theorem continues_startPacket (s : State) (p : Port) (ws : List Word) : Continues s (startPacket (takeGrant s) p ws) :=
  { Continues.refl s with }

theorem continues_of_step {s t : State} (hsteps : StepsTo s t) : Continues s t := by
  cases hsteps with
  | wait => exact (show Continues s (takeGrant s) from { Continues.refl s with }).trans (continues_endWait _)
  | idle => exact { Continues.refl s with }
  | reject => exact (continues_startPacket s _ _).trans (continues_done _ _ _ _ _ _)
  | run _ _ _ hexec => exact (continues_startPacket s _ _).trans (continues_of_exec hexec)

/-! ### The words of the ports and `errlog` -/

/-- The words of both ports stay and no bit of `errlog` is cleared, but by an `SRESET` on port P, which makes the ports idle. -/
def KeepsWords (i : Instr) (s t : State) : Prop :=
  (t.inP = s.inP ∧ t.inC = s.inC ∧ s.errlog &&& t.errlog = s.errlog) ∨
    i = .sreset ∧ s.port = .P ∧ t.inP = dropPartial s.inP ∧ t.inC = dropPartial s.inC

theorem keepsWords_of_exec {i : Instr} {s t : State} (hexec : exec i s = .next t) : KeepsWords i s t := by
  cases acts_of_exec hexec with
  | answers hc =>
    cases hc with
    | reset hi hp => exact .inr ⟨hi, hp, by cases s.cWait <;> exact ⟨rfl, rfl⟩⟩
    | _ => exact .inl ⟨rfl, rfl, word_and_or_self _ _⟩
  | held => exact .inl ⟨rfl, rfl, BitVec.and_self⟩

/-- What O11 says of the ports' words and of `errlog` across a step from `s` to `t`. -/
def StepKeepsWords (s t : State) : Prop :=
  t.inP <:+ s.inP ∧ t.inC <:+ s.inC ∧ (granted s = .C → t.inP = s.inP) ∧
  (granted s = .P → t.inC = s.inC ∨ decode s.inP = .ok .sreset ∧ takePacket s.inC = none ∧ t.inC = []) ∧
  ((granted s = .P ∧ decode s.inP = .ok .sreset) ∨ s.errlog &&& t.errlog = s.errlog)

/-- A step that takes a packet from the granted port only. -/
theorem stepKeepsWords_of_rest {s t : State} {rest : List Word} (hrest : rest <:+ s.inbox (granted s))
    (hP : t.inP = if granted s = .P then rest else s.inP) (hC : t.inC = if granted s = .C then rest else s.inC)
    (herr : s.errlog &&& t.errlog = s.errlog) : StepKeepsWords s t := by
  cases hg : granted s with
  | P =>
    rw [hg] at hP hC hrest
    exact ⟨hP ▸ hrest, hC ▸ List.suffix_refl _, fun h => by simp [hg] at h, fun _ => .inl hC, .inr herr⟩
  | C =>
    rw [hg] at hP hC hrest
    exact ⟨hP ▸ List.suffix_refl _, hC ▸ hrest, fun _ => hP, fun h => by simp [hg] at h, .inr herr⟩

/-- A step that executes an `SRESET` from port P. -/
theorem stepKeepsWords_of_sreset {s t : State} {rest : List Word} (hg : granted s = .P) (hdec : decode s.inP = .ok .sreset)
    (hrest : rest <:+ s.inP) (hP : t.inP = dropPartial rest) (hC : t.inC = dropPartial s.inC) : StepKeepsWords s t := by
  refine ⟨hP ▸ (dropPartial_suffix rest).trans hrest, hC ▸ dropPartial_suffix _, fun h => by simp [hg] at h, fun _ => ?_,
    .inl ⟨hg, hdec⟩⟩
  rw [hC]
  rcases dropPartial_cases s.inC with ⟨hnone, hdrop⟩ | ⟨-, hdrop⟩
  · exact .inr ⟨hdec, hnone, hdrop⟩
  · exact .inl hdrop

theorem stepKeepsWords_of_step {s t : State} (hsteps : StepsTo s t) : StepKeepsWords s t := by
  have hnone : ∀ {u : State}, u.inP = s.inP → u.inC = s.inC → s.errlog &&& u.errlog = s.errlog → StepKeepsWords s u :=
    fun hP hC herr => ⟨hP ▸ List.suffix_refl _, hC ▸ List.suffix_refl _, fun _ => hP, fun _ => .inl hC, .inr herr⟩
  cases hsteps with
  | wait =>
    rcases endWait_cases (takeGrant s) with ⟨-, heq⟩ | ⟨e, q, -, heq⟩
    · rw [heq]
      exact hnone rfl rfl BitVec.and_self
    · rw [heq]
      exact hnone rfl rfl (word_and_or_self _ _)
  | idle => exact hnone rfl rfl BitVec.and_self
  | reject _ hpacket =>
    exact stepKeepsWords_of_rest ⟨_, append_of_takePacket hpacket⟩ rfl rfl (word_and_or_self _ _)
  | @run packet rest i _ _ hpacket hdec hexec =>
    have hrest : rest <:+ s.inbox (granted s) := ⟨_, append_of_takePacket hpacket⟩
    rcases keepsWords_of_exec hexec with ⟨hP, hC, herr⟩ | ⟨rfl, hp, hP, hC⟩
    · exact stepKeepsWords_of_rest hrest hP hC herr
    · have hg : granted s = .P := hp
      rw [hg] at hpacket hrest hP hC
      exact stepKeepsWords_of_sreset hg (decode_of_takePacket hpacket hdec) hrest hP hC

/-- Settles O11: the logs and responses are continued, and the words leave as `StepKeepsWords` says. -/
theorem historiesOnlyGrow : Obligations.HistoriesOnlyGrow := by
  intro s t hstep
  obtain ⟨hcfg, hpic, hbyte, hrespP, hrespC⟩ := continues_of_step (stepsTo_of_step hstep)
  exact ⟨hcfg, hpic, hbyte, hrespP, hrespC, stepKeepsWords_of_step (stepsTo_of_step hstep)⟩

/-! ### The decisions along a run (20_memory R71) -/

/-- After a step the decisions are those that follow the one it has used up. -/
theorem decisions_of_step {s t : State} (hsteps : StepsTo s t) : decisions t = decisions (takeGrant s) := by
  cases hsteps with
  | wait =>
    rcases endWait_cases (takeGrant s) with ⟨-, heq⟩ | ⟨e, q, -, heq⟩
    · rw [heq]
    · rw [heq]
      exact decisions_congr rfl rfl
  | idle => rfl
  | reject => exact decisions_congr rfl rfl
  | run _ _ _ hexec =>
    obtain ⟨-, -, -, hgrants, hcount⟩ := commandsWriteOnlyTheirParts _ _ _ hexec
    exact decisions_congr hgrants hcount

theorem after_succ {s t : State} (hstep : step s = .next t) (k : Nat) : after (k + 1) s = after k t := by
  rw [after, hstep]

/-- The last step of a run is a step from where the run led before it. -/
theorem after_succ_last (k : Nat) (s : State) : step (after k s) = .next (after (k + 1) s) := by
  induction k generalizing s with
  | zero =>
    obtain ⟨t, hstep, -⟩ := exists_stepsTo s
    rw [after_succ hstep]
    exact hstep
  | succ k ih =>
    obtain ⟨t, hstep, -⟩ := exists_stepsTo s
    rw [after_succ hstep, after_succ hstep]
    exact ih t

theorem movesAfter_zero {s : State} {p : Port} (hg : granted s = p) : MovesAfter s p 0 :=
  ⟨hg, fun _ hj => absurd hj (Nat.not_lt_zero _)⟩

theorem movesAfter_succ {s t : State} {p : Port} {k : Nat} (hstep : step s = .next t) (hg : granted s ≠ p)
    (h : MovesAfter t p k) : MovesAfter s p (k + 1) := by
  refine ⟨by rw [after_succ hstep]; exact h.1, fun j hj => ?_⟩
  cases j with
  | zero => exact hg
  | succ j =>
    rw [after_succ hstep]
    exact h.2 j (by omega)

/-- A port that is among the decisions moves. -/
theorem exists_movesAfter_of_mem {p : Port} {l : List Port} : ∀ {s : State}, decisions s = l → p ∈ l →
    ∃ k, MovesAfter s p k := by
  induction l with
  | nil => exact fun _ hp => nomatch hp
  | cons q l ih =>
    intro s hl hp
    obtain ⟨hq, hgrants⟩ := List.cons.inj ((decisions_eq_cons s).symm.trans hl)
    by_cases hg : granted s = p
    · exact ⟨0, movesAfter_zero hg⟩
    · obtain ⟨t, hstep, hsteps⟩ := exists_stepsTo s
      have hpl : p ∈ l := (List.mem_cons.1 hp).resolve_left fun h => hg (hq.trans h.symm)
      have ht : decisions t = l := by
        rw [decisions_of_step hsteps, decisions_of_ne_nil (by rw [hgrants]; exact List.ne_nil_of_mem hpl), hgrants]
      exact (ih ht hpl).imp' (· + 1) fun _ h => movesAfter_succ hstep hg h

/-- Each port moves again: it is among the decisions already made, or in the round after them. -/
theorem exists_movesAfter (p : Port) {l : List Port} : ∀ {s : State}, decisions s = l → ∃ k, MovesAfter s p k := by
  induction l with
  | nil => exact fun {s} hl => absurd hl (decisions_ne_nil s)
  | cons q l ih =>
    intro s hl
    obtain ⟨-, hgrants⟩ := List.cons.inj ((decisions_eq_cons s).symm.trans hl)
    by_cases hg : granted s = p
    · exact ⟨0, movesAfter_zero hg⟩
    · obtain ⟨t, hstep, hsteps⟩ := exists_stepsTo s
      have hnext : ∃ k, MovesAfter t p k := by
        by_cases hnil : l = []
        · refine exists_movesAfter_of_mem ?_ (mem_arbiterRound (takeGrant s).grantCount p)
          rw [decisions_of_step hsteps, decisions_of_nil (hgrants.trans hnil)]
        · refine ih ?_
          rw [decisions_of_step hsteps, decisions_of_ne_nil (by rwa [hgrants]), hgrants]
      exact hnext.imp' (· + 1) fun _ h => movesAfter_succ hstep hg h

/-! ### A held wait (44_reorder_output R222, 70_reset_and_hazards R325) -/

/-- A command of port P keeps the wait of port C and what port C has received, or empties the output queue. -/
theorem keeps_wait_of_exec {i : Instr} {s t : State} (hp : s.port = .P) (hexec : exec i s = .next t) :
    t.outq = [] ∨ t.cWait = s.cWait ∧ t.respC = s.respC := by
  cases acts_of_exec hexec with
  | answers hc =>
    have hport := hc.own.2.1.trans hp
    have hresp : ∀ u : State, u.port = .P → ∀ st r0 r1 r2 r3, (u.done st r0 r1 r2 r3).respC = u.respC := by simp +contextual
    cases hc with
    | reset => exact .inl (by cases s.cWait <;> rfl)
    | endedWait hC => simp [hp] at hC
    | _ => exact .inr ⟨rfl, hresp _ hport _ _ _ _ _⟩
  | held _ hC => simp [hp] at hC

theorem keeps_wait_of_reject {s : State} (hp : s.port = .P) :
    (rejectPacket s).cWait = s.cWait ∧ (rejectPacket s).respC = s.respC := by
  simp [rejectPacket, State.fail, hp]

/-- While port P moves and the output queue stays non-empty, a held wait stays held, without a response. -/
theorem keeps_wait_of_step {s t : State} (hg : granted s = .P) (hsteps : StepsTo s t) (hq : t.outq ≠ []) :
    t.cWait = s.cWait ∧ t.respC = s.respC := by
  cases hsteps with
  | wait hheld => simp [hg, holds] at hheld
  | idle => exact ⟨rfl, rfl⟩
  | @reject _ rest => exact keeps_wait_of_reject (s := startPacket (takeGrant s) (granted s) rest) hg
  | run _ _ _ hexec => exact (keeps_wait_of_exec hg hexec).resolve_left hq

theorem holds_C (s : State) : holds s .C = s.cWait := rfl

/-- A grant of port C while its wait is held ends the wait, on an entry. -/
theorem step_of_wait {s : State} {e : OutEntry} {q : List OutEntry} (hg : granted s = .C) (hwait : s.cWait = true)
    (hq : s.outq = e :: q) :
    step s = .next (answered { takeGrant s with cWait := false, port := .C } .stOk e.pic.poc
      (e.pic.frameNum.setWidth 32) (piwWith e.sync e.eof e.pic) e.buf) := by
  rw [step_of_held (by rw [hg, holds_C, hwait])]
  rcases endWait_cases (takeGrant s) with ⟨hnil, -⟩ | ⟨e', q', hq', heq⟩
  · exact absurd (hnil.symm.trans hq) (List.cons_ne_nil e q).symm
  · obtain ⟨rfl, -⟩ := List.cons.inj (hq'.symm.trans hq)
    rw [heq, done_eq_answered _ _ _ _ _ _ rfl]

/-- Up to port C's next move a wait stays held, as long as the output queue stays non-empty. -/
theorem wait_held_until {s : State} {k : Nat} (hmoves : MovesAfter s .C k) (hwait : s.cWait = true)
    (hq : ∀ j, j ≤ k → (after j s).outq ≠ []) {j : Nat} (hj : j ≤ k) :
    (after j s).cWait = true ∧ (after j s).respC = s.respC := by
  induction j with
  | zero => exact ⟨hwait, rfl⟩
  | succ j ih =>
    obtain ⟨hheld, hresp⟩ := ih (by omega)
    have hg : granted (after j s) = .P := by
      cases hg : granted (after j s) with
      | P => rfl
      | C => exact absurd hg (hmoves.2 j (by omega))
    obtain ⟨hc, hr⟩ := keeps_wait_of_step hg (stepsTo_of_step (after_succ_last j s)) (hq (j + 1) hj)
    exact ⟨hc.trans hheld, hr.trans hresp⟩

/-- A decision in front names the port, and is gone when its packet starts. -/
theorem step_of_grant {s : State} {p : Port} {i : Instr} (hheld : holds s p = false) (hdec : decode (s.inbox p) = .ok i) :
    step { s with grants := p :: s.grants } = exec i (startPacket s p ((s.inbox p).drop (encode i).length)) := by
  have hg : granted { s with grants := p :: s.grants } = p := granted_of_grants rfl
  have hin : { s with grants := p :: s.grants }.inbox p = s.inbox p := by cases p <;> rfl
  have hhold : holds { s with grants := p :: s.grants } p = false := by cases p <;> exact hheld
  rw [step_of_decode (by rwa [hg]) (by rw [hg, hin]; exact hdec), hg, hin, takeGrant_of_grants rfl]

theorem startPacket_P (s : State) (ws : List Word) : startPacket s .P ws = { s with inP := ws, port := .P } := rfl

theorem startPacket_C (s : State) (ws : List Word) : startPacket s .C ws = { s with inC := ws, port := .C } := rfl

/-- Settles O9: a decision is data in front of the port's move; the run to port C's next move goes by port P's. -/
theorem readyAndWaitingPorts : Obligations.ReadyAndWaitingPorts := by
  refine ⟨fun s i j hwait hi hj => ⟨?_, ?_⟩,
    fun s hheld hnone => step_of_idle hheld hnone, fun s hg hwait hq => ?_,
    fun s e q hg hwait hq => step_of_wait hg hwait hq, fun s p => exists_movesAfter p rfl,
    fun s k hwait hmoves hq => ⟨fun j hj => wait_held_until hmoves hwait hq hj, ?_⟩⟩
  · rw [step_of_grant (p := .P) rfl hi, startPacket_P]
    rfl
  · rw [step_of_grant (p := .C) hwait hj, startPacket_C]
    rfl
  · rw [step_of_held (by rw [hg, holds_C, hwait]), endWait, if_pos (show (takeGrant s).outq = [] from hq)]
  · obtain ⟨e, q, hcons⟩ := List.exists_cons_of_ne_nil (hq k le_rfl)
    obtain ⟨hheld, -⟩ := wait_held_until hmoves hwait hq le_rfl
    refine ⟨e, q, hcons, ?_⟩
    have hlast := (after_succ_last k s).symm.trans (step_of_wait hmoves.1 hheld hcons)
    exact Host.Outcome.next.inj hlast

end Sys2Proof.Machine
end
